-- ==== Sys2Proof/Word.lean ====
section
/-! DEFINITION. The plain value types of HUFFCODEC: bytes, bit sequences, symbols and node ids (spec 00_scope.md R5). -/

namespace Sys2Proof

/-- A payload byte: `BYTE = 8` bits (R2). -/
abbrev Byte := BitVec 8

/-- A bit sequence in R5's order: the head is index 0, written leftmost. -/
abbrev Bits := List Bool

/-- A symbol: an unsigned integer of `SYMW` bits (R5). No rule adds, shifts or masks one, so it is a number, and
`txnFits` keeps it below `NSYM`. -/
abbrev Sym := Nat

/-- A node id of the trie memory: an unsigned integer of `NIDW` bits (R15, R16). -/
abbrev NodeId := Nat

end Sys2Proof
end

