-- ==== Sys2Proof/Config.lean ====
section
/-! DEFINITION. The implementation parameters of the block (spec 00_scope.md R2 to R4), and the free values that the
spec calls unspecified (93_implementation_defined.md U1, U3, U4). -/

namespace Sys2Proof

/-- The two parameters the source leaves open (R3). They stand in `State` as plain data that no step changes, so a
statement about every state is a statement about every parameter (DESIGN CHOICE, log 1). -/
structure Params where
  /-- `SYMW`, the width of a symbol in bits. -/
  symw : Nat
  /-- `MLENW`, the width of the register MLEN in bits. -/
  mlenw : Nat
deriving DecidableEq, Repr

namespace Params

/-- R3's constraints: `SYMW >= 1` and `MLENW >= 8`. -/
def ok (p : Params) : Bool := 1 ≤ p.symw && 8 ≤ p.mlenw

/-- R3's reference values, those of 95_test_vectors.md. -/
def reference : Params := { symw := 8, mlenw := 16 }

/-- `NSYM`: the number of symbol values and of CT entries (R4). -/
def nsym (p : Params) : Nat := 2 ^ p.symw

/-- `MAXLEN`: the length of the longest code word (R4). -/
def maxlen (p : Params) : Nat := max 1 (p.nsym - 1)

/-- `NNODE`: the number of TM entries (R4). -/
def nnode (p : Params) : Nat := 2 * p.nsym - 1

/-- `NIDW`: the width of a node id (R4). -/
def nidw (p : Params) : Nat := p.symw + 1

/-- `PAYBITS`: the most code bits a legal message can produce (R4). -/
def paybits (p : Params) : Nat := 127 * p.maxlen

/-- `PAYCAP`: the number of entries of PAY (R4). -/
def paycap (p : Params) : Nat := 1 + (p.paybits + 7) / 8

/-- `DLENW`: the smallest width whose largest number is at least `PAYCAP` (R4). -/
def dlenw (p : Params) : Nat := Nat.log2 p.paycap + 1

/-- `DINCAP`: the number of entries of DIN (R4). -/
def dincap (p : Params) : Nat := 2 ^ p.dlenw - 1

end Params

namespace Config

/-- `HDRMAX`: the largest symbol count a header may hold (R2). -/
def hdrmax : Nat := 127

/-- `MSGCAP`: the number of entries of MSG (R4). -/
def msgcap : Nat := 127

/-- `SOUTCAP`: the number of entries of SOUT (R4). -/
def soutcap : Nat := 127

/-- What a free value is drawn for. Each reader has names of its own, so that no two draws are tied together. -/
inductive Draw where
  | encMsg | decDin
  | hostMsg | hostPay | hostDin | hostSout | hostCmd
  | tmKind | tmSym | tmLv | tmLeft | tmRv | tmRight
deriving DecidableEq, Repr

/-- A value the spec calls unspecified: `any value, drawn anew at each read` (U1, U3, U4). Opaque: nothing is known of
it. The second argument is the reader's counter in `State` (log 8). -/
opaque freeNat : Draw → Nat → Nat

/-- The unspecified code bits of a CT entry that no write has reached since reset (R39, U1). -/
opaque freeBits : Nat → Bits

end Config

end Sys2Proof
end

