-- ==== Sys2Proof/Syntax.lean ====
section
/-! DEFINITION. The commands of the block (spec 30_encoding.md R60), the host transactions (20_memory.md R41) and the
statements of a host script (30_encoding.md R73, R74). -/

namespace Sys2Proof

/-- The four commands: one constructor per row of spec/opcode_table.json. A command carries no operand and no
immediate (R62). -/
inductive Instr where
  | nop
  | lock
  | compress
  | decompress
deriving DecidableEq, Repr

/-- The ten named registers (R40). -/
inductive Reg where
  | cmd | gstat | mlen | estat | einfo | plen | dlen | dstat | dinfo | slen
deriving DecidableEq, Repr

/-- The four buffers among the six index spaces (R40). -/
inductive Buffer where
  | msg | pay | din | sout
deriving DecidableEq, Repr

/-- The six index spaces (R40). -/
inductive Space where
  | ct
  | tm
  | buf (b : Buffer)
deriving DecidableEq, Repr

/-- HT's tagged variant (R16). -/
inductive NodeKind where
  | leaf
  | internal
deriving DecidableEq, Repr

/-- One entry of the code table CT (R11). The record's `len` is the length of `code` (`a bit sequence of len bits`), so
it is computed from it (log 11). -/
structure CTEntry where
  valid : Bool
  code  : Bits
deriving DecidableEq, Repr

/-- The `len` field of R11. -/
def CTEntry.len (e : CTEntry) : Nat := e.code.length

/-- One entry of the trie memory TM (R16), with all six fields, also those that are not meaningful for its kind: they
are stored and read back, and no unit looks at them (U13). -/
structure TMEntry where
  kind  : NodeKind
  sym   : Sym
  lv    : Bool
  left  : NodeId
  rv    : Bool
  right : NodeId
deriving DecidableEq, Repr

/-- The host transactions of R41: HostWrite on each space, HostRead, HostWriteReg, HostReadReg and Reset. Values are
plain numbers, so that one too wide for its element can be said and is then no transaction of the block (R42). -/
inductive HostTxn where
  | writeCT (s : Sym) (e : CTEntry)
  | writeTM (n : NodeId) (e : TMEntry)
  | writeBuf (b : Buffer) (i v : Nat)
  | read (x : Space) (i : Nat)
  | writeReg (r : Reg) (v : Nat)
  | readReg (r : Reg)
  | reset
deriving DecidableEq, Repr

/-- A statement of the host script: one transaction (R73), or one of the two pseudo-operations that repeat a status
read until the unit is not BUSY (R74). -/
inductive HostStmt where
  | txn (t : HostTxn)
  | waitE
  | waitD
deriving DecidableEq, Repr

end Sys2Proof
end

