-- ==== Sys2Proof/WellFormed.lean ====
section
/-! DEFINITION. Well-formedness of commands and command words (spec 30_encoding.md R60 to R62). The check of a host
transaction's index and value (20_memory.md R42) is `txnFits` in Machine/Operands.lean. -/

namespace Sys2Proof

/-- Every command is well formed: it has no operand that could be out of range (R62). -/
def Instr.wf : Instr → Bool
  | .nop => true
  | .lock => true
  | .compress => true
  | .decompress => true

/-- R60's format C8 as a check on a number: it is one 8-bit word and its field `zero`, bits 7:2, is 000000. -/
def commandWordWf (w : Nat) : Bool := w < 256 && w / 4 == 0

end Sys2Proof
end

