-- ==== Sys2Proof/Decode.lean ====
section
/-! DEFINITION. The decoder and encoder of command words (spec 30_encoding.md R60, R61; 43_system.md R143). -/

namespace Sys2Proof

/-- One row of R60's table. -/
structure OpcodeRow where
  instr     : Instr
  matchBits : Byte
  mask      : Byte
deriving DecidableEq, Repr

/-- R60's table, whose machine-readable copy is spec/opcode_table.json. -/
def opcodeTable : List OpcodeRow :=
  [{ instr := .nop,        matchBits := 0x00#8, mask := 0xFF#8 },
   { instr := .lock,       matchBits := 0x01#8, mask := 0xFF#8 },
   { instr := .compress,   matchBits := 0x02#8, mask := 0xFF#8 },
   { instr := .decompress, matchBits := 0x03#8, mask := 0xFF#8 }]

/-- What a command word stands for: a command, or a reserved word, rejected by name (R61). -/
inductive Decoded where
  | command (i : Instr)
  | reserved (w : Byte)
deriving DecidableEq, Repr

/-- `A word w selects a command exactly when w & mask = match` (R60); any other word is reserved (R61). -/
def decode (w : Byte) : Decoded :=
  match opcodeTable.find? (fun r => w &&& r.mask == r.matchBits) with
  | some r => .command r.instr
  | none => .reserved w

/-- The word of a command, from R60's fields: `zero` in bits 7:2 and `op` in bits 1:0. -/
def encode : Instr → Byte
  | .nop => 0b000000#6 ++ 0b00#2
  | .lock => 0b000000#6 ++ 0b01#2
  | .compress => 0b000000#6 ++ 0b10#2
  | .decompress => 0b000000#6 ++ 0b11#2

/-- The command this decoder reads from a table word: a command is one byte (R60), so a number of 256 or more is none. -/
def decodeTableWord (_nbits w : Nat) : Option Instr :=
  if w < 256 then
    match decode (BitVec.ofNat 8 w) with
    | .command i => some i
    | .reserved _ => none
  else none

end Sys2Proof
end

