-- ==== Sys2Proof/Machine/Bits.lean ====
section
/-! DEFINITION. The packing primitives (spec 00_scope.md R5, R6) and the padding rule (30_encoding.md R66). -/

namespace Sys2Proof.Machine

/-- The number whose binary digits are the sequence, first bit most significant. -/
def bitsToNat (q : Bits) : Nat := q.foldl (fun n b => 2 * n + b.toNat) 0

/-- R6's `pack8`: the first bit becomes bit 7. -/
def pack8 (q : Bits) : Byte := BitVec.ofNat 8 (bitsToNat q)

/-- R6's `unpack8`: bit 7 comes first. -/
def unpack8 (v : Byte) : Bits :=
  [v.getLsbD 7, v.getLsbD 6, v.getLsbD 5, v.getLsbD 4, v.getLsbD 3, v.getLsbD 2, v.getLsbD 1, v.getLsbD 0]

/-- R6's `packall`, for a sequence whose length is a multiple of 8. -/
def packall : Bits → List Byte
  | b0 :: b1 :: b2 :: b3 :: b4 :: b5 :: b6 :: b7 :: q => pack8 [b0, b1, b2, b3, b4, b5, b6, b7] :: packall q
  | _ => []

/-- R6's `unpackall`. -/
def unpackall (bs : List Byte) : Bits := bs.flatMap unpack8

/-- `zeros(n)` (R5). -/
def zeros (n : Nat) : Bits := List.replicate n false

/-- The number of padding bits for `l` code bits (R66). -/
def padLen (l : Nat) : Nat := (8 - l % 8) % 8

/-- Bit `7 - (p mod 8)` of a byte: the bit R28's pointer `p` stands on. -/
def bitAt (v : Byte) (p : Nat) : Bool := v.getLsbD (7 - p % 8)

/-- The `n` low bits of a value, most significant first (R27's pending bits). -/
def lowBits {w : Nat} (v : BitVec w) : Nat → Bits
  | 0 => []
  | n + 1 => v.getLsbD n :: lowBits v n

end Sys2Proof.Machine
end

