-- ==== Sys2Proof/Machine/State.lean ====
section
/-! DEFINITION. The state of HUFFCODEC as plain data (spec 10_state.md), its values after reset (R39), and the reasons a
step can stop. -/

namespace Sys2Proof.Machine

/-- An index space that holds only what has been written since reset, as (index, element) pairs with strictly rising
indices. An unlisted index has no value: a read of it draws a free one (U1, log 6). -/
abbrev Memory (α : Type) := List (Nat × α)

/-- The `state` field of ESTAT and DSTAT (R29, R72). -/
inductive UnitState where
  | idle | busy | done | error
deriving DecidableEq, Repr

/-- The `err` field of ESTAT and DSTAT: the names of R150. `emptyAlphabet` is reserved and never raised (R151). -/
inductive ErrCode where
  | none | unknownSymbol | messageTooLarge | emptyPayload | truncatedPayload | emptyAlphabet | headerRange | noChild
deriving DecidableEq, Repr

/-- A unit's status: ESTAT and EINFO of ENC (R29, R30), DSTAT and DINFO of DEC (R33, R34). The words a host reads are
`UnitStatus.word` and `info`; the reserved bits read as 0 and are not stored (log 12). -/
structure UnitStatus where
  state : UnitState
  err   : ErrCode
  info  : BitVec 16
deriving DecidableEq, Repr

/-- GSTAT's three fields (R25). The word a host reads is `GStat.word`. -/
structure GStat where
  lock   : Bool
  illcmd : Bool
  illacc : Bool
deriving DecidableEq, Repr

/-- The phase `E_ph` of a COMPRESS call (R27). -/
inductive EPhase where
  | chk | sym | flush
deriving DecidableEq, Repr

/-- The phase `D_ph` of a DECOMPRESS call (R28). -/
inductive DPhase where
  | hdr | walk
deriving DecidableEq, Repr

/-- What ENC writes (R10): its status, its output buffer and length, and its data-path registers (R27). A register
whose width depends on a parameter is a number; `State.Inv` in Safety.lean holds it to its width. -/
structure Enc where
  stat  : UnitStatus
  plen  : Nat
  pay   : Memory Byte
  ePh   : EPhase
  eI    : BitVec 7
  eAcc  : BitVec 8
  eNb   : BitVec 3
  eWp   : Nat
  /-- How many free values ENC has drawn (the model's own, log 8). -/
  draws : Nat
deriving DecidableEq, Repr

/-- What DEC writes (R10): its status, its output buffer and length, and its data-path registers (R28). -/
structure Dec where
  stat  : UnitStatus
  slen  : BitVec 8
  sout  : Memory Sym
  dPh   : DPhase
  dN    : BitVec 7
  dCnt  : BitVec 7
  dBp   : Nat
  dNode : NodeId
  /-- How many free values DEC has drawn (the model's own, log 8). -/
  draws : Nat
deriving DecidableEq, Repr

/-- The three agents (R1). -/
inductive Agent where
  | host | enc | dec
deriving DecidableEq, Repr

/-- A value a read of the HOST returned: the block's only output (R41). -/
inductive Reply where
  | ct (s : Sym) (e : CTEntry)
  | tm (n : NodeId) (e : TMEntry)
  | elem (b : Buffer) (i v : Nat)
  | reg (r : Reg) (v : Nat)
deriving DecidableEq, Repr

/-- The whole state: the tables, the input buffers and lengths, the two units (R10), the flags, and the host side of the
interface. -/
structure State where
  /-- The machine's parameters (R3). No step changes them. -/
  params    : Params
  gstat     : GStat
  ct        : Memory CTEntry
  tm        : Memory TMEntry
  msg       : Memory Sym
  mlen      : Nat
  din       : Memory Byte
  dlen      : Nat
  enc       : Enc
  dec       : Dec
  /-- The HOST's pending statements, first to be issued first (log 3). -/
  script    : List HostStmt
  /-- Which agents move next, as far as it is fixed (log 2). -/
  sched     : List Agent
  /-- What the HOST's reads returned, newest first (log 4). -/
  replies   : List Reply
  /-- How many free values the HOST's reads have drawn (the model's own, log 8). -/
  hostDraws : Nat
deriving DecidableEq, Repr

/-- Why the machine stops. No rule of the spec stops the block (`Nothing in this block is stuck`). Both reasons belong
to unit steps in states that no run reaches, as the invariant `State.Inv` of Safety.lean shows (log 15); both are safe. -/
inductive Fault where
  /-- Raised by a step of ENC or DEC that would touch an index its space does not have (R40). Safe: it stops. -/
  | outsideSpace (x : Space) (i : Nat)
  /-- Raised by a WALK step at a node that is unwritten or no INTERNAL node, or at an unwritten child: no rule gives
  such a trie a meaning (R129). Safe: it stops. -/
  | brokenTrie (n : NodeId)
deriving DecidableEq, Repr

/-- Why a step is given no meaning. -/
inductive Refusal where
  /-- Raised by `exec` for a command that has no meaning yet. Safe: it stops. -/
  | notModelled (mnemonic : String)
  /-- Raised by a HOST transaction whose index is outside its space, or whose value does not fit its element (R42, U5).
  Safe: `a model refuses it`. -/
  | notATransaction
  /-- Raised by LOCK in CONFIG mode where CT is not `WF_CT` or TM is not `WF_TM` (R142, U2). Safe: `a model refuses`. -/
  | illFormedLock
  /-- Raised by COMPRESS where it would start on a locked CT that is not `WF_CT` (R102, U2). Safe. -/
  | illFormedCodeTable
  /-- Raised by DECOMPRESS where it would start on a locked TM that is not `WF_TM` (R129, U2). Safe. -/
  | illFormedTrie
deriving DecidableEq, Repr

/-- A unit's status after reset: IDLE, no error, no diagnostic (R39). -/
def UnitStatus.reset : UnitStatus := { state := .idle, err := .none, info := 0 }

/-- ENC after reset (R39). The data-path registers' values are the model's, DESIGN CHOICE, log 5. -/
def Enc.reset : Enc :=
  { stat := .reset, plen := 0, pay := [], ePh := .chk, eI := 0, eAcc := 0, eNb := 0, eWp := 0, draws := 0 }

/-- DEC after reset (R39). The data-path registers' values are the model's, DESIGN CHOICE, log 5. -/
def Dec.reset : Dec :=
  { stat := .reset, slen := 0, sout := [], dPh := .hdr, dN := 0, dCnt := 0, dBp := 0, dNode := 0, draws := 0 }

/-- The state after reset of a machine with parameters `p` (R39): CONFIG mode, flags clear, units IDLE, lengths 0, no CT
entry valid, nothing else written. -/
def State.resetWith (p : Params) : State :=
  { params := p, gstat := { lock := false, illcmd := false, illacc := false },
    ct := [], tm := [], msg := [], mlen := 0, din := [], dlen := 0, enc := .reset, dec := .reset,
    script := [], sched := [], replies := [], hostDraws := 0 }

/-- The machine right after reset, at the spec's reference parameters (log 1). -/
def State.reset : State := State.resetWith .reference

end Sys2Proof.Machine
end

