-- ==== Sys2Proof/Machine/Flags.lean ====
section
/-! DEFINITION. Status words, error codes and sticky flags (spec 10_state.md R25, R29, R33, R37; 30_encoding.md R72;
60_exceptions.md R150, R163, R164). -/

namespace Sys2Proof.Machine

/-- R72's encoding of the `state` field. -/
def UnitState.code : UnitState → BitVec 2
  | .idle => 0
  | .busy => 1
  | .done => 2
  | .error => 3

/-- R150's encoding of the `err` field. -/
def ErrCode.code : ErrCode → BitVec 3
  | .none => 0
  | .unknownSymbol => 1
  | .messageTooLarge => 2
  | .emptyPayload => 3
  | .truncatedPayload => 4
  | .emptyAlphabet => 5
  | .headerRange => 6
  | .noChild => 7

/-- The 8-bit word of ESTAT or DSTAT: reserved bits 7:5 read as 0, `err` in 4:2, `state` in 1:0 (R29, R33). -/
def UnitStatus.word (u : UnitStatus) : BitVec 8 := 0#3 ++ u.err.code ++ u.state.code

/-- The 8-bit word of GSTAT: reserved bits 7:3 read as 0, then ILLACC, ILLCMD, LOCK (R25). -/
def GStat.word (g : GStat) : BitVec 8 :=
  0#5 ++ BitVec.ofBool g.illacc ++ BitVec.ofBool g.illcmd ++ BitVec.ofBool g.lock

/-- Is the unit BUSY? -/
def UnitStatus.isBusy (u : UnitStatus) : Bool := u.state == .busy

/-- `GSTAT.ILLCMD <- 1`, and nothing else (R163). -/
def State.setIllCmd (s : State) : State := { s with gstat := { s.gstat with illcmd := true } }

/-- `GSTAT.ILLACC <- 1`, and nothing else (R164). -/
def State.setIllAcc (s : State) : State := { s with gstat := { s.gstat with illacc := true } }

/-- `GSTAT.LOCK <- 1`, and nothing else (R141). -/
def State.setLock (s : State) : State := { s with gstat := { s.gstat with lock := true } }

end Sys2Proof.Machine
end

