-- ==== Sys2Proof/Machine/Ops.lean ====
section
/-! DEFINITION. The shared operations: element reads and writes of an index space (spec 20_memory.md R45), the start of a
call, error entry and completion (60_exceptions.md R160, R161), and which agent moves next (R50, R170, R193). -/

namespace Sys2Proof.Machine

/-- The element at an index, `none` where nothing has been written since reset. -/
def Memory.read {α : Type} : Memory α → Nat → Option α
  | [], _ => none
  | (j, v) :: m, i => if j = i then some v else Memory.read m i

/-- `MemWrite(X, i, v)` (00_scope.md section 6), keeping the indices strictly rising. -/
def Memory.write {α : Type} : Memory α → Nat → α → Memory α
  | [], i, v => [(i, v)]
  | (j, w) :: m, i, v =>
    if i < j then (i, v) :: (j, w) :: m
    else if i = j then (i, v) :: m
    else (j, w) :: Memory.write m i v

/-- The canonical form: indices strictly rising. An unlisted index has no value, so no entry can repeat one. -/
def Memory.wf {α : Type} : Memory α → Bool
  | [] => true
  | [_] => true
  | a :: b :: m => a.1 < b.1 && Memory.wf (b :: m)

/-- The elements at indices 0 to `n - 1` that have been written, in order. -/
def Memory.window {α : Type} (m : Memory α) (n : Nat) : List α := (List.range n).filterMap m.read

/-- The given number of steps of one unit, alone, stopping where it stops (R114, R134). -/
def runUnit (unitStep : State → Host.Outcome State Fault Refusal) : Nat → State → Host.Outcome State Fault Refusal
  | 0, s => .next s
  | k + 1, s =>
    match unitStep s with
    | .next t => runUnit unitStep k t
    | .fault f => .fault f
    | .refused r => .refused r

/-- Acceptance of a command: `state <- BUSY; err <- 0; info <- 0` (R110, R130). It is also the return from an error
(R161). -/
def UnitStatus.accept : UnitStatus := { state := .busy, err := .none, info := 0 }

/-- `raise E(info)`: the one error entry, of either unit (R160). The diagnostic is cut to 16 bits (R152). -/
def UnitStatus.raise (e : ErrCode) (info : Nat) : UnitStatus :=
  { state := .error, err := e, info := BitVec.ofNat 16 info }

/-- `state <- DONE`: a call succeeds (R113, R132). -/
def UnitStatus.complete (u : UnitStatus) : UnitStatus := { u with state := .done }

/-- ENC raises: nothing but ESTAT and EINFO changes (R160). -/
def State.encRaise (s : State) (e : ErrCode) (info : Nat) : State :=
  { s with enc := { s.enc with stat := .raise e info } }

/-- DEC raises: nothing but DSTAT and DINFO changes (R160). -/
def State.decRaise (s : State) (e : ErrCode) (info : Nat) : State :=
  { s with dec := { s.dec with stat := .raise e info } }

/-- R110: the start of a COMPRESS call. -/
def State.encStart (s : State) : State :=
  { s with enc := { s.enc with stat := .accept, plen := 0, ePh := .chk } }

/-- R130: the start of a DECOMPRESS call. -/
def State.decStart (s : State) : State :=
  { s with dec := { s.dec with stat := .accept, slen := 0, dPh := .hdr } }

/-- A value a read returned, given to the HOST (R41). -/
def State.reply (s : State) (r : Reply) : State := { s with replies := r :: s.replies }

/-- R180, R181: the Reset event. The parameters are the machine's, the script and the replies are the HOST's, and the
counters go on, so that values are drawn anew (log 16). -/
def State.resetEvent (s : State) : State :=
  { State.resetWith s.params with
    enc := { Enc.reset with draws := s.enc.draws }, dec := { Dec.reset with draws := s.dec.draws },
    script := s.script, sched := s.sched, replies := s.replies, hostDraws := s.hostDraws }

/-- Has the agent a step to take? The HOST while its script is not over, a unit while it is BUSY (R114, R134). -/
def State.enabled (s : State) : Agent → Bool
  | .host => !s.script.isEmpty
  | .enc => s.enc.stat.isBusy
  | .dec => s.dec.stat.isBusy

/-- The agent that moves next and the rest of the schedule: the first agent of `sched` that has a step to take. Where
`sched` names none, a BUSY unit comes before the HOST, so that every run that goes on is fair to the units (R193,
log 2). -/
def State.nextAgent (s : State) : Option (Agent × List Agent) :=
  match s.sched.dropWhile (fun a => !s.enabled a) with
  | a :: rest => some (a, rest)
  | [] =>
    if s.enabled .enc then some (.enc, [])
    else if s.enabled .dec then some (.dec, [])
    else if s.enabled .host then some (.host, [])
    else none

end Sys2Proof.Machine
end

