-- ==== Sys2Proof/Machine/Operands.lean ====
section
/-! DEFINITION. The implicit operands of the commands: table lookups and input-buffer reads (spec 10_state.md R11, R13,
R16, R20, R22), the table predicates a launch needs (R14, R17), and which host transactions are ones of the block
(20_memory.md R40, R42). -/

namespace Sys2Proof.Machine

/-! ### Sizes of the spaces and widths of the registers (R4, R40) -/

/-- The number of entries of a buffer. -/
def bufferSize (p : Params) : Buffer → Nat
  | .msg => Config.msgcap
  | .pay => p.paycap
  | .din => p.dincap
  | .sout => Config.soutcap

/-- The width of a buffer's element. -/
def bufferWidth (p : Params) : Buffer → Nat
  | .msg => p.symw
  | .pay => 8
  | .din => 8
  | .sout => p.symw

/-- The number of entries of a space. -/
def spaceSize (p : Params) : Space → Nat
  | .ct => p.nsym
  | .tm => p.nnode
  | .buf b => bufferSize p b

/-- The width of a register (R24 to R35). -/
def regWidth (p : Params) : Reg → Nat
  | .cmd => 8
  | .gstat => 8
  | .mlen => p.mlenw
  | .estat => 8
  | .einfo => 16
  | .plen => p.dlenw
  | .dlen => p.dlenw
  | .dstat => 8
  | .dinfo => 16
  | .slen => 8

/-- A CT record fits: its `len` field holds at most `MAXLEN` (R11). -/
def ctEntryFits (p : Params) (e : CTEntry) : Bool := e.len ≤ p.maxlen

/-- A TM record fits its fields' widths (R16). -/
def tmEntryFits (p : Params) (e : TMEntry) : Bool :=
  e.sym < p.nsym && (e.left < 2 ^ p.nidw && e.right < 2 ^ p.nidw)

/-- Is it a transaction of this block? Its index is inside its space and its value fits its element (R42). -/
def txnFits (p : Params) : HostTxn → Bool
  | .writeCT s e => s < p.nsym && ctEntryFits p e
  | .writeTM n e => n < p.nnode && tmEntryFits p e
  | .writeBuf b i v => i < bufferSize p b && v < 2 ^ bufferWidth p b
  | .read x i => i < spaceSize p x
  | .writeReg r v => v < 2 ^ regWidth p r
  | .readReg _ => true
  | .reset => true

/-! ### The code table -/

/-- R13's `cw(s)`: the code word of a symbol in the map, `none` for one that is absent. An entry never written since
reset has `valid = 0` (R39). -/
def codeWord (ct : Memory CTEntry) (v : Sym) : Option Bits :=
  match ct.read v with
  | some e => if e.valid then some e.code else none
  | none => none

/-- `WF_CT` (R14): every valid entry has a code word of 1 to `MAXLEN` bits. -/
def wfCT (p : Params) (ct : Memory CTEntry) : Bool :=
  ct.all (fun x => !x.2.valid || (1 ≤ x.2.len && x.2.len ≤ p.maxlen))

/-! ### The trie memory -/

/-- The child a bit selects: left on 0, right on 1, and `none` where the node lacks it (R16, R128). -/
def childOf (e : TMEntry) (b : Bool) : Option NodeId :=
  if b then (if e.rv then some e.right else none) else (if e.lv then some e.left else none)

/-- R17's shape (c) from the nodes of a work list on: each is written, below `NNODE` and met for the first time, every
INTERNAL node has both children, and no two leaves hold one symbol. -/
def treeCheck (p : Params) (tm : Memory TMEntry) : Nat → List NodeId → List NodeId → List Sym → Bool
  | 0, _, _, _ => false
  | _ + 1, [], _, _ => true
  | fuel + 1, n :: todo, seen, syms =>
    if n < p.nnode && !seen.contains n then
      match tm.read n with
      | none => false
      | some e =>
        match e.kind with
        | .leaf => !syms.contains e.sym && treeCheck p tm fuel todo (n :: seen) (e.sym :: syms)
        | .internal => e.lv && (e.rv && treeCheck p tm fuel (e.left :: e.right :: todo) (n :: seen) syms)
    else false

/-- `WF_TM` (R17) as a check: the placeholder, the synthetic root, or the general tree. A reachable entry never written
since reset makes it fail (D21, log 10). -/
def wfTM (p : Params) (tm : Memory TMEntry) : Bool :=
  match tm.read 0 with
  | none => false
  | some e =>
    match e.kind, e.lv, e.rv with
    | .leaf, _, _ => false
    | .internal, false, false => true
    | .internal, true, false =>
      match tm.read e.left with
      | some c => e.left ≠ 0 && (e.left < p.nnode && c.kind == .leaf)
      | none => false
    | .internal, false, true => false
    | .internal, true, true => treeCheck p tm (p.nnode + 1) [0] [] []

/-- R142's predicates on the tables a LOCK would freeze. -/
def State.lockTables (s : State) : Bool := wfCT s.params s.ct && wfTM s.params s.tm

/-! ### Reads of the input buffers by the units -/

/-- ENC reads `MSG[i]` (R104). An element never written since reset is a free value of `SYMW` bits (U1). -/
def State.encMsg (s : State) (i : Nat) : Sym × State :=
  match s.msg.read i with
  | some v => (v, s)
  | none =>
    (Config.freeNat .encMsg s.enc.draws % 2 ^ s.params.symw,
     { s with enc := { s.enc with draws := s.enc.draws + 1 } })

/-- DEC reads `DIN[j]` (R123, R124). An element never written since reset is a free byte (U1). -/
def State.decDin (s : State) (j : Nat) : Byte × State :=
  match s.din.read j with
  | some v => (v, s)
  | none =>
    (BitVec.ofNat 8 (Config.freeNat .decDin s.dec.draws),
     { s with dec := { s.dec with draws := s.dec.draws + 1 } })

end Sys2Proof.Machine
end

