-- ==== Sys2Proof/Machine/System.lean ====
section
/-! DEFINITION. The system commands NOP and LOCK, and what a command that is not accepted does (spec 43_system.md R140
to R143). -/

namespace Sys2Proof.Machine

/-- A command that is not accepted `changes nothing but GSTAT.ILLCMD` (R143, R163). -/
def illegalCommand (s : State) : Host.Outcome State Fault Refusal := .next s.setIllCmd

/-- NOP (R140): it changes no state. -/
def execNop (s : State) : Host.Outcome State Fault Refusal := .next s

/-- R141's effect of LOCK on the block: CONFIG to RUN, illegal when already in RUN. It reads no table. -/
def lockEffect (s : State) : Host.Outcome State Fault Refusal :=
  if s.gstat.lock then illegalCommand s else .next s.setLock

/-- LOCK (R141, R142): the block checks nothing, but a LOCK whose tables lack `WF_CT` or `WF_TM` has no meaning and a
model refuses it (R142, U2). In RUN mode no tables are locked, so R141's other branch needs no check (log 9). -/
def execLock (s : State) : Host.Outcome State Fault Refusal :=
  if s.gstat.lock || s.lockTables then lockEffect s else .refused .illFormedLock

end Sys2Proof.Machine
end

