-- ==== Sys2Proof/Machine/Compress.lean ====
section
/-! DEFINITION. The command COMPRESS and the steps of the encoder unit ENC (spec 41_compress.md R100, R110 to R113). -/

namespace Sys2Proof.Machine

/-- COMPRESS (R100, R143): accepted in RUN mode unless ENC is BUSY, and then ENC starts (R110). On a CT that is not
`WF_CT` the launch is refused (R102). -/
def execCompress (s : State) : Host.Outcome State Fault Refusal :=
  if s.gstat.lock && !s.enc.stat.isBusy then
    if wfCT s.params s.ct then .next s.encStart else .refused .illFormedCodeTable
  else illegalCommand s

/-- `push(b)` of R112: one bit into the pending bits, and the completed byte into PAY. -/
def encPush (e : Enc) (b : Bool) : Enc :=
  let acc := BitVec.ofNat 8 (2 * e.eAcc.toNat + b.toNat)
  if e.eNb = 7 then { e with pay := e.pay.write e.eWp acc, eWp := e.eWp + 1, eAcc := 0, eNb := 0 }
  else { e with eAcc := acc, eNb := e.eNb + 1 }

/-- `push` for every bit of a code word, root edge first (R112). -/
def encPushAll (e : Enc) (q : Bits) : Enc := q.foldl encPush e

/-- Step CHK (R111). -/
def encChk (s : State) : Host.Outcome State Fault Refusal :=
  if s.mlen > Config.hdrmax then .next (s.encRaise .messageTooLarge s.mlen)
  else .next { s with enc := { s.enc with
    pay := s.enc.pay.write 0 (BitVec.ofNat 8 s.mlen), eI := 0, eAcc := 0, eNb := 0, eWp := 1, ePh := .sym } }

/-- The part of step SYM after the lookup (R112): the whole code word goes out and `E_i` moves on. The bytes it
completes are `PAY[E_wp]` on; outside PAY there is nothing to write. -/
def encEmit (q : Bits) (s : State) : Host.Outcome State Fault Refusal :=
  if s.enc.eWp + (s.enc.eNb.toNat + q.length) / 8 ≤ s.params.paycap then
    .next { s with enc := { encPushAll s.enc q with eI := s.enc.eI + 1 } }
  else .fault (.outsideSpace (.buf .pay) (s.enc.eWp + (s.enc.eNb.toNat + q.length) / 8 - 1))

/-- The lookup of step SYM (R104, R112): a symbol that is absent from the map ends the call. -/
def encLookup (v : Sym) (s : State) : Host.Outcome State Fault Refusal :=
  match codeWord s.ct v with
  | none => .next (s.encRaise .unknownSymbol s.enc.eI.toNat)
  | some q => encEmit q s

/-- Step SYM (R112): one whole symbol, or the end of the message. -/
def encSym (s : State) : Host.Outcome State Fault Refusal :=
  if s.enc.eI.toNat = s.mlen then .next { s with enc := { s.enc with ePh := .flush } }
  else if s.enc.eI.toNat < Config.msgcap then
    encLookup (s.encMsg s.enc.eI.toNat).1 (s.encMsg s.enc.eI.toNat).2
  else .fault (.outsideSpace (.buf .msg) s.enc.eI.toNat)

/-- Step FLUSH (R113): the pending bits to the top of a last byte, zero bits below, and the call is DONE. -/
def encFlush (s : State) : Host.Outcome State Fault Refusal :=
  if s.enc.eNb = 0 then
    .next { s with enc := { s.enc with plen := s.enc.eWp, stat := s.enc.stat.complete } }
  else if s.enc.eWp < s.params.paycap then
    .next { s with enc := { s.enc with
      pay := s.enc.pay.write s.enc.eWp (BitVec.ofNat 8 (s.enc.eAcc.toNat * 2 ^ (8 - s.enc.eNb.toNat))),
      eWp := s.enc.eWp + 1, plen := s.enc.eWp + 1, stat := s.enc.stat.complete } }
  else .fault (.outsideSpace (.buf .pay) s.enc.eWp)

/-- ENC's one enabled step (R114). A unit that is not BUSY has none. -/
def encStep (s : State) : Host.Outcome State Fault Refusal :=
  if s.enc.stat.isBusy then
    match s.enc.ePh with
    | .chk => encChk s
    | .sym => encSym s
    | .flush => encFlush s
  else .next s

end Sys2Proof.Machine
end

