-- ==== Sys2Proof/Machine/Decompress.lean ====
section
/-! DEFINITION. The command DECOMPRESS and the steps of the decoder unit DEC (spec 42_decompress.md R120, R130 to R132). -/

namespace Sys2Proof.Machine

/-- DECOMPRESS (R120, R143): accepted in RUN mode unless DEC is BUSY, and then DEC starts (R130). On a TM that is not
`WF_TM` the launch is refused (R129). -/
def execDecompress (s : State) : Host.Outcome State Fault Refusal :=
  if s.gstat.lock && !s.dec.stat.isBusy then
    if wfTM s.params s.tm then .next s.decStart else .refused .illFormedTrie
  else illegalCommand s

/-- Step HDR after the header byte is read (R131). -/
def decHeader (h : Byte) (s : State) : Host.Outcome State Fault Refusal :=
  if h.toNat > Config.hdrmax then .next (s.decRaise .headerRange h.toNat)
  else .next { s with dec := { s.dec with
    dN := h.extractLsb' 0 7, dCnt := 0, dBp := 0, dNode := 0, dPh := .walk } }

/-- Step HDR (R131). -/
def decHdr (s : State) : Host.Outcome State Fault Refusal :=
  if s.dlen = 0 then .next (s.decRaise .emptyPayload 0)
  else decHeader (s.decDin 0).1 (s.decDin 0).2

/-- The end of a WALK step that reaches a child (R132): at a LEAF the symbol goes out and the walk returns to the root
within the same step, at an INTERNAL node the walk descends. -/
def decArrive (c : NodeId) (s : State) : Host.Outcome State Fault Refusal :=
  match s.tm.read c with
  | none => .fault (.brokenTrie c)
  | some e =>
    match e.kind with
    | .internal => .next { s with dec := { s.dec with dNode := c } }
    | .leaf =>
      if s.dec.dCnt.toNat < Config.soutcap then
        .next { s with dec := { s.dec with
          sout := s.dec.sout.write s.dec.dCnt.toNat e.sym, dCnt := s.dec.dCnt + 1, dNode := 0 } }
      else .fault (.outsideSpace (.buf .sout) s.dec.dCnt.toNat)

/-- The part of step WALK after a bit is consumed (R132): follow it, or fail where the node lacks that child. -/
def decFollow (b : Bool) (s : State) : Host.Outcome State Fault Refusal :=
  match s.tm.read s.dec.dNode with
  | none => .fault (.brokenTrie s.dec.dNode)
  | some e =>
    match e.kind with
    | .leaf => .fault (.brokenTrie s.dec.dNode)
    | .internal =>
      match childOf e b with
      | none => .next (s.decRaise .noChild s.dec.dCnt.toNat)
      | some c => decArrive c s

/-- The index in DIN of the byte that holds the next bit (R28). -/
def State.dinIndex (s : State) : Nat := 1 + s.dec.dBp / 8

/-- One bit of the byte that was read is consumed (R132): `D_bp <- D_bp + 1`, and the bit is followed. -/
def decConsume (v : Byte) (s : State) : Host.Outcome State Fault Refusal :=
  decFollow (bitAt v s.dec.dBp) { s with dec := { s.dec with dBp := s.dec.dBp + 1 } }

/-- Step WALK (R132): the count test, then the exhaustion test, then one bit. -/
def decWalk (s : State) : Host.Outcome State Fault Refusal :=
  if s.dec.dCnt = s.dec.dN then
    .next { s with dec := { s.dec with slen := s.dec.dN.zeroExtend 8, stat := s.dec.stat.complete } }
  else if s.dec.dBp = 8 * (s.dlen - 1) then .next (s.decRaise .truncatedPayload s.dec.dCnt.toNat)
  else if s.dinIndex < s.params.dincap then
    decConsume (s.decDin s.dinIndex).1 (s.decDin s.dinIndex).2
  else .fault (.outsideSpace (.buf .din) s.dinIndex)

/-- DEC's one enabled step (R134). A unit that is not BUSY has none. -/
def decStep (s : State) : Host.Outcome State Fault Refusal :=
  if s.dec.stat.isBusy then
    match s.dec.dPh with
    | .hdr => decHdr s
    | .walk => decWalk s
  else .next s

end Sys2Proof.Machine
end

