-- ==== Sys2Proof/Machine/HostSide.lean ====
section
/-! DEFINITION. The host transactions (spec 20_memory.md R41 to R49; 10_state.md R12, R16, R20 to R35; 43_system.md R143
to R145) and the HOST's step. -/

namespace Sys2Proof.Machine

/-- A HOST write to CMD (R24, R143): the command is decoded and performed at once. -/
def writeCmd (w : Byte) (s : State) : Host.Outcome State Fault Refusal :=
  match decode w with
  | .command i => exec i s
  | .reserved _ => illegalCommand s

/-- A HOST write to CT: in CONFIG mode only (R12, R164). -/
def writeCT (v : Sym) (e : CTEntry) (s : State) : State :=
  if s.gstat.lock then s.setIllAcc else { s with ct := s.ct.write v e }

/-- A HOST write to TM: in CONFIG mode only (R16, R164). -/
def writeTM (n : NodeId) (e : TMEntry) (s : State) : State :=
  if s.gstat.lock then s.setIllAcc else { s with tm := s.tm.write n e }

/-- A HOST write to a buffer: an input buffer while its unit is not BUSY (R20, R22), an output buffer never (R21, R23,
R164). -/
def writeBuffer (b : Buffer) (i v : Nat) (s : State) : State :=
  match b with
  | .msg => if s.enc.stat.isBusy then s.setIllAcc else { s with msg := s.msg.write i v }
  | .din => if s.dec.stat.isBusy then s.setIllAcc else { s with din := s.din.write i (BitVec.ofNat 8 v) }
  | .pay => s.setIllAcc
  | .sout => s.setIllAcc

/-- A HOST write to a register (R24 to R35, R164). -/
def writeRegister (r : Reg) (v : Nat) (s : State) : Host.Outcome State Fault Refusal :=
  match r with
  | .cmd => writeCmd (BitVec.ofNat 8 v) s
  | .mlen => .next (if s.enc.stat.isBusy then s.setIllAcc else { s with mlen := v })
  | .dlen => .next (if s.dec.stat.isBusy then s.setIllAcc else { s with dlen := v })
  | .gstat => .next s.setIllAcc
  | .estat => .next s.setIllAcc
  | .einfo => .next s.setIllAcc
  | .plen => .next s.setIllAcc
  | .dstat => .next s.setIllAcc
  | .dinfo => .next s.setIllAcc
  | .slen => .next s.setIllAcc

/-- A read that returned a free value: the HOST's counter moves on (log 8). -/
def State.drawnReply (s : State) (r : Reply) : State := { s.reply r with hostDraws := s.hostDraws + 1 }

/-- An unspecified value of `w` bits for the HOST (U1, U3, U4). -/
def State.hostDraw (s : State) (d : Config.Draw) (w : Nat) : Nat := Config.freeNat d s.hostDraws % 2 ^ w

/-- What a HOST read of a CT entry never written since reset returns: `valid = 0`, the rest unspecified (R39). -/
def State.drawnCT (s : State) : CTEntry :=
  { valid := false, code := (Config.freeBits s.hostDraws).take s.params.maxlen }

/-- What a HOST read of a TM entry never written since reset returns: every field unspecified (R39). -/
def State.drawnTM (s : State) : TMEntry :=
  { kind := if s.hostDraw .tmKind 1 = 0 then .leaf else .internal
    sym := s.hostDraw .tmSym s.params.symw
    lv := s.hostDraw .tmLv 1 == 1
    left := s.hostDraw .tmLeft s.params.nidw
    rv := s.hostDraw .tmRv 1 == 1
    right := s.hostDraw .tmRight s.params.nidw }

/-- What a HOST read of a buffer returns where the spec specifies it, `none` where it is unspecified: an input element
written since reset (R20, R22), an output element in the window of a DONE call (R21, R23, R189). -/
def State.bufferValue (s : State) : Buffer → Nat → Option Nat
  | .msg, i => s.msg.read i
  | .din, i => (s.din.read i).map (·.toNat)
  | .pay, i => if s.enc.stat.state = .done ∧ i < s.enc.plen then (s.enc.pay.read i).map (·.toNat) else none
  | .sout, i => if s.dec.stat.state = .done ∧ i < s.dec.slen.toNat then s.dec.sout.read i else none

/-- The name a free value of a buffer is drawn under. -/
def bufferDraw : Buffer → Config.Draw
  | .msg => .hostMsg
  | .pay => .hostPay
  | .din => .hostDin
  | .sout => .hostSout

/-- HostRead (R41, R45, R47, R145). -/
def readElement (x : Space) (i : Nat) (s : State) : State :=
  match x with
  | .ct =>
    match s.ct.read i with
    | some e => s.reply (.ct i e)
    | none => s.drawnReply (.ct i s.drawnCT)
  | .tm =>
    match s.tm.read i with
    | some e => s.reply (.tm i e)
    | none => s.drawnReply (.tm i s.drawnTM)
  | .buf b =>
    match s.bufferValue b i with
    | some v => s.reply (.elem b i v)
    | none => s.drawnReply (.elem b i (s.hostDraw (bufferDraw b) (bufferWidth s.params b)))

/-- The value of a readable register, zero-extended (R144), `none` for CMD, whose read is unspecified (R24, U4). -/
def State.regValue (s : State) : Reg → Option Nat
  | .cmd => none
  | .gstat => some s.gstat.word.toNat
  | .mlen => some s.mlen
  | .estat => some s.enc.stat.word.toNat
  | .einfo => some s.enc.stat.info.toNat
  | .plen => some s.enc.plen
  | .dlen => some s.dlen
  | .dstat => some s.dec.stat.word.toNat
  | .dinfo => some s.dec.stat.info.toNat
  | .slen => some s.dec.slen.toNat

/-- HostReadReg (R41, R47, R144). -/
def readRegister (r : Reg) (s : State) : State :=
  match s.regValue r with
  | some v => s.reply (.reg r v)
  | none => s.drawnReply (.reg r (s.hostDraw .hostCmd 8))

/-- A transaction of the block (R41). -/
def hostPerform (t : HostTxn) (s : State) : Host.Outcome State Fault Refusal :=
  match t with
  | .writeCT v e => .next (writeCT v e s)
  | .writeTM n e => .next (writeTM n e s)
  | .writeBuf b i v => .next (writeBuffer b i v s)
  | .read x i => .next (readElement x i s)
  | .writeReg r v => writeRegister r v s
  | .readReg r => .next (readRegister r s)
  | .reset => .next s.resetEvent

/-- One host transaction: one that is none of the block's is refused (R42, U5). -/
def hostTxn (t : HostTxn) (s : State) : Host.Outcome State Fault Refusal :=
  if txnFits s.params t then hostPerform t s else .refused .notATransaction

/-- The host transaction the next step performs, where it is the HOST's turn. WAITE and WAITD read a status (R74). -/
def State.nextTxn (s : State) : Option HostTxn :=
  match s.nextAgent, s.script with
  | some (.host, _), .txn t :: _ => some t
  | some (.host, _), .waitE :: _ => some (.readReg .estat)
  | some (.host, _), .waitD :: _ => some (.readReg .dstat)
  | _, _ => none

/-- The HOST's step: it issues its next statement. WAITE and WAITD read the status once and stay until it is not BUSY
(R74, log 18). -/
def hostStep (s : State) : Host.Outcome State Fault Refusal :=
  match s.script with
  | [] => .next s
  | .txn t :: rest => hostTxn t { s with script := rest }
  | .waitE :: rest =>
    hostTxn (.readReg .estat) { s with script := if s.enc.stat.isBusy then .waitE :: rest else rest }
  | .waitD :: rest =>
    hostTxn (.readReg .dstat) { s with script := if s.dec.stat.isBusy then .waitD :: rest else rest }

end Sys2Proof.Machine
end

