-- ==== Sys2Proof/Machine/Step.lean ====
section
/-! DEFINITION. One step of the machine: the agent whose turn it is takes its step (spec 20_memory.md R46, R50). -/

namespace Sys2Proof.Machine

/-- One step. Where no agent has one to take the run is over (R194) and nothing changes (R182, log 14). -/
def step (s : State) : Host.Outcome State Fault Refusal :=
  match s.nextAgent with
  | none => .next s
  | some (.host, rest) => hostStep { s with sched := rest }
  | some (.enc, rest) => encStep { s with sched := rest }
  | some (.dec, rest) => decStep { s with sched := rest }

/-- The state in which the HOST is about to write a command word to CMD, and moves next. The block fetches no
instructions (R36): a command reaches it only so (R24, log 3). -/
def State.withFetchWord (s : State) (_nbits w : Nat) : State :=
  { s with script := .txn (.writeReg .cmd (w % 256)) :: s.script, sched := .host :: s.sched }

end Sys2Proof.Machine
end

