-- ==== Sys2Proof/Machine/BigStep.lean ====
section
/-! DEFINITION. The normative whole-call results: `compress` (spec 41_compress.md R101 to R107) and `decompress`
(42_decompress.md R121 to R128). The unit steps refine them (R114, R134). -/

namespace Sys2Proof.Machine

/-- The result of a call (R101, R121). `undef` stands where no rule gives one: a trie that is not `WF_TM` (R129,
log 22). -/
inductive CallResult (α : Type) where
  | ok (out : α)
  | error (e : ErrCode) (info : Nat)
  | undef
deriving DecidableEq, Repr

/-- R101's loop over the message from position `i` on, with `q` the growing bit sequence: the lookup of R104 and the
concatenation of R105. -/
def codeBits (cw : Sym → Option Bits) : List Sym → Nat → Bits → CallResult Bits
  | [], _, q => .ok q
  | s :: msg, i, q =>
    match cw s with
    | none => .error .unknownSymbol i
    | some c => codeBits cw msg (i + 1) (q ++ c)

/-- The payload of a symbol count and its code bits: padding, packing, header (R106, R107). -/
def payloadOf (n : Nat) (q : Bits) : List Byte := BitVec.ofNat 8 n :: packall (q ++ zeros (padLen q.length))

/-- `compress(MLEN, MSG, cw)` (R101), on the symbols `MSG[0 .. MLEN-1]`. -/
def compress (mlen : Nat) (msg : List Sym) (cw : Sym → Option Bits) : CallResult (List Byte) :=
  if mlen > Config.hdrmax then .error .messageTooLarge (mlen % 2 ^ 16)
  else
    match codeBits cw msg 0 [] with
    | .ok q => .ok (payloadOf mlen q)
    | .error e i => .error e i
    | .undef => .undef

/-- What one bit does to the walk (R121): the symbol of the leaf it reaches, the node it descends to, or nothing where
the node lacks that child. -/
inductive WalkMove where
  | emit (s : Sym)
  | descend (n : NodeId)
  | noChild
  | undef
deriving DecidableEq, Repr

/-- R121's move along bit `b` from a node. -/
def walkMove (tm : Memory TMEntry) (node : NodeId) (b : Bool) : WalkMove :=
  match tm.read node with
  | none => .undef
  | some e =>
    match e.kind with
    | .leaf => .undef
    | .internal =>
      match childOf e b with
      | none => .noChild
      | some c =>
        match tm.read c with
        | none => .undef
        | some f =>
          match f.kind with
          | .leaf => .emit f.sym
          | .internal => .descend c

/-- R121's loop over the bits not yet consumed: the count test first (R126), then exhaustion (R127), then the bit
(R128). -/
def walkBits (tm : Memory TMEntry) (n : Nat) : Bits → NodeId → Nat → List Sym → CallResult (List Sym)
  | [], _, cnt, out => if cnt = n then .ok out else .error .truncatedPayload cnt
  | b :: bits, node, cnt, out =>
    if cnt = n then .ok out
    else
      match walkMove tm node b with
      | .undef => .undef
      | .noChild => .error .noChild cnt
      | .emit s => walkBits tm n bits 0 (cnt + 1) (out ++ [s])
      | .descend c => walkBits tm n bits c cnt out

/-- `decompress(DLEN, DIN, TM)` (R121), on the bytes `DIN[0 .. DLEN-1]`. -/
def decompress (payload : List Byte) (tm : Memory TMEntry) : CallResult (List Sym) :=
  match payload with
  | [] => .error .emptyPayload 0
  | h :: packed =>
    if h.toNat > Config.hdrmax then .error .headerRange h.toNat
    else walkBits tm h.toNat (unpackall packed) 0 0 []

end Sys2Proof.Machine
end

