-- ==== Sys2Proof/Machine/Construct.lean ====
section
/-! DEFINITION. CONSTRUCT, the function the HOST evaluates to get the tables it loads (spec 40_construct.md R80 to R91).
It is not executed by the block (D2). -/

namespace Sys2Proof.Machine

/-- R82's abstract trie. A child is optional, so `absent` stands for `none`; it is a node of no trie. -/
inductive Trie where
  | absent
  | leaf (symbol : Sym) (weight : Nat)
  | internal (weight : Nat) (left right : Trie)
deriving DecidableEq, Repr

/-- The weight of a node (R83). -/
def trieWeight : Trie → Nat
  | .absent => 0
  | .leaf _ w => w
  | .internal w _ _ => w

/-- Is a child present? -/
def triePresent : Trie → Bool
  | .absent => false
  | .leaf _ _ => true
  | .internal _ _ _ => true

/-- `count` (R81): each symbol of the corpus with the number of its occurrences, in ascending order of symbols. -/
def count (corpus : List Sym) : Memory Nat :=
  corpus.foldl (fun table s => table.write s ((table.read s).getD 0 + 1)) []

/-- An element of R84's priority structure. -/
structure QueueItem where
  weight : Nat
  seq    : Nat
  node   : Trie
deriving DecidableEq, Repr

/-- R84's order: lower weight first, then the earlier insertion. -/
def queueBefore (a b : QueueItem) : Bool := a.weight < b.weight || (a.weight == b.weight && a.seq < b.seq)

/-- `Q.insert` (R84), the structure held as a list in ascending order. -/
def queueInsert (a : QueueItem) : List QueueItem → List QueueItem
  | [] => [a]
  | b :: q => if queueBefore a b then a :: b :: q else b :: queueInsert a q

/-- R84's step 1: one leaf per symbol, in ascending order of symbols, with sequence numbers from `seq` on. -/
def queueLeaves : Memory Nat → Nat → List QueueItem → List QueueItem
  | [], _, q => q
  | (s, w) :: table, seq, q => queueLeaves table (seq + 1) (queueInsert { weight := w, seq := seq, node := .leaf s w } q)

/-- R84's merging of two nodes: the first extracted is the left child. -/
def mergeItems (seq : Nat) (a b : QueueItem) : QueueItem :=
  { weight := a.weight + b.weight, seq := seq, node := .internal (a.weight + b.weight) a.node b.node }

/-- R84's loop: merge the two least elements until one remains. The first argument bounds the number of merges. -/
def mergeLoop : Nat → Nat → List QueueItem → List QueueItem
  | 0, _, q => q
  | n + 1, seq, a :: b :: q => mergeLoop n (seq + 1) (queueInsert (mergeItems seq a b) q)
  | _ + 1, _, q => q

/-- `build_general` (R84), for a table of two symbols or more: `n - 1` merges. -/
def buildGeneral (table : Memory Nat) : Trie :=
  match mergeLoop (table.length - 1) table.length (queueLeaves table 0 []) with
  | a :: _ => a.node
  | [] => .absent

/-- `build` (R84 to R86): the placeholder, the synthetic root, or the general loop. An entry with count 0 gets a leaf
like any other: the spec leaves that open (N26), and it is the model's choice (DESIGN CHOICE, log 23). No table that
`count` gives has such an entry (R81). -/
def build (table : Memory Nat) : Trie :=
  match table with
  | [] => .internal 0 .absent .absent
  | [(s, c)] => .internal c (.leaf s c) .absent
  | _ => buildGeneral table

/-- R88's `walk`. -/
def deriveWalk : Trie → Bits → Memory Bits → Memory Bits
  | .absent, _, map => map
  | .leaf s _, path, map => map.write s path
  | .internal _ l r, path, map => deriveWalk r (path ++ [true]) (deriveWalk l (path ++ [false]) map)

/-- `derive` (R88): the code words, by ascending symbol. -/
def derive (root : Trie) : Memory Bits := deriveWalk root [] []

/-- `CONSTRUCT(corpus)` (R80). -/
def construct (corpus : List Sym) : Trie × Memory Bits :=
  let tree := build (count corpus)
  (tree, derive tree)

/-- R91's `place`: the next free id, and TM with the nodes of the subtree in pre-order from `n` on. Fields that are not
meaningful for a node's kind are written as 0 (log 17). -/
def place : Trie → NodeId → Memory TMEntry → NodeId × Memory TMEntry
  | .absent, n, tm => (n, tm)
  | .leaf s _, n, tm =>
    (n + 1, tm.write n { kind := .leaf, sym := s, lv := false, left := 0, rv := false, right := 0 })
  | .internal _ l r, n, tm =>
    let a := place l (n + 1) tm
    let b := place r a.1 a.2
    (b.1, b.2.write n
      { kind := .internal, sym := 0, lv := triePresent l, left := if triePresent l then n + 1 else 0,
        rv := triePresent r, right := if triePresent r then a.1 else 0 })

/-- The TM part of the table image (R91). -/
def imageTM (tree : Trie) : Memory TMEntry := (place tree 0 []).2

/-- The valid entries of the CT part of the table image (R91). -/
def imageCT (map : Memory Bits) : Memory CTEntry := map.map (fun x => (x.1, { valid := true, code := x.2 }))

end Sys2Proof.Machine
end

