-- ==== Sys2Proof/Machine/Script.lean ====
section
/-! DEFINITION. The host-script statements and pseudo-operations (spec 30_encoding.md R73, R74; 40_construct.md R92). -/

namespace Sys2Proof.Machine

/-- `RESET`. -/
def stReset : HostStmt := .txn .reset

/-- `WRCT s, "bits"`. -/
def stWrct (s : Sym) (q : Bits) : HostStmt := .txn (.writeCT s { valid := true, code := q })

/-- `CLRCT s`. -/
def stClrct (s : Sym) : HostStmt := .txn (.writeCT s { valid := false, code := [] })

/-- `WRTMI n, l, r`, an absent child written as `none`. The fields it leaves open are written as 0 (log 17). -/
def stWrtmi (n : NodeId) (l r : Option NodeId) : HostStmt :=
  .txn (.writeTM n
    { kind := .internal, sym := 0, lv := l.isSome, left := l.getD 0, rv := r.isSome, right := r.getD 0 })

/-- `WRTML n, s`. The fields it leaves open are written as 0 (log 17). -/
def stWrtml (n : NodeId) (s : Sym) : HostStmt :=
  .txn (.writeTM n { kind := .leaf, sym := s, lv := false, left := 0, rv := false, right := 0 })

/-- `WRMSG i, s`. -/
def stWrmsg (i : Nat) (s : Sym) : HostStmt := .txn (.writeBuf .msg i s)

/-- `WRDIN j, b`. -/
def stWrdin (j : Nat) (b : Byte) : HostStmt := .txn (.writeBuf .din j b.toNat)

/-- `WRREG R, v`. -/
def stWrreg (r : Reg) (v : Nat) : HostStmt := .txn (.writeReg r v)

/-- `NOP`. -/
def stNop : HostStmt := stWrreg .cmd 0x00

/-- `LOCK`. -/
def stLock : HostStmt := stWrreg .cmd 0x01

/-- `COMPRESS`. -/
def stCompress : HostStmt := stWrreg .cmd 0x02

/-- `DECOMPRESS`. -/
def stDecompress : HostStmt := stWrreg .cmd 0x03

/-- `RDREG R`. -/
def stRdreg (r : Reg) : HostStmt := .txn (.readReg r)

/-- `RDCT s`. -/
def stRdct (s : Sym) : HostStmt := .txn (.read .ct s)

/-- `RDTM n`. -/
def stRdtm (n : NodeId) : HostStmt := .txn (.read .tm n)

/-- `RDMSG i`. -/
def stRdmsg (i : Nat) : HostStmt := .txn (.read (.buf .msg) i)

/-- `RDPAY j`. -/
def stRdpay (j : Nat) : HostStmt := .txn (.read (.buf .pay) j)

/-- `RDDIN j`. -/
def stRddin (j : Nat) : HostStmt := .txn (.read (.buf .din) j)

/-- `RDSOUT k`. -/
def stRdsout (k : Nat) : HostStmt := .txn (.read (.buf .sout) k)

/-- `MSG "text"` (R74): only the first 127 symbols are written, and then the whole length. -/
def stMsg (text : List Sym) : List HostStmt :=
  ((text.take Config.msgcap).zipIdx.map (fun x => stWrmsg x.2 x.1)) ++ [stWrreg .mlen text.length]

/-- `PAYLOAD [b0, b1, ...]` (R74). -/
def stPayload (bs : List Byte) : List HostStmt :=
  (bs.zipIdx.map (fun x => stWrdin x.2 x.1)) ++ [stWrreg .dlen bs.length]

/-- The table writes of the image of a tree and a map (R91, R92). -/
def stTables (tm : Memory TMEntry) (ct : Memory CTEntry) : List HostStmt :=
  tm.map (fun x => .txn (.writeTM x.1 x.2)) ++ ct.map (fun x => .txn (.writeCT x.1 x.2))

/-- `CONSTRUCT "corpus"` (R74, R92): the table writes of the corpus's image, then LOCK. -/
def stConstruct (corpus : List Sym) : List HostStmt :=
  stTables (imageTM (construct corpus).1) (imageCT (construct corpus).2) ++ [stLock]

end Sys2Proof.Machine
end

