-- ==== Sys2Proof/Safety.lean ====
section
/-! DEFINITION. What claims are stated in: the launch premises of spec 70_reset_and_hazards.md R185, the table predicates
of 10_state.md R14, R17, R18 in the spec's own words, and the invariant of the state. -/

namespace Sys2Proof.Machine

/-! ### Table predicates -/

/-- R17's `reachable`: node 0, and the children of reachable INTERNAL nodes. -/
inductive Reach (tm : Memory TMEntry) : NodeId → Prop where
  | root : Reach tm 0
  | child {n : NodeId} {e : TMEntry} {b : Bool} {c : NodeId} (up : Reach tm n) (written : tm.read n = some e)
      (internal : e.kind = .internal) (edge : childOf e b = some c) : Reach tm c

/-- R17 (a): the placeholder of an empty table. -/
def Placeholder (tm : Memory TMEntry) : Prop :=
  ∃ e, tm.read 0 = some e ∧ e.kind = .internal ∧ e.lv = false ∧ e.rv = false

/-- R17 (b): the synthetic root over one leaf. -/
def SyntheticRoot (p : Params) (tm : Memory TMEntry) : Prop :=
  ∃ e c, tm.read 0 = some e ∧ e.kind = .internal ∧ e.lv = true ∧ e.rv = false ∧ e.left ≠ 0 ∧ e.left < p.nnode ∧
    tm.read e.left = some c ∧ c.kind = .leaf

/-- R17 (c): the reachable nodes form a strict tree whose INTERNAL nodes have both children and whose leaves hold
pairwise distinct symbols. -/
structure GeneralTree (p : Params) (tm : Memory TMEntry) : Prop where
  root : ∃ e, tm.read 0 = some e ∧ e.kind = .internal
  nodes : ∀ n, Reach tm n →
    n < p.nnode ∧ ∃ e, tm.read n = some e ∧ (e.kind = .internal → e.lv = true ∧ e.rv = true)
  rootIsNoChild : ∀ n e b, Reach tm n → tm.read n = some e → e.kind = .internal → childOf e b ≠ some 0
  oneParentOneSide : ∀ m n e f b d c, Reach tm m → Reach tm n → tm.read m = some e → tm.read n = some f →
    e.kind = .internal → f.kind = .internal → childOf e b = some c → childOf f d = some c → m = n ∧ b = d
  symbolsDistinct : ∀ m n e f, Reach tm m → Reach tm n → tm.read m = some e → tm.read n = some f →
    e.kind = .leaf → f.kind = .leaf → e.sym = f.sym → m = n

/-- `WF_TM` in R17's words. The machine's check is `wfTM`. -/
def WfTM (p : Params) (tm : Memory TMEntry) : Prop := Placeholder tm ∨ SyntheticRoot p tm ∨ GeneralTree p tm

/-- `WF_CT` in R14's words. The machine's check is `wfCT`. -/
def WfCT (p : Params) (ct : Memory CTEntry) : Prop :=
  ∀ s e, ct.read s = some e → e.valid = true → 1 ≤ e.len ∧ e.len ≤ p.maxlen

/-- The node a bit path reaches from a node, `none` where the tree does not have that path (R18's `tree(TM)`). -/
def nodeAt (tm : Memory TMEntry) : NodeId → Bits → Option NodeId
  | n, [] => some n
  | n, b :: q =>
    match tm.read n with
    | none => none
    | some e =>
      match e.kind with
      | .leaf => none
      | .internal =>
        match childOf e b with
        | none => none
        | some c => nodeAt tm c q

/-- The symbol of the leaf that a bit path reaches from a node exactly at its end, `none` where there is none. The empty
path reaches the node itself, also where that is a LEAF (R88, R89). Where the path meets an entry never written since
reset, whose value the spec leaves open, there is no leaf: that is the model's choice (DESIGN CHOICE, log 24). -/
def leafAt (tm : Memory TMEntry) (n : NodeId) (q : Bits) : Option Sym :=
  match nodeAt tm n q with
  | none => none
  | some m =>
    match tm.read m with
    | none => none
    | some e =>
      match e.kind with
      | .leaf => some e.sym
      | .internal => none

/-- The INTERNAL node a bit path from the root reaches, where a walk can still stand at its end (R28). -/
def innerAt (tm : Memory TMEntry) (q : Bits) : Option TMEntry :=
  match nodeAt tm 0 q with
  | none => none
  | some m =>
    match tm.read m with
    | none => none
    | some e =>
      match e.kind with
      | .leaf => none
      | .internal => some e

/-- The bits are paths from the root to leaves, one after the other, and the symbols are those of the leaves. -/
def Decodes (tm : Memory TMEntry) (q : Bits) (out : List Sym) : Prop :=
  ∃ paths : List Bits, List.Forall₂ (fun path v => leafAt tm 0 path = some v) paths out ∧ paths.flatten = q

/-- `CONSISTENT(CT, TM)` (R18): `cw(s) = some q` exactly when `q` is the path from the root to a leaf that holds `s`. Of a tree with an entry never written see `leafAt` (log 24). -/
def Consistent (ct : Memory CTEntry) (tm : Memory TMEntry) : Prop :=
  ∀ s q, codeWord ct s = some q ↔ leafAt tm 0 q = some s

/-- Two TM entries agree on every field that is meaningful for their kind (R16). -/
def SameNode (e f : TMEntry) : Prop :=
  e.kind = f.kind ∧ (e.kind = .leaf → e.sym = f.sym) ∧ (e.kind = .internal → ∀ b, childOf e b = childOf f b)

/-- `IMAGE_OF(corpus)` (R185): the reachable part of TM and the valid part of CT are the table image of the corpus. -/
def ImageOf (corpus : List Sym) (s : State) : Prop :=
  (∀ n e, (imageTM (construct corpus).1).read n = some e → ∃ f, s.tm.read n = some f ∧ SameNode f e) ∧
    ∀ v, codeWord s.ct v = (construct corpus).2.read v

/-! ### Launch premises (R185) -/

/-- Every element below `n` has been written since reset. -/
def Memory.written {α : Type} (m : Memory α) (n : Nat) : Bool := (List.range n).all (fun i => (m.read i).isSome)

/-- `RESET_STATE`, of everything R39 gives a value. -/
def ResetState (s : State) : Prop :=
  s.gstat = { lock := false, illcmd := false, illacc := false } ∧ (∀ v, codeWord s.ct v = none) ∧ s.mlen = 0 ∧
    s.dlen = 0 ∧ s.enc.stat = .reset ∧ s.dec.stat = .reset ∧ s.enc.plen = 0 ∧ s.dec.slen = 0

/-- `MSG_WRITTEN`. -/
def MsgWritten (s : State) : Prop := s.mlen ≤ Config.hdrmax → s.msg.written s.mlen = true

/-- `DIN_WRITTEN`. -/
def DinWritten (s : State) : Prop := s.din.written s.dlen = true

/-- `NO_FLAG`. -/
def NoFlag (s : State) : Prop := s.gstat.illcmd = false ∧ s.gstat.illacc = false

/-- `QUIESCENT`. -/
def Quiescent (s : State) : Prop := s.enc.stat.isBusy = false ∧ s.dec.stat.isBusy = false

/-! ### The invariant -/

/-- The tables are canonical, inside their spaces, and of fitting entries (R11, R15, R16). -/
structure TablesInv (s : State) : Prop where
  ctWf : s.ct.wf = true
  ctFits : s.ct.all (fun x => decide (x.1 < s.params.nsym) && ctEntryFits s.params x.2) = true
  tmWf : s.tm.wf = true
  tmFits : s.tm.all (fun x => decide (x.1 < s.params.nnode) && tmEntryFits s.params x.2) = true

/-- The buffers are canonical, inside their spaces and of fitting elements, and the lengths fit their registers (R20 to
R23, R26, R32). -/
structure BuffersInv (s : State) : Prop where
  msgWf : s.msg.wf = true
  msgFits : s.msg.all (fun x => decide (x.1 < Config.msgcap) && decide (x.2 < s.params.nsym)) = true
  dinWf : s.din.wf = true
  dinFits : s.din.all (fun x => decide (x.1 < s.params.dincap)) = true
  payWf : s.enc.pay.wf = true
  payFits : s.enc.pay.all (fun x => decide (x.1 < s.params.paycap)) = true
  soutWf : s.dec.sout.wf = true
  soutFits : s.dec.sout.all (fun x => decide (x.1 < Config.soutcap) && decide (x.2 < s.params.nsym)) = true
  mlenFits : s.mlen < 2 ^ s.params.mlenw
  dlenFits : s.dlen ≤ s.params.dincap

/-- What holds of ENC's data path between CHK and the end of a call (R27): the bits produced so far are in
`PAY[1 .. E_wp-1]` and the `E_nb` low bits of `E_acc`, and they are at most `E_i` code words. -/
structure EncRunning (s : State) : Prop where
  msgLegal : s.mlen ≤ Config.hdrmax
  indexInMessage : s.enc.eI.toNat ≤ s.mlen
  atEnd : s.enc.ePh = .flush → s.enc.eI.toNat = s.mlen
  headerOut : 1 ≤ s.enc.eWp
  bitsBound : 8 * (s.enc.eWp - 1) + s.enc.eNb.toNat ≤ s.enc.eI.toNat * s.params.maxlen
  accClean : s.enc.eAcc.toNat < 2 ^ s.enc.eNb.toNat
  payWritten : s.enc.pay.written s.enc.eWp = true

/-- ENC's status, length and table (R29 to R31, R102, R154). -/
structure EncInv (s : State) : Prop where
  busyLocked : s.enc.stat.state = .busy → s.gstat.lock = true
  busyTable : s.enc.stat.state = .busy → wfCT s.params s.ct = true
  noError : s.enc.stat.state ≠ .error → s.enc.stat.err = .none ∧ s.enc.stat.info = 0
  ownError : s.enc.stat.state = .error → s.enc.stat.err = .unknownSymbol ∨ s.enc.stat.err = .messageTooLarge
  noLength : s.enc.stat.state ≠ .done → s.enc.plen = 0
  result : s.enc.stat.state = .done →
    1 ≤ s.enc.plen ∧ s.enc.plen ≤ s.params.paycap ∧ s.enc.pay.written s.enc.plen = true
  wpFits : s.enc.eWp ≤ s.params.paycap
  running : s.enc.stat.state = .busy → s.enc.ePh ≠ .chk → EncRunning s

/-- What holds of DEC's data path while it walks (R28): `D_node` is a reachable INTERNAL node. -/
structure DecRunning (s : State) : Prop where
  headerRead : 1 ≤ s.dlen
  countBound : s.dec.dCnt.toNat ≤ s.dec.dN.toNat
  bitBound : s.dec.dBp ≤ 8 * (s.dlen - 1)
  nodeReached : Reach s.tm s.dec.dNode
  nodeInternal : ∃ e, s.tm.read s.dec.dNode = some e ∧ e.kind = .internal
  soutWritten : s.dec.sout.written s.dec.dCnt.toNat = true

/-- DEC's status, length, table and pointers (R28, R33 to R35, R129, R154). -/
structure DecInv (s : State) : Prop where
  busyLocked : s.dec.stat.state = .busy → s.gstat.lock = true
  busyTable : s.dec.stat.state = .busy → wfTM s.params s.tm = true
  noError : s.dec.stat.state ≠ .error → s.dec.stat.err = .none ∧ s.dec.stat.info = 0
  ownError : s.dec.stat.state = .error →
    s.dec.stat.err = .emptyPayload ∨ s.dec.stat.err = .truncatedPayload ∨ s.dec.stat.err = .headerRange ∨
      s.dec.stat.err = .noChild
  noLength : s.dec.stat.state ≠ .done → s.dec.slen = 0
  result : s.dec.stat.state = .done → s.dec.slen.toNat ≤ Config.hdrmax ∧ s.dec.sout.written s.dec.slen.toNat = true
  bpFits : s.dec.dBp < 2 ^ (s.params.dlenw + 3)
  nodeFits : s.dec.dNode < 2 ^ s.params.nidw
  running : s.dec.stat.state = .busy → s.dec.dPh = .walk → DecRunning s

/-- The invariant: what the spec promises of every state a run reaches from reset. -/
structure State.Inv (s : State) : Prop where
  params : s.params.ok = true
  tables : TablesInv s
  buffers : BuffersInv s
  enc : EncInv s
  dec : DecInv s

/-! ### Illegal commands and accesses -/

/-- R163's list: the command words that are illegal in a state. -/
def State.illegalWord (s : State) (w : Nat) : Bool :=
  4 ≤ w || (w == 1 && s.gstat.lock) || (w == 2 && (!s.gstat.lock || s.enc.stat.isBusy)) ||
    (w == 3 && (!s.gstat.lock || s.dec.stat.isBusy))

/-- R164's list: the accesses that are illegal in a state. -/
def State.illegalAccess (s : State) : HostTxn → Bool
  | .writeCT _ _ => s.gstat.lock
  | .writeTM _ _ => s.gstat.lock
  | .writeBuf .msg _ _ => s.enc.stat.isBusy
  | .writeBuf .din _ _ => s.dec.stat.isBusy
  | .writeBuf .pay _ _ => true
  | .writeBuf .sout _ _ => true
  | .read _ _ => false
  | .writeReg .cmd _ => false
  | .writeReg .mlen _ => s.enc.stat.isBusy
  | .writeReg .dlen _ => s.dec.stat.isBusy
  | .writeReg .gstat _ => true
  | .writeReg .estat _ => true
  | .writeReg .einfo _ => true
  | .writeReg .plen _ => true
  | .writeReg .dstat _ => true
  | .writeReg .dinfo _ => true
  | .writeReg .slen _ => true
  | .readReg _ => false
  | .reset => false

/-- The code bits ENC has produced so far in a call: `unpackall(PAY[1 .. E_wp-1])` and then the `E_nb` low bits of
`E_acc`, most significant first (R27). -/
def Enc.produced (e : Enc) : Bits :=
  unpackall ((e.pay.window e.eWp).drop 1) ++ lowBits e.eAcc e.eNb.toNat

end Sys2Proof.Machine
end

