-- ==== Sys2Proof/Certificates/Slice0/Obligations.lean ====
section
/-! DEFINITION. The statements for the provers, each with the rule of the spec it comes from. -/

open Sys2Proof Sys2Proof.Machine

/-! ### Commands and their encoding -/

/-- R60's table: the four words select the four commands, and a word selects a command exactly when `w & mask = match`,
with the mask 0xFF and the word itself as match; that is exactly when its field `zero`, bits 7:2, is 000000. -/
def Obligations.OpcodeWordsSelectCommands : Prop :=
  (decode 0b00000000#8 = .command .nop ∧ decode 0b00000001#8 = .command .lock ∧
    decode 0b00000010#8 = .command .compress ∧ decode 0b00000011#8 = .command .decompress) ∧
  ∀ w : Byte,
    (decode w = .command .nop ↔ w &&& 0xFF#8 = 0x00#8) ∧ (decode w = .command .lock ↔ w &&& 0xFF#8 = 0x01#8) ∧
    (decode w = .command .compress ↔ w &&& 0xFF#8 = 0x02#8) ∧
    (decode w = .command .decompress ↔ w &&& 0xFF#8 = 0x03#8) ∧
    ((∃ i, decode w = .command i) ↔ w.extractLsb' 2 6 = 0b000000#6)

/-- Decoder and encoder agree in both directions (30_encoding.md section 1). -/
def Obligations.DecodeInvertsEncode : Prop :=
  ∀ (w : Byte) (i : Instr), decode w = .command i ↔ w = encode i

/-- R61: a reserved word changes nothing except that it sets ILLCMD, and every word is a command or reserved. -/
def Obligations.ReservedWordsOnlySetIllCmd : Prop :=
  ∀ w : Nat, w < 256 →
    (w < 4 → ∃ i, decode (BitVec.ofNat 8 w) = .command i) ∧
    (4 ≤ w → decode (BitVec.ofNat 8 w) = .reserved (BitVec.ofNat 8 w) ∧
      ∀ s : State, hostTxn (.writeReg .cmd w) s = .next { s with gstat := { s.gstat with illcmd := true } })

/-- A step runs the decoded command: when it is the HOST's turn and its next statement writes a command word, the step
is `exec` of that command on the state whose script and schedule have moved on (R24, R143). The second clause says the
same of the word that `withFetchWord` places: that this word is what the very next step performs is the model's choice
of how a program is loaded (DESIGN CHOICE, log 3). -/
def Obligations.StepRunsTheDecodedCommand : Prop :=
  ∀ (s : State) (w : Nat) (i : Instr), w < 256 → decode (BitVec.ofNat 8 w) = .command i →
    (∀ rest script, s.nextAgent = some (.host, rest) → s.script = .txn (.writeReg .cmd w) :: script →
      step s = exec i { s with sched := rest, script := script }) ∧
    ∀ n, step (s.withFetchWord n w) = exec i s

/-- R140: word 0x00 is NOP, and it changes no state, in either mode and whatever the units are doing. -/
def Obligations.NopChangesNothing : Prop :=
  decode 0x00#8 = .command .nop ∧ ∀ s : State, exec .nop s = .next s ∧ hostTxn (.writeReg .cmd 0x00) s = .next s

/-- LOCK (43_system.md): in CONFIG mode on well-formed tables it completes and goes to RUN, in RUN mode it is illegal
whatever the tables are, and R141's effect itself reads no table. In CONFIG mode on tables that lack `WF_CT` or `WF_TM`
the model refuses it. -/
def Obligations.LockEntersRunModeOnce : Prop :=
  ∀ s : State, s.ct.wf = true →
    (s.gstat.lock = false → WfCT s.params s.ct → WfTM s.params s.tm →
      exec .lock s = .next { s with gstat := { s.gstat with lock := true } }) ∧
    (s.gstat.lock = true → exec .lock s = .next { s with gstat := { s.gstat with illcmd := true } }) ∧
    (s.gstat.lock = false → ¬ (WfCT s.params s.ct ∧ WfTM s.params s.tm) → exec .lock s = .refused .illFormedLock) ∧
    (s.gstat.lock = false → lockEffect s = .next { s with gstat := { s.gstat with lock := true } }) ∧
    (s.gstat.lock = true → lockEffect s = .next { s with gstat := { s.gstat with illcmd := true } })

/-- R110: an accepted COMPRESS starts ENC as part of the same host transaction, and completes on every well-formed code
table. -/
def Obligations.AcceptedCompressStartsEnc : Prop :=
  ∀ s : State, s.gstat.lock = true → s.enc.stat.state ≠ .busy → s.ct.wf = true → WfCT s.params s.ct →
    let started : State :=
      { s with enc := { s.enc with stat := { state := .busy, err := .none, info := 0 }, plen := 0, ePh := .chk } }
    exec .compress s = .next started ∧ hostTxn (.writeReg .cmd 0x02) s = .next started

/-- R130: an accepted DECOMPRESS starts DEC as part of the same host transaction, and completes on every well-formed
trie. -/
def Obligations.AcceptedDecompressStartsDec : Prop :=
  ∀ s : State, s.gstat.lock = true → s.dec.stat.state ≠ .busy → WfTM s.params s.tm →
    let started : State :=
      { s with dec := { s.dec with stat := { state := .busy, err := .none, info := 0 }, slen := 0, dPh := .hdr } }
    exec .decompress s = .next started ∧ hostTxn (.writeReg .cmd 0x03) s = .next started

/-- A command is refused exactly where it would lock tables that are not well formed (43_system.md), or would start a
unit on a table that is not (41_compress.md, 42_decompress.md), and no command ends in a fault. -/
def Obligations.CommandsRefusedOnlyOnIllFormedTables : Prop :=
  ∀ (i : Instr) (s : State), s.ct.wf = true →
    (∀ r, exec i s = .refused r ↔
      (i = .lock ∧ s.gstat.lock = false ∧ ¬ (WfCT s.params s.ct ∧ WfTM s.params s.tm) ∧ r = .illFormedLock) ∨
      (i = .compress ∧ s.gstat.lock = true ∧ s.enc.stat.state ≠ .busy ∧ ¬ WfCT s.params s.ct ∧
        r = .illFormedCodeTable) ∨
      (i = .decompress ∧ s.gstat.lock = true ∧ s.dec.stat.state ≠ .busy ∧ ¬ WfTM s.params s.tm ∧
        r = .illFormedTrie)) ∧
    ∀ f, exec i s ≠ .fault f

/-- The frame of the four commands: every element of every space, both lengths, the parameters, ILLACC and the host side
are as before; LOCK changes only by LOCK; a unit's column only by its own command, and there only status, length and
phase. -/
def Obligations.CommandsLeaveTheRestUnchanged : Prop :=
  ∀ (i : Instr) (s t : State), exec i s = .next t →
    (∀ a, t.ct.read a = s.ct.read a ∧ t.tm.read a = s.tm.read a ∧ t.msg.read a = s.msg.read a ∧
      t.din.read a = s.din.read a ∧ t.enc.pay.read a = s.enc.pay.read a ∧ t.dec.sout.read a = s.dec.sout.read a) ∧
    t.mlen = s.mlen ∧ t.dlen = s.dlen ∧ t.params = s.params ∧ t.script = s.script ∧ t.sched = s.sched ∧
    t.replies = s.replies ∧ t.hostDraws = s.hostDraws ∧ t.gstat.illacc = s.gstat.illacc ∧
    (i ≠ .lock → t.gstat.lock = s.gstat.lock) ∧ (i = .nop → t.gstat = s.gstat) ∧
    (i ≠ .compress → t.enc = s.enc) ∧ (i ≠ .decompress → t.dec = s.dec) ∧
    t.enc = { s.enc with stat := t.enc.stat, plen := t.enc.plen, ePh := t.enc.ePh } ∧
    t.dec = { s.dec with stat := t.dec.stat, slen := t.dec.slen, dPh := t.dec.dPh }

/-! ### Flags, modes and status -/

/-- R163: exactly the listed command words set ILLCMD and do nothing else, and the flag stays until reset. -/
def Obligations.IllCmdIsSetExactlyByIllegalCommands : Prop :=
  (∀ (s : State) (w : Nat), w < 256 → s.illegalWord w = true →
    hostTxn (.writeReg .cmd w) s = .next { s with gstat := { s.gstat with illcmd := true } }) ∧
  ∀ s t : State, step s = .next t →
    (s.gstat.illcmd = false → t.gstat.illcmd = true →
      ∃ w, w < 256 ∧ s.nextTxn = some (.writeReg .cmd w) ∧ s.illegalWord w = true) ∧
    (s.gstat.illcmd = true → t.gstat.illcmd = true ∨ s.nextTxn = some .reset)

/-- R164: exactly the listed accesses set ILLACC and change nothing else, reads never do, and the flag stays until
reset. -/
def Obligations.IllAccIsSetExactlyByIllegalAccesses : Prop :=
  (∀ (s : State) (x : HostTxn), txnFits s.params x = true → s.illegalAccess x = true →
    hostTxn x s = .next { s with gstat := { s.gstat with illacc := true } }) ∧
  ∀ s t : State, step s = .next t →
    (s.gstat.illacc = false → t.gstat.illacc = true → ∃ x, s.nextTxn = some x ∧ s.illegalAccess x = true) ∧
    (s.gstat.illacc = true → t.gstat.illacc = true ∨ s.nextTxn = some .reset)

/-- The layout of ESTAT, DSTAT and GSTAT and the numbers of the states and errors (R25, R29, R72, R150). -/
def Obligations.StatusWordsHaveTheStatedLayout : Prop :=
  (∀ u : UnitStatus, u.word.extractLsb' 0 2 = u.state.code ∧ u.word.extractLsb' 2 3 = u.err.code ∧
    u.word.extractLsb' 5 3 = 0) ∧
  (∀ g : GStat, g.word.getLsbD 0 = g.lock ∧ g.word.getLsbD 1 = g.illcmd ∧ g.word.getLsbD 2 = g.illacc ∧
    g.word.extractLsb' 3 5 = 0) ∧
  (UnitState.idle.code = 0 ∧ UnitState.busy.code = 1 ∧ UnitState.done.code = 2 ∧ UnitState.error.code = 3) ∧
  ErrCode.none.code = 0 ∧ ErrCode.unknownSymbol.code = 1 ∧ ErrCode.messageTooLarge.code = 2 ∧
  ErrCode.emptyPayload.code = 3 ∧ ErrCode.truncatedPayload.code = 4 ∧ ErrCode.emptyAlphabet.code = 5 ∧
  ErrCode.headerRange.code = 6 ∧ ErrCode.noChild.code = 7

/-- R160: `raise E(info)` writes err, info and state of its own unit and nothing else, after it that unit has no step,
and a length that is 0 stays 0. -/
def Obligations.RaiseWritesOnlyTheUnitsStatus : Prop :=
  ∀ (s : State) (e : ErrCode) (info : Nat),
    s.encRaise e info =
      { s with enc := { s.enc with stat := { state := .error, err := e, info := BitVec.ofNat 16 info } } } ∧
    s.decRaise e info =
      { s with dec := { s.dec with stat := { state := .error, err := e, info := BitVec.ofNat 16 info } } } ∧
    (s.encRaise e info).enabled .enc = false ∧ (s.decRaise e info).enabled .dec = false ∧
    (EncInv s → s.enc.stat.state = .busy → (s.encRaise e info).enc.plen = 0) ∧
    (DecInv s → s.dec.stat.state = .busy → (s.decRaise e info).dec.slen = 0)

/-- R154: COMPRESS's unit raises only UnknownSymbolError and MessageTooLargeError, DECOMPRESS's only EmptyPayloadError,
TruncatedPayloadError, HeaderRangeError and NoChildError, neither touches the other's status, and NOP and LOCK raise
none. -/
def Obligations.EachUnitRaisesOnlyItsOwnErrors : Prop :=
  (∀ s t : State, s.enc.stat.state = .busy → encStep s = .next t → t.dec.stat = s.dec.stat ∧
    (t.enc.stat.state = .error → t.enc.stat.err = .unknownSymbol ∨ t.enc.stat.err = .messageTooLarge)) ∧
  (∀ s t : State, s.dec.stat.state = .busy → decStep s = .next t → t.enc.stat = s.enc.stat ∧
    (t.dec.stat.state = .error → t.dec.stat.err = .emptyPayload ∨ t.dec.stat.err = .truncatedPayload ∨
      t.dec.stat.err = .headerRange ∨ t.dec.stat.err = .noChild)) ∧
  ∀ s t : State, exec .nop s = .next t ∨ exec .lock s = .next t →
    t.enc.stat = s.enc.stat ∧ t.dec.stat = s.dec.stat

/-- R19: in RUN mode no entry of CT or TM changes until reset, and the mode itself is left only by reset. -/
def Obligations.TablesAreFrozenInRunMode : Prop :=
  ∀ s t : State, s.gstat.lock = true → step s = .next t → s.nextTxn ≠ some .reset →
    t.gstat.lock = true ∧ ∀ a, t.ct.read a = s.ct.read a ∧ t.tm.read a = s.tm.read a

/-! ### Reset -/

/-- R180, R181: Reset gives the values R39 states, whatever the units were doing: CONFIG mode, flags clear, both units
IDLE with length 0, and nothing written in any space; and no other step clears LOCK or a sticky flag. -/
def Obligations.ResetEventGivesTheStatedValues : Prop :=
  (∀ s : State, ∃ t, hostTxn .reset s = .next t ∧ ResetState t ∧
    t.enc.stat.word = 0 ∧ t.dec.stat.word = 0 ∧ t.gstat.word = 0 ∧ t.enc.stat.info = 0 ∧ t.dec.stat.info = 0 ∧
    ∀ a, t.ct.read a = none ∧ t.tm.read a = none ∧ t.msg.read a = none ∧ t.din.read a = none ∧
      t.enc.pay.read a = none ∧ t.dec.sout.read a = none) ∧
  ∀ s t : State, step s = .next t → s.nextTxn ≠ some .reset →
    (s.gstat.lock = true → t.gstat.lock = true) ∧ (s.gstat.illcmd = true → t.gstat.illcmd = true) ∧
      (s.gstat.illacc = true → t.gstat.illacc = true)

/-- What the Reset event leaves as it was: the parameters and the HOST's own side of the interface. The spec gives the
event no effect there; that these are kept is the model's choice (log 16). -/
def Obligations.ResetEventKeepsTheHostSide : Prop :=
  ∀ s t : State, hostTxn .reset s = .next t →
    t.params = s.params ∧ t.script = s.script ∧ t.sched = s.sched ∧ t.replies = s.replies ∧
      t.hostDraws = s.hostDraws ∧ t.enc.draws = s.enc.draws ∧ t.dec.draws = s.dec.draws

/-- The invariant holds after reset, for every legal choice of the parameters. That it holds of `E_wp`, `D_bp` and
`D_node` rests on the reset values the model gives them (DESIGN CHOICE, log 5): R39 calls them unspecified. -/
def Obligations.InvariantHoldsAtReset : Prop :=
  ∀ p : Params, p.ok = true → (State.resetWith p).Inv ∧ ResetState (State.resetWith p)

/-! ### The step and its agents -/

/-- Every step keeps the invariant: the spaces stay canonical and inside their bounds, registers keep to their widths,
a BUSY unit is in RUN mode on a well-formed table, its data path is as R27 and R28 say, a length is 0 unless the call is
DONE, and the error fields are as R29 to R34 say. -/
def Obligations.EveryStepKeepsTheInvariant : Prop := ∀ s t : State, s.Inv → step s = .next t → t.Inv

/-- No step from a state of the invariant ends in a fault, and a BUSY unit always has a step to take (R114, R134). -/
def Obligations.NoStepFaultsAndNoUnitIsStuck : Prop :=
  ∀ s : State, s.Inv → (∀ f, step s ≠ .fault f) ∧
    (s.enc.stat.state = .busy → ∃ t, encStep s = .next t) ∧ (s.dec.stat.state = .busy → ∃ t, decStep s = .next t)

/-- The run is over exactly when the script is and neither unit is BUSY (R194); then a step changes nothing (R182;
that it is a step at all is log 14). -/
def Obligations.RunIsOverExactlyWhenQuiescent : Prop :=
  ∀ s : State, (s.nextAgent = none ↔ s.script = [] ∧ Quiescent s) ∧ (s.nextAgent = none → step s = .next s)

/-- Any interleaving is a run: whichever agent has a step to take, a schedule that names it makes it the one that moves
(R50, R170; the schedule as data is log 2). -/
def Obligations.AnyEnabledAgentMayMoveNext : Prop :=
  ∀ (s : State) (rest : List Agent),
    (s.script ≠ [] → step { s with sched := .host :: rest } = hostStep { s with sched := rest }) ∧
    (s.enc.stat.state = .busy → step { s with sched := .enc :: rest } = encStep { s with sched := rest }) ∧
    (s.dec.stat.state = .busy → step { s with sched := .dec :: rest } = decStep { s with sched := rest })

/-- R10's columns: a unit's step writes its own column and its schedule entry only. A host transaction but Reset writes
ENC's column only by an accepted COMPRESS and DEC's only by an accepted DECOMPRESS, each as R110 and R130 say, a table
only by a write to it in CONFIG mode, an input buffer or length only by a write to it while its unit is not BUSY, and
LOCK only by the LOCK command. -/
def Obligations.AgentsWriteOnlyTheirColumn : Prop :=
  ∀ s t : State, step s = .next t →
    (∀ rest, s.nextAgent = some (.enc, rest) → t = { s with enc := t.enc, sched := rest }) ∧
    (∀ rest, s.nextAgent = some (.dec, rest) → t = { s with dec := t.dec, sched := rest }) ∧
    (∀ rest, s.nextAgent = some (.host, rest) → s.nextTxn ≠ some .reset →
      t.sched = rest ∧ t.params = s.params ∧
      (t.enc = s.enc ∨ (s.nextTxn = some (.writeReg .cmd 0x02) ∧ s.gstat.lock = true ∧ s.enc.stat.state ≠ .busy ∧
        t.enc = { s.enc with stat := { state := .busy, err := .none, info := 0 }, plen := 0, ePh := .chk })) ∧
      (t.dec = s.dec ∨ (s.nextTxn = some (.writeReg .cmd 0x03) ∧ s.gstat.lock = true ∧ s.dec.stat.state ≠ .busy ∧
        t.dec = { s.dec with stat := { state := .busy, err := .none, info := 0 }, slen := 0, dPh := .hdr })) ∧
      (t.ct = s.ct ∨ (s.gstat.lock = false ∧ ∃ v e, s.nextTxn = some (.writeCT v e))) ∧
      (t.tm = s.tm ∨ (s.gstat.lock = false ∧ ∃ n e, s.nextTxn = some (.writeTM n e))) ∧
      (t.msg = s.msg ∨ (s.enc.stat.state ≠ .busy ∧ ∃ i v, s.nextTxn = some (.writeBuf .msg i v))) ∧
      (t.mlen = s.mlen ∨ (s.enc.stat.state ≠ .busy ∧ ∃ v, s.nextTxn = some (.writeReg .mlen v))) ∧
      (t.din = s.din ∨ (s.dec.stat.state ≠ .busy ∧ ∃ i v, s.nextTxn = some (.writeBuf .din i v))) ∧
      (t.dlen = s.dlen ∨ (s.dec.stat.state ≠ .busy ∧ ∃ v, s.nextTxn = some (.writeReg .dlen v))) ∧
      (t.gstat.lock = s.gstat.lock ∨ s.nextTxn = some (.writeReg .cmd 0x01)))

/-- R51: steps of ENC and steps of DEC commute. -/
def Obligations.UnitStepsCommute : Prop :=
  ∀ s e d : State, encStep s = .next e → decStep s = .next d →
    ∃ u, decStep e = .next u ∧ encStep d = .next u

/-- What a unit reads (R1, R51): a step of ENC is the same whatever TM, DIN, DLEN, DEC's column and GSTAT hold, and a
step of DEC the same whatever CT, MSG, MLEN, ENC's column and GSTAT hold. -/
def Obligations.UnitsReadOnlyTheirInputs : Prop :=
  (∀ (s t : State) (tm : Memory TMEntry) (din : Memory Byte) (dlen : Nat) (dec : Dec) (g : GStat),
    encStep s = .next t →
      encStep { s with tm := tm, din := din, dlen := dlen, dec := dec, gstat := g } =
        .next { t with tm := tm, din := din, dlen := dlen, dec := dec, gstat := g }) ∧
  ∀ (s t : State) (ct : Memory CTEntry) (msg : Memory Sym) (mlen : Nat) (enc : Enc) (g : GStat),
    decStep s = .next t →
      decStep { s with ct := ct, msg := msg, mlen := mlen, enc := enc, gstat := g } =
        .next { t with ct := ct, msg := msg, mlen := mlen, enc := enc, gstat := g }

/-- R188: while a unit is BUSY its input buffer and length register do not change, and a HOST write to one of them is
dropped and sets ILLACC. -/
def Obligations.InputsAreProtectedWhileBusy : Prop :=
  (∀ s t : State, step s = .next t → s.nextTxn ≠ some .reset →
    (s.enc.stat.state = .busy → t.mlen = s.mlen ∧ ∀ a, t.msg.read a = s.msg.read a) ∧
    (s.dec.stat.state = .busy → t.dlen = s.dlen ∧ ∀ a, t.din.read a = s.din.read a)) ∧
  ∀ (s : State) (x : HostTxn), txnFits s.params x = true →
    (s.enc.stat.state = .busy → ((∃ i v, x = .writeBuf .msg i v) ∨ ∃ v, x = .writeReg .mlen v) →
      hostTxn x s = .next { s with gstat := { s.gstat with illacc := true } }) ∧
    (s.dec.stat.state = .busy → ((∃ i v, x = .writeBuf .din i v) ∨ ∃ v, x = .writeReg .dlen v) →
      hostTxn x s = .next { s with gstat := { s.gstat with illacc := true } })

/-- Nothing but reset disturbs a running call: in any step of the machine a BUSY unit's column either stays as it is or
takes exactly the unit's own step. -/
def Obligations.NothingDisturbsARunningCall : Prop :=
  ∀ s t : State, step s = .next t → s.nextTxn ≠ some .reset →
    (s.enc.stat.state = .busy → t.enc = s.enc ∨ ∃ u, encStep s = .next u ∧ t.enc = u.enc) ∧
    (s.dec.stat.state = .busy → t.dec = s.dec ∨ ∃ u, decStep s = .next u ∧ t.dec = u.dec)

/-! ### Host transactions -/

/-- A transaction whose index is outside its space, or whose value does not fit its element, is refused (20_memory.md
section 1). That a CT record whose `len` is above `MAXLEN` does not fit, and that a value too wide for CMD, for a
read-only register or for an output buffer is refused as well, is the model's reading (DEDUCED, log 13). -/
def Obligations.TransactionsOutsideTheBlockAreRefused : Prop :=
  ∀ (s : State) (i v : Nat) (e : CTEntry) (n : TMEntry) (b : Buffer) (x : Space) (r : Reg),
    (s.params.nsym ≤ i ∨ s.params.maxlen < e.len → hostTxn (.writeCT i e) s = .refused .notATransaction) ∧
    (s.params.nnode ≤ i ∨ 2 ^ s.params.symw ≤ n.sym ∨ 2 ^ s.params.nidw ≤ n.left ∨ 2 ^ s.params.nidw ≤ n.right →
      hostTxn (.writeTM i n) s = .refused .notATransaction) ∧
    (bufferSize s.params b ≤ i ∨ 2 ^ bufferWidth s.params b ≤ v →
      hostTxn (.writeBuf b i v) s = .refused .notATransaction) ∧
    (spaceSize s.params x ≤ i → hostTxn (.read x i) s = .refused .notATransaction) ∧
    (2 ^ regWidth s.params r ≤ v → hostTxn (.writeReg r v) s = .refused .notATransaction)

/-- A write that is honoured stores its one element and changes nothing else (R12, R16, R20, R22, R26, R32, R45). -/
def Obligations.HonouredWritesStoreOneElement : Prop :=
  ∀ (s : State) (i v : Nat) (e : CTEntry) (n : TMEntry),
    (s.gstat.lock = false → txnFits s.params (.writeCT i e) = true →
      ∃ ct, hostTxn (.writeCT i e) s = .next { s with ct := ct } ∧ ct.read i = some e ∧
        ∀ a, a ≠ i → ct.read a = s.ct.read a) ∧
    (s.gstat.lock = false → txnFits s.params (.writeTM i n) = true →
      ∃ tm, hostTxn (.writeTM i n) s = .next { s with tm := tm } ∧ tm.read i = some n ∧
        ∀ a, a ≠ i → tm.read a = s.tm.read a) ∧
    (s.enc.stat.state ≠ .busy → txnFits s.params (.writeBuf .msg i v) = true →
      ∃ msg, hostTxn (.writeBuf .msg i v) s = .next { s with msg := msg } ∧ msg.read i = some v ∧
        ∀ a, a ≠ i → msg.read a = s.msg.read a) ∧
    (s.dec.stat.state ≠ .busy → txnFits s.params (.writeBuf .din i v) = true →
      ∃ din, hostTxn (.writeBuf .din i v) s = .next { s with din := din } ∧
        (∃ w, din.read i = some w ∧ w.toNat = v) ∧ ∀ a, a ≠ i → din.read a = s.din.read a) ∧
    (s.enc.stat.state ≠ .busy → v < 2 ^ s.params.mlenw → hostTxn (.writeReg .mlen v) s = .next { s with mlen := v }) ∧
    (s.dec.stat.state ≠ .busy → v < 2 ^ s.params.dlenw → hostTxn (.writeReg .dlen v) s = .next { s with dlen := v })

/-- No read has a side effect (R47): it returns one value to the HOST and changes nothing of the block, not even the
sticky flags. -/
def Obligations.HostReadsHaveNoSideEffect : Prop :=
  ∀ (s : State) (x : HostTxn), txnFits s.params x = true → ((∃ a i, x = .read a i) ∨ ∃ r, x = .readReg r) →
    ∃ v t, hostTxn x s = .next t ∧ t = { s with replies := v :: s.replies, hostDraws := t.hostDraws }

/-- A read returns the element or register as it stands: written entries of CT, TM, MSG and DIN, the payload byte and
the symbol in the window of a DONE call (R21, R23), and the value of every readable register (R144). A CT entry that no
write has reached since reset reads with `valid = 0` (R39). -/
def Obligations.HostReadsReturnTheCurrentValue : Prop :=
  ∀ (s : State) (i : Nat),
    (∀ e, s.ct.read i = some e → readElement .ct i s = s.reply (.ct i e)) ∧
    (s.ct.read i = none → ∃ e, e.valid = false ∧ (readElement .ct i s).replies = .ct i e :: s.replies) ∧
    (∀ e, s.tm.read i = some e → readElement .tm i s = s.reply (.tm i e)) ∧
    (∀ v, s.msg.read i = some v → readElement (.buf .msg) i s = s.reply (.elem .msg i v)) ∧
    (∀ v, s.din.read i = some v → readElement (.buf .din) i s = s.reply (.elem .din i v.toNat)) ∧
    (∀ v, s.enc.stat.state = .done → i < s.enc.plen → s.enc.pay.read i = some v →
      readElement (.buf .pay) i s = s.reply (.elem .pay i v.toNat)) ∧
    (∀ v, s.dec.stat.state = .done → i < s.dec.slen.toNat → s.dec.sout.read i = some v →
      readElement (.buf .sout) i s = s.reply (.elem .sout i v)) ∧
    readRegister .gstat s = s.reply (.reg .gstat s.gstat.word.toNat) ∧
    readRegister .mlen s = s.reply (.reg .mlen s.mlen) ∧
    readRegister .estat s = s.reply (.reg .estat s.enc.stat.word.toNat) ∧
    readRegister .einfo s = s.reply (.reg .einfo s.enc.stat.info.toNat) ∧
    readRegister .plen s = s.reply (.reg .plen s.enc.plen) ∧
    readRegister .dlen s = s.reply (.reg .dlen s.dlen) ∧
    readRegister .dstat s = s.reply (.reg .dstat s.dec.stat.word.toNat) ∧
    readRegister .dinfo s = s.reply (.reg .dinfo s.dec.stat.info.toNat) ∧
    readRegister .slen s = s.reply (.reg .slen s.dec.slen.toNat)

/-- A call that has not ended in DONE has no result (41_compress.md section 4, 42_decompress.md section 3): its length is
0. What a HOST then reads from its output buffer is unspecified there; that it does not depend on what the steps have
written is the model's reading of that (DEDUCED, log 7). -/
def Obligations.UnfinishedCallsHaveNoResult : Prop :=
  ∀ (s : State) (j : Nat) (pay : Memory Byte) (sout : Memory Sym), s.Inv →
    (s.enc.stat.state ≠ .done → s.enc.plen = 0 ∧
      (readElement (.buf .pay) j { s with enc := { s.enc with pay := pay } }).replies =
        (readElement (.buf .pay) j s).replies) ∧
    (s.dec.stat.state ≠ .done → s.dec.slen = 0 ∧
      (readElement (.buf .sout) j { s with dec := { s.dec with sout := sout } }).replies =
        (readElement (.buf .sout) j s).replies)

/-! ### Packing -/

/-- R6: `pack8` is the stated sum and `unpack8` lists bit 7 first, the two are inverse to each other, and `packall` and
`unpackall` work byte by byte and are inverse to each other too. -/
def Obligations.PackingPrimitivesAreInverse : Prop :=
  (∀ v : Byte, pack8 (unpack8 v) = v) ∧
  (∀ q : Bits, q.length = 8 → unpack8 (pack8 q) = q) ∧
  (∀ b0 b1 b2 b3 b4 b5 b6 b7 : Bool, (pack8 [b0, b1, b2, b3, b4, b5, b6, b7]).toNat =
    b0.toNat * 128 + b1.toNat * 64 + b2.toNat * 32 + b3.toNat * 16 + b4.toNat * 8 + b5.toNat * 4 + b6.toNat * 2 +
      b7.toNat) ∧
  (∀ v : Byte, ∀ k < 8, (unpack8 v)[k]? = some (v.getLsbD (7 - k)) ∧ (unpack8 v).length = 8) ∧
  (packall [] = [] ∧ ∀ q r : Bits, q.length = 8 → packall (q ++ r) = pack8 q :: packall r) ∧
  (unpackall [] = [] ∧ ∀ (v : Byte) (bs : List Byte), unpackall (v :: bs) = unpack8 v ++ unpackall bs) ∧
  (∀ q : Bits, q.length % 8 = 0 → unpackall (packall q) = q ∧ (packall q).length = q.length / 8) ∧
  ∀ bs : List Byte, packall (unpackall bs) = bs

/-- R65: bit `k` of the code bits is bit `7 - (k mod 8)` of byte `1 + (k div 8)` of the payload. -/
def Obligations.CodeBitsStandWhereTheFormatSays : Prop :=
  ∀ (n : Nat) (q : Bits) (k : Nat) (b : Bool), q[k]? = some b →
    ∃ v, (payloadOf n q)[1 + k / 8]? = some v ∧ v.getLsbD (7 - k % 8) = b

/-- R66, R67: 0 to 7 zero bits complete the last byte, none where the bits are already a multiple of 8, and the payload
has `1 + ceil(L / 8)` bytes, at least 1 and at most PAYCAP for a legal message. -/
def Obligations.PaddingAndLengthAreAsTheFormatSays : Prop :=
  ∀ (n : Nat) (q : Bits),
    unpackall ((payloadOf n q).drop 1) = q ++ zeros (padLen q.length) ∧
    padLen q.length = (8 - q.length % 8) % 8 ∧ padLen q.length ≤ 7 ∧
    (q.length % 8 = 0 → padLen q.length = 0) ∧
    (payloadOf n q).length = 1 + (q.length + padLen q.length) / 8 ∧
    (payloadOf n q).length = 1 + (q.length + 7) / 8 ∧ 1 ≤ (payloadOf n q).length ∧
    ∀ p : Params, q.length ≤ p.paybits → (payloadOf n q).length ≤ p.paycap

/-- The invariant between ENC's steps that R27 states: a push makes the bit sequence produced so far longer by its
bit. -/
def Obligations.PushAppendsOneBit : Prop :=
  ∀ (e : Enc) (b : Bool), 1 ≤ e.eWp → e.pay.written e.eWp = true → e.eAcc.toNat < 2 ^ e.eNb.toNat →
    (encPush e b).produced = e.produced ++ [b]

/-- Step SYM (41_compress.md section 4): one step handles one whole symbol, whose code word it appends to the bits
produced so far, and moves to the next symbol. -/
def Obligations.SymbolStepAppendsTheCodeWord : Prop :=
  ∀ (s : State) (v : Sym) (q : Bits), s.enc.stat.state = .busy → s.enc.ePh = .sym → EncRunning s →
    wfCT s.params s.ct = true → s.enc.eI.toNat ≠ s.mlen → s.msg.read s.enc.eI.toNat = some v →
    codeWord s.ct v = some q →
    ∃ t, encStep s = .next t ∧ t.enc.produced = s.enc.produced ++ q ∧ t.enc.eI.toNat = s.enc.eI.toNat + 1 ∧
      t.enc.stat = s.enc.stat ∧ t.enc.ePh = .sym ∧ EncRunning t

/-! ### Whole calls -/

/-- The result of COMPRESS, error by error (41_compress.md section 2): a message that is too long fails first, then the
first symbol that is absent fails, and otherwise the payload is the header and the code words in message order. -/
def Obligations.CompressResultIsCharacterised : Prop :=
  ∀ (mlen : Nat) (msg : List Sym) (cw : Sym → Option Bits), msg.length = mlen →
    (∀ i, compress mlen msg cw = .error .messageTooLarge i ↔ 127 < mlen ∧ i = mlen % 65536) ∧
    (∀ i, compress mlen msg cw = .error .unknownSymbol i ↔
      mlen ≤ 127 ∧ (∃ v, msg[i]? = some v ∧ cw v = none) ∧ ∀ j < i, ∃ v, msg[j]? = some v ∧ cw v ≠ none) ∧
    (∀ P, compress mlen msg cw = .ok P ↔
      mlen ≤ 127 ∧ (∀ v ∈ msg, cw v ≠ none) ∧ P = payloadOf mlen (msg.flatMap (fun v => (cw v).getD [])))

/-- The result of DECOMPRESS on a well-formed trie, case by case (42_decompress.md section 2). EmptyPayloadError exactly
for no bytes, HeaderRangeError exactly for a header above 127. A result exactly where the packed bits begin with
root-to-leaf paths of the header's number, and then their symbols. TruncatedPayloadError exactly where fewer paths use
up the bits but for a rest that stops at an INTERNAL node, NoChildError exactly where after fewer paths a bit selects a
child that is absent, each with the number of paths; and NoChildError only on a placeholder or a synthetic root. -/
def Obligations.DecompressResultIsCharacterised : Prop :=
  ∀ (p : Params) (tm : Memory TMEntry), WfTM p tm →
    (∀ bs i, decompress bs tm = .error .emptyPayload i ↔ bs = [] ∧ i = 0) ∧
    (∀ bs i, decompress bs tm = .error .headerRange i ↔
      ∃ h packed, bs = h :: packed ∧ 127 < h.toNat ∧ i = h.toNat) ∧
    (∀ h packed out, decompress (h :: packed) tm = .ok out ↔
      h.toNat ≤ 127 ∧ out.length = h.toNat ∧ ∃ q rest, unpackall packed = q ++ rest ∧ Decodes tm q out) ∧
    (∀ h packed i, decompress (h :: packed) tm = .error .truncatedPayload i ↔
      h.toNat ≤ 127 ∧ i < h.toNat ∧ ∃ q out rest, unpackall packed = q ++ rest ∧ Decodes tm q out ∧ out.length = i ∧
        ∃ e, innerAt tm rest = some e) ∧
    (∀ h packed i, decompress (h :: packed) tm = .error .noChild i ↔
      h.toNat ≤ 127 ∧ i < h.toNat ∧ ∃ q out part b rest, unpackall packed = q ++ part ++ b :: rest ∧
        Decodes tm q out ∧ out.length = i ∧ ∃ e, innerAt tm part = some e ∧ childOf e b = none) ∧
    (∀ h packed i, decompress (h :: packed) tm = .error .noChild i → Placeholder tm ∨ SyntheticRoot p tm) ∧
    ∀ bs, decompress bs tm ≠ .undef

/-- The empty message and the empty payload content (R109, R137): `compress("")` is the single byte 0 and
`decompress([0])` is the empty sequence, against any tables. -/
def Obligations.EmptyMessageIsTheByteZero : Prop :=
  (∀ cw, compress 0 [] cw = .ok [0x00#8]) ∧ ∀ tm, decompress [0x00#8] tm = .ok []

/-- DEC stops by count (R68, R126): once the walk over some bits has given the header's symbols, whatever bits follow,
padding or whole bytes, the call gives the same symbols. -/
def Obligations.TrailingBitsAreNeverTraversed : Prop :=
  ∀ (tm : Memory TMEntry) (h : Byte) (packed : List Byte) (q rest : Bits) (out : List Sym), h.toNat ≤ 127 →
    unpackall packed = q ++ rest → walkBits tm h.toNat q 0 0 [] = .ok out → decompress (h :: packed) tm = .ok out

/-- Every accepted call ends, whatever is in its input buffer, also where elements were never written and are drawn: in
DONE or ERROR, after at most the steps of 70_reset_and_hazards.md section 5, and exactly one for a message over 127. -/
def Obligations.EveryAcceptedCallEnds : Prop :=
  ∀ s : State, s.Inv → s.gstat.lock = true →
    (s.enc.stat.state ≠ .busy → WfCT s.params s.ct →
      ∃ u k t, exec .compress s = .next u ∧ runUnit encStep k u = .next t ∧ k ≤ s.mlen + 3 ∧ (127 < s.mlen → k = 1) ∧
        (t.enc.stat.state = .done ∨ t.enc.stat.state = .error)) ∧
    (s.dec.stat.state ≠ .busy → WfTM s.params s.tm →
      ∃ u k t, exec .decompress s = .next u ∧ runUnit decStep k u = .next t ∧ k ≤ 8 * (s.dlen - 1) + 2 ∧
        (t.dec.stat.state = .done ∨ t.dec.stat.state = .error))

/-- R101 and R114: an accepted COMPRESS call on written symbols ends, after at most `MLEN + 3` steps of ENC (exactly one
when `MLEN > 127`), in the state that `compress(MLEN, MSG, cw)` gives, with everything outside ENC's column unchanged,
and then ENC has no step to take. -/
def Obligations.CompressCallEndsInTheBigStepResult : Prop :=
  ∀ s : State, s.Inv → s.gstat.lock = true → s.enc.stat.state ≠ .busy → WfCT s.params s.ct → MsgWritten s →
    ∃ u k t, exec .compress s = .next u ∧ runUnit encStep k u = .next t ∧
      k ≤ s.mlen + 3 ∧ (127 < s.mlen → k = 1) ∧
      t = { s with enc := t.enc } ∧ t.enabled .enc = false ∧
      match compress s.mlen (s.msg.window s.mlen) (codeWord s.ct) with
      | .ok P => t.enc.stat = { state := .done, err := .none, info := 0 } ∧ t.enc.plen = P.length ∧
          ∀ j < P.length, t.enc.pay.read j = P[j]?
      | .error e info =>
          t.enc.stat = { state := .error, err := e, info := BitVec.ofNat 16 info } ∧ t.enc.plen = 0
      | .undef => False

/-- R121 and R134: an accepted DECOMPRESS call on written bytes ends, after at most `8 * (DLEN - 1) + 2` steps of DEC,
in the state that `decompress(DLEN, DIN, TM)` gives, with everything outside DEC's column unchanged, and then DEC has no
step to take. -/
def Obligations.DecompressCallEndsInTheBigStepResult : Prop :=
  ∀ s : State, s.Inv → s.gstat.lock = true → s.dec.stat.state ≠ .busy → WfTM s.params s.tm → DinWritten s →
    ∃ u k t, exec .decompress s = .next u ∧ runUnit decStep k u = .next t ∧
      k ≤ 8 * (s.dlen - 1) + 2 ∧
      t = { s with dec := t.dec } ∧ t.enabled .dec = false ∧
      match decompress (s.din.window s.dlen) s.tm with
      | .ok out => t.dec.stat = { state := .done, err := .none, info := 0 } ∧ t.dec.slen.toNat = out.length ∧
          ∀ j < out.length, t.dec.sout.read j = out[j]?
      | .error e info =>
          t.dec.stat = { state := .error, err := e, info := BitVec.ofNat 16 info } ∧ t.dec.slen = 0 ∧
            ((e = .emptyPayload ∨ e = .headerRange) → k = 1)
      | .undef => False

/-- R136, the round-trip law, on the machine: tables that are well formed and consistent, a COMPRESS call that ends
DONE, and a DECOMPRESS call with the header and the code bits of its payload, at least as many bytes, and anything in
the padding and in the bytes after it, ends DONE with the message. -/
def Obligations.DecompressInvertsCompress : Prop :=
  ∀ (s u t d : State) (k : Nat), s.Inv → s.gstat.lock = true → s.enc.stat.state ≠ .busy →
    WfCT s.params s.ct → WfTM s.params s.tm → Consistent s.ct s.tm → MsgWritten s →
    exec .compress s = .next u → runUnit encStep k u = .next t → t.enc.stat.state = .done →
    d.Inv → d.params = s.params → d.tm = s.tm → d.gstat.lock = true → d.dec.stat.state ≠ .busy → DinWritten d →
    t.enc.plen ≤ d.dlen → d.din.read 0 = t.enc.pay.read 0 →
    (∀ p, p < ((s.msg.window s.mlen).flatMap (fun v => (codeWord s.ct v).getD [])).length →
      ∃ a b, d.din.read (1 + p / 8) = some a ∧ t.enc.pay.read (1 + p / 8) = some b ∧ bitAt a p = bitAt b p) →
    ∃ v j w, exec .decompress d = .next v ∧ runUnit decStep j v = .next w ∧
      w.dec.stat = { state := .done, err := .none, info := 0 } ∧ w.dec.slen.toNat = s.mlen ∧
      ∀ i < s.mlen, w.dec.sout.read i = s.msg.read i

/-! ### Tables and CONSTRUCT -/

/-- The launch check of TM is R17's `WF_TM`, and that of CT R14's `WF_CT`. -/
def Obligations.TableChecksDecideWellFormedness : Prop :=
  (∀ (p : Params) (tm : Memory TMEntry), wfTM p tm = true ↔ WfTM p tm) ∧
  ∀ (p : Params) (ct : Memory CTEntry), ct.wf = true → (wfCT p ct = true ↔ WfCT p ct)

/-- R81: `count` sends each symbol that occurs to the exact number of its occurrences and has no entry for any other. -/
def Obligations.CountIsExact : Prop :=
  ∀ (corpus : List Sym) (s : Sym),
    (count corpus).read s = (if s ∈ corpus then some (corpus.count s) else none) ∧ (count corpus).wf = true

/-- R85, R86: the empty table gives the placeholder, against which no non-empty message and no symbol count above 0 has
a result, and a table of one symbol, with a count that `count` can give, gives the synthetic root and the code word "0";
so do the corpora. -/
def Obligations.DegenerateCorporaHaveTheirOwnTries : Prop :=
  build [] = .internal 0 .absent .absent ∧
  (∀ msg : List Sym, msg ≠ [] → msg.length ≤ 127 →
    compress msg.length msg (codeWord (imageCT (derive (build [])))) = .error .unknownSymbol 0) ∧
  (∀ (h : Byte) (packed : List Byte), 0 < h.toNat → h.toNat ≤ 127 →
    decompress (h :: packed) (imageTM (build [])) =
      .error (if packed = [] then .truncatedPayload else .noChild) 0) ∧
  (∀ (s : Sym) (c : Nat), 1 ≤ c → build [(s, c)] = .internal c (.leaf s c) .absent ∧ derive (build [(s, c)]) = [(s, [false])]) ∧
  construct [] = (.internal 0 .absent .absent, []) ∧
  ∀ (s : Sym) (n : Nat), construct (List.replicate (n + 1) s) =
    (.internal (n + 1) (.leaf s (n + 1)) .absent, [(s, [false])])

/-- The root's weight is the length of the corpus (40_construct.md section 3). -/
def Obligations.RootWeightIsTheCorpusLength : Prop :=
  ∀ corpus : List Sym, trieWeight (construct corpus).1 = corpus.length

/-- The map of a corpus has exactly the corpus's symbols, code words of length 1 to `max(1, n - 1)` for `n` symbols, and
no code word is a beginning of another (40_construct.md section 4). -/
def Obligations.CodeOfACorpusIsPrefixFree : Prop :=
  ∀ (corpus : List Sym),
    (∀ s, (∃ q, (construct corpus).2.read s = some q) ↔ s ∈ corpus) ∧
    (∀ s q, (construct corpus).2.read s = some q →
      1 ≤ q.length ∧ q.length ≤ max 1 ((count corpus).length - 1)) ∧
    ∀ a b qa qb, a ≠ b → (construct corpus).2.read a = some qa → (construct corpus).2.read b = some qb → ¬ qa <+: qb

/-- The table image of a corpus whose symbols fit is well formed and consistent (40_construct.md section 5). -/
def Obligations.TableImageIsWellFormedAndConsistent : Prop :=
  ∀ (p : Params) (corpus : List Sym), p.ok = true → (∀ s ∈ corpus, s < p.nsym) →
    WfTM p (imageTM (construct corpus).1) ∧ WfCT p (imageCT (construct corpus).2) ∧
      Consistent (imageCT (construct corpus).2) (imageTM (construct corpus).1)

/-- The load sequence (40_construct.md section 5): from reset, the table writes of a corpus's image and LOCK, one step
each, leave the block in RUN mode with that image in CT and TM and nothing else changed. -/
def Obligations.LoadSequenceMakesTheCodecOfTheCorpus : Prop :=
  ∀ (p : Params) (corpus : List Sym), p.ok = true → (∀ s ∈ corpus, s < p.nsym) →
    ∃ t, runUnit step (stConstruct corpus).length { State.resetWith p with script := stConstruct corpus } = .next t ∧
      t = { State.resetWith p with
              gstat := { lock := true, illcmd := false, illacc := false }, ct := t.ct, tm := t.tm } ∧
      ImageOf corpus t ∧ t.tm = imageTM (construct corpus).1 ∧ t.ct = imageCT (construct corpus).2

/-! ### Further statements -/

/-- A table entry with count 0 gets a leaf like any other, in a table of any size. The spec leaves this open (N26) and no
table that `count` gives has such an entry: it is the model's choice (DESIGN CHOICE, log 23), and no rule. -/
def Obligations.ZeroCountEntryGetsALeaf : Prop :=
  (∀ s : Sym, build [(s, 0)] = .internal 0 (.leaf s 0) .absent ∧ derive (build [(s, 0)]) = [(s, [false])]) ∧
  ∀ (table : Memory Nat) (s : Sym), table.wf = true → table.read s = some 0 →
    ∃ q, (derive (build table)).read s = some q

/-- A finished call is stable (R144): in any step but reset, the column of a unit that is not BUSY stays exactly as it
is unless the step performs an accepted command for that unit. -/
def Obligations.FinishedCallIsStable : Prop :=
  ∀ s t : State, step s = .next t → s.nextTxn ≠ some .reset →
    (s.enc.stat.state ≠ .busy → ¬ (s.nextTxn = some (.writeReg .cmd 0x02) ∧ s.gstat.lock = true) → t.enc = s.enc) ∧
    (s.dec.stat.state ≠ .busy → ¬ (s.nextTxn = some (.writeReg .cmd 0x03) ∧ s.gstat.lock = true) → t.dec = s.dec)

/-- R142: a step refuses a LOCK exactly where it would go to RUN on tables that lack `WF_CT` or `WF_TM`. Locking directly
after reset is such a case, and with TM[0] written as the placeholder of the empty corpus it is none. -/
def Obligations.LockRefusedExactlyOnIllFormedTables : Prop :=
  (∀ s : State, s.ct.wf = true →
    (step s = .refused .illFormedLock ↔
      s.nextTxn = some (.writeReg .cmd 0x01) ∧ s.gstat.lock = false ∧ ¬ (WfCT s.params s.ct ∧ WfTM s.params s.tm))) ∧
  ∀ p : Params, exec .lock (State.resetWith p) = .refused .illFormedLock ∧
    ∃ t u, hostTxn (.writeTM 0 { kind := .internal, sym := 0, lv := false, left := 0, rv := false, right := 0 })
        (State.resetWith p) = .next t ∧
      exec .lock t = .next u ∧ u.gstat.lock = true

/-- R142's check makes the tables well formed in RUN mode, and every step keeps that: no step out of a state where
locked tables are well formed leaves it, and there no command but LOCK is refused. -/
def Obligations.StepsKeepLockedTablesWellFormed : Prop :=
  ∀ s : State, s.ct.wf = true → (s.gstat.lock = true → WfCT s.params s.ct ∧ WfTM s.params s.tm) →
    (∀ t, step s = .next t → t.gstat.lock = true → WfCT t.params t.ct ∧ WfTM t.params t.tm) ∧
    ∀ i, i ≠ .lock → ∃ t, exec i s = .next t

/-- No unit ever starts on a table that is not well formed (41_compress.md section 2, 42_decompress.md section 2), also in a
state where it is locked, which no LOCK of the model leaves: in RUN mode, a step that goes on and is no reset leaves such a unit's column as it is. -/
def Obligations.IllFormedTablesNeverLaunchAUnit : Prop :=
  ∀ s t : State, s.ct.wf = true → s.gstat.lock = true → step s = .next t → s.nextTxn ≠ some .reset →
    (¬ WfCT s.params s.ct → s.enc.stat.state ≠ .busy → t.enc = s.enc) ∧
    (¬ WfTM s.params s.tm → s.dec.stat.state ≠ .busy → t.dec = s.dec)
end

