-- ==== Sys2Proof/Laws/Memory.lean ====
section
/-! SUPPORT. The laws of an index space: a read after a write, the canonical form, and the windows of written elements. -/

namespace Sys2Proof.Machine

variable {α : Type}

@[simp] theorem Memory.read_nil (i : Nat) : Memory.read ([] : Memory α) i = none := rfl

theorem Memory.read_cons (j : Nat) (v : α) (m : Memory α) (i : Nat) :
    Memory.read ((j, v) :: m) i = if j = i then some v else Memory.read m i := rfl

/-- A read after a write, at any index. -/
theorem Memory.read_write (m : Memory α) (i j : Nat) (v : α) :
    Memory.read (Memory.write m i v) j = if i = j then some v else Memory.read m j := by
  induction m with
  | nil => rfl
  | cons a m ih =>
    obtain ⟨k, w⟩ := a
    simp only [Memory.write]
    split
    · simp [Memory.read_cons]
    · split
      · next h => subst h; simp only [Memory.read_cons]; split <;> rfl
      · simp only [Memory.read_cons, ih]
        split <;> split <;> first | rfl | omega

@[simp] theorem Memory.read_write_same (m : Memory α) (i : Nat) (v : α) :
    Memory.read (Memory.write m i v) i = some v := by simp [Memory.read_write]

theorem Memory.read_write_other (m : Memory α) {i j : Nat} (v : α) (h : i ≠ j) :
    Memory.read (Memory.write m i v) j = Memory.read m j := by simp [Memory.read_write, h]

/-- The canonical form says that the first index is below all the others. -/
theorem Memory.wf_cons (a : Nat × α) (m : Memory α) :
    Memory.wf (a :: m) = true ↔ (∀ x ∈ m, a.1 < x.1) ∧ Memory.wf m = true := by
  induction m generalizing a with
  | nil => simp [Memory.wf]
  | cons b m ih =>
    simp only [Memory.wf, Bool.and_eq_true, decide_eq_true_eq]
    constructor
    · rintro ⟨hab, hb⟩
      refine ⟨fun x hx => ?_, hb⟩
      rcases List.mem_cons.mp hx with rfl | hx
      · exact hab
      · exact Nat.lt_trans hab (((ih b).mp hb).1 x hx)
    · exact fun ⟨h, hb⟩ => ⟨h b (List.mem_cons_self ..), hb⟩

/-- What a write puts into the list. -/
theorem Memory.mem_write {m : Memory α} {i : Nat} {v : α} {x : Nat × α} (h : x ∈ Memory.write m i v) :
    x = (i, v) ∨ x ∈ m := by
  induction m with
  | nil => exact .inl (List.mem_singleton.mp h)
  | cons a m ih =>
    obtain ⟨k, w⟩ := a
    simp only [Memory.write] at h
    split at h
    · exact List.mem_cons.mp h
    · split at h
      · exact (List.mem_cons.mp h).imp id (List.mem_cons_of_mem _)
      · rcases List.mem_cons.mp h with rfl | h
        · exact .inr (List.mem_cons_self ..)
        · exact (ih h).imp id (List.mem_cons_of_mem _)

/-- Every write keeps the canonical form. -/
theorem Memory.wf_write {m : Memory α} (i : Nat) (v : α) (h : Memory.wf m = true) :
    Memory.wf (Memory.write m i v) = true := by
  induction m with
  | nil => rfl
  | cons a m ih =>
    obtain ⟨k, w⟩ := a
    obtain ⟨hk, hm⟩ := (Memory.wf_cons _ _).mp h
    simp only [Memory.write]
    split
    · next hik =>
      exact (Memory.wf_cons _ _).mpr ⟨fun x hx => by
        rcases List.mem_cons.mp hx with rfl | hx
        · exact hik
        · exact Nat.lt_trans hik (hk x hx), h⟩
    · split
      · next hik => exact (Memory.wf_cons _ _).mpr ⟨fun x hx => hik ▸ hk x hx, hm⟩
      · next h1 h2 =>
        refine (Memory.wf_cons _ _).mpr ⟨fun x hx => ?_, ih hm⟩
        rcases Memory.mem_write hx with rfl | hx
        · show k < i; omega
        · exact hk x hx

/-- An element that is read stands in the list. -/
theorem Memory.mem_of_read {m : Memory α} {i : Nat} {v : α} (h : Memory.read m i = some v) : (i, v) ∈ m := by
  induction m with
  | nil => exact absurd h (by simp)
  | cons a m ih =>
    obtain ⟨k, w⟩ := a
    simp only [Memory.read_cons] at h
    split at h
    · next hk => simp_all
    · exact List.mem_cons_of_mem _ (ih h)

/-- In canonical form an element of the list is what its index reads as. -/
theorem Memory.read_of_mem {m : Memory α} (h : Memory.wf m = true) {i : Nat} {v : α} (hm : (i, v) ∈ m) :
    Memory.read m i = some v := by
  induction m with
  | nil => exact absurd hm (List.not_mem_nil)
  | cons a m ih =>
    obtain ⟨k, w⟩ := a
    obtain ⟨hk, hw⟩ := (Memory.wf_cons _ _).mp h
    simp only [Memory.read_cons]
    rcases List.mem_cons.mp hm with h' | h'
    · cases h'; simp
    · have hne : k ≠ i := Nat.ne_of_lt (hk _ h')
      simp [hne, ih hw h']

/-- A write of a fitting element keeps a check of every entry. -/
theorem Memory.all_write {m : Memory α} {i : Nat} {v : α} {f : Nat × α → Bool} (h : m.all f = true)
    (hv : f (i, v) = true) : (Memory.write m i v).all f = true := by
  rw [List.all_eq_true] at h ⊢
  exact fun x hx => (Memory.mem_write hx).elim (fun e => e ▸ hv) (h x)

/-- A check of every entry holds of every element that is read. -/
theorem Memory.all_read {m : Memory α} {f : Nat × α → Bool} (h : m.all f = true) {i : Nat} {v : α}
    (hr : Memory.read m i = some v) : f (i, v) = true :=
  List.all_eq_true.mp h _ (Memory.mem_of_read hr)

theorem Memory.written_iff (m : Memory α) (n : Nat) :
    m.written n = true ↔ ∀ i < n, ∃ v, Memory.read m i = some v := by
  simp [Memory.written, List.all_eq_true, Option.isSome_iff_exists]

@[simp] theorem Memory.written_zero (m : Memory α) : m.written 0 = true := rfl

/-- A write extends the window of written elements by its own index. -/
theorem Memory.written_write_succ {m : Memory α} {n : Nat} (v : α) (h : m.written n = true) :
    (Memory.write m n v).written (n + 1) = true := by
  rw [Memory.written_iff] at h ⊢
  intro i hi
  by_cases hn : n = i
  · exact ⟨v, by simp [hn]⟩
  · obtain ⟨w, hw⟩ := h i (by omega)
    exact ⟨w, by simp [Memory.read_write, hn, hw]⟩

/-- A write leaves nothing unwritten that was written. -/
theorem Memory.written_write {m : Memory α} {n : Nat} (i : Nat) (v : α) (h : m.written n = true) :
    (Memory.write m i v).written n = true := by
  rw [Memory.written_iff] at h ⊢
  intro j hj
  obtain ⟨w, hw⟩ := h j hj
  rw [Memory.read_write]
  split
  · exact ⟨v, rfl⟩
  · exact ⟨w, hw⟩

/-- A shorter window of a written one is written. -/
theorem Memory.written_le {m : Memory α} {n k : Nat} (h : m.written n = true) (hk : k ≤ n) : m.written k = true :=
  (Memory.written_iff m k).mpr fun i hi => (Memory.written_iff m n).mp h i (by omega)

@[simp] theorem Memory.window_zero (m : Memory α) : m.window 0 = [] := rfl

/-- The window by one element more. -/
theorem Memory.window_succ (m : Memory α) (n : Nat) :
    m.window (n + 1) = m.window n ++ (Memory.read m n).toList := by
  simp only [Memory.window, List.range_succ, List.filterMap_append]
  cases h : Memory.read m n <;> simp [h]

/-- A window of written elements holds one element an index. -/
theorem Memory.window_length {m : Memory α} {n : Nat} (h : m.written n = true) : (m.window n).length = n := by
  induction n with
  | zero => rfl
  | succ n ih =>
    obtain ⟨v, hv⟩ := (Memory.written_iff _ _).mp h n (by omega)
    simp [Memory.window_succ, hv, ih (Memory.written_le h (by omega))]

/-- Element `i` of a window of written elements is what index `i` reads as. -/
theorem Memory.window_get {m : Memory α} {n i : Nat} (h : m.written n = true) (hi : i < n) :
    (m.window n)[i]? = Memory.read m i := by
  induction n with
  | zero => omega
  | succ n ih =>
    have hn := Memory.written_le h (Nat.le_succ n)
    obtain ⟨v, hv⟩ := (Memory.written_iff _ _).mp h n (by omega)
    rw [Memory.window_succ, hv]
    by_cases hin : i < n
    · rw [List.getElem?_append_left (by rw [Memory.window_length hn]; exact hin)]
      exact ih hn hin
    · obtain rfl : i = n := by omega
      rw [List.getElem?_append_right (by rw [Memory.window_length hn])]
      simp [Memory.window_length hn, hv]

/-- A write at or beyond the end of a window does not change it. -/
theorem Memory.window_write {m : Memory α} {n i : Nat} (v : α) (h : n ≤ i) :
    (Memory.write m i v).window n = m.window n := by
  induction n with
  | zero => rfl
  | succ n ih =>
    rw [Memory.window_succ, Memory.window_succ, ih (by omega), Memory.read_write_other _ _ (by omega)]

/-- A write just past a window lengthens it by its value. -/
theorem Memory.window_write_end (m : Memory α) (n : Nat) (v : α) :
    (Memory.write m n v).window (n + 1) = m.window n ++ [v] := by
  rw [Memory.window_succ, Memory.window_write v (Nat.le_refl n)]
  simp

end Sys2Proof.Machine
end

