-- ==== Sys2Proof/Laws/State.lean ====
section
/-! SUPPORT. One lemma per field per update of the state, each true by unfolding. -/

namespace Sys2Proof.Machine

variable (s : State)

/-! ### `State.setIllCmd` -/

@[simp] theorem State.setIllCmd_params : s.setIllCmd.params = s.params := rfl
@[simp] theorem State.setIllCmd_gstat : s.setIllCmd.gstat = { s.gstat with illcmd := true } := rfl
@[simp] theorem State.setIllCmd_ct : s.setIllCmd.ct = s.ct := rfl
@[simp] theorem State.setIllCmd_tm : s.setIllCmd.tm = s.tm := rfl
@[simp] theorem State.setIllCmd_msg : s.setIllCmd.msg = s.msg := rfl
@[simp] theorem State.setIllCmd_mlen : s.setIllCmd.mlen = s.mlen := rfl
@[simp] theorem State.setIllCmd_din : s.setIllCmd.din = s.din := rfl
@[simp] theorem State.setIllCmd_dlen : s.setIllCmd.dlen = s.dlen := rfl
@[simp] theorem State.setIllCmd_enc : s.setIllCmd.enc = s.enc := rfl
@[simp] theorem State.setIllCmd_dec : s.setIllCmd.dec = s.dec := rfl
@[simp] theorem State.setIllCmd_script : s.setIllCmd.script = s.script := rfl
@[simp] theorem State.setIllCmd_sched : s.setIllCmd.sched = s.sched := rfl
@[simp] theorem State.setIllCmd_replies : s.setIllCmd.replies = s.replies := rfl
@[simp] theorem State.setIllCmd_hostDraws : s.setIllCmd.hostDraws = s.hostDraws := rfl

/-! ### `State.setIllAcc` -/

@[simp] theorem State.setIllAcc_params : s.setIllAcc.params = s.params := rfl
@[simp] theorem State.setIllAcc_gstat : s.setIllAcc.gstat = { s.gstat with illacc := true } := rfl
@[simp] theorem State.setIllAcc_ct : s.setIllAcc.ct = s.ct := rfl
@[simp] theorem State.setIllAcc_tm : s.setIllAcc.tm = s.tm := rfl
@[simp] theorem State.setIllAcc_msg : s.setIllAcc.msg = s.msg := rfl
@[simp] theorem State.setIllAcc_mlen : s.setIllAcc.mlen = s.mlen := rfl
@[simp] theorem State.setIllAcc_din : s.setIllAcc.din = s.din := rfl
@[simp] theorem State.setIllAcc_dlen : s.setIllAcc.dlen = s.dlen := rfl
@[simp] theorem State.setIllAcc_enc : s.setIllAcc.enc = s.enc := rfl
@[simp] theorem State.setIllAcc_dec : s.setIllAcc.dec = s.dec := rfl
@[simp] theorem State.setIllAcc_script : s.setIllAcc.script = s.script := rfl
@[simp] theorem State.setIllAcc_sched : s.setIllAcc.sched = s.sched := rfl
@[simp] theorem State.setIllAcc_replies : s.setIllAcc.replies = s.replies := rfl
@[simp] theorem State.setIllAcc_hostDraws : s.setIllAcc.hostDraws = s.hostDraws := rfl

/-! ### `State.setLock` -/

@[simp] theorem State.setLock_params : s.setLock.params = s.params := rfl
@[simp] theorem State.setLock_gstat : s.setLock.gstat = { s.gstat with lock := true } := rfl
@[simp] theorem State.setLock_ct : s.setLock.ct = s.ct := rfl
@[simp] theorem State.setLock_tm : s.setLock.tm = s.tm := rfl
@[simp] theorem State.setLock_msg : s.setLock.msg = s.msg := rfl
@[simp] theorem State.setLock_mlen : s.setLock.mlen = s.mlen := rfl
@[simp] theorem State.setLock_din : s.setLock.din = s.din := rfl
@[simp] theorem State.setLock_dlen : s.setLock.dlen = s.dlen := rfl
@[simp] theorem State.setLock_enc : s.setLock.enc = s.enc := rfl
@[simp] theorem State.setLock_dec : s.setLock.dec = s.dec := rfl
@[simp] theorem State.setLock_script : s.setLock.script = s.script := rfl
@[simp] theorem State.setLock_sched : s.setLock.sched = s.sched := rfl
@[simp] theorem State.setLock_replies : s.setLock.replies = s.replies := rfl
@[simp] theorem State.setLock_hostDraws : s.setLock.hostDraws = s.hostDraws := rfl

/-! ### `State.encStart` -/

@[simp] theorem State.encStart_params : s.encStart.params = s.params := rfl
@[simp] theorem State.encStart_gstat : s.encStart.gstat = s.gstat := rfl
@[simp] theorem State.encStart_ct : s.encStart.ct = s.ct := rfl
@[simp] theorem State.encStart_tm : s.encStart.tm = s.tm := rfl
@[simp] theorem State.encStart_msg : s.encStart.msg = s.msg := rfl
@[simp] theorem State.encStart_mlen : s.encStart.mlen = s.mlen := rfl
@[simp] theorem State.encStart_din : s.encStart.din = s.din := rfl
@[simp] theorem State.encStart_dlen : s.encStart.dlen = s.dlen := rfl
@[simp] theorem State.encStart_enc : s.encStart.enc = { s.enc with stat := .accept, plen := 0, ePh := .chk } := rfl
@[simp] theorem State.encStart_dec : s.encStart.dec = s.dec := rfl
@[simp] theorem State.encStart_script : s.encStart.script = s.script := rfl
@[simp] theorem State.encStart_sched : s.encStart.sched = s.sched := rfl
@[simp] theorem State.encStart_replies : s.encStart.replies = s.replies := rfl
@[simp] theorem State.encStart_hostDraws : s.encStart.hostDraws = s.hostDraws := rfl

/-! ### `State.decStart` -/

@[simp] theorem State.decStart_params : s.decStart.params = s.params := rfl
@[simp] theorem State.decStart_gstat : s.decStart.gstat = s.gstat := rfl
@[simp] theorem State.decStart_ct : s.decStart.ct = s.ct := rfl
@[simp] theorem State.decStart_tm : s.decStart.tm = s.tm := rfl
@[simp] theorem State.decStart_msg : s.decStart.msg = s.msg := rfl
@[simp] theorem State.decStart_mlen : s.decStart.mlen = s.mlen := rfl
@[simp] theorem State.decStart_din : s.decStart.din = s.din := rfl
@[simp] theorem State.decStart_dlen : s.decStart.dlen = s.dlen := rfl
@[simp] theorem State.decStart_enc : s.decStart.enc = s.enc := rfl
@[simp] theorem State.decStart_dec : s.decStart.dec = { s.dec with stat := .accept, slen := 0, dPh := .hdr } := rfl
@[simp] theorem State.decStart_script : s.decStart.script = s.script := rfl
@[simp] theorem State.decStart_sched : s.decStart.sched = s.sched := rfl
@[simp] theorem State.decStart_replies : s.decStart.replies = s.replies := rfl
@[simp] theorem State.decStart_hostDraws : s.decStart.hostDraws = s.hostDraws := rfl

/-! ### `State.encRaise` -/

@[simp] theorem State.encRaise_params (e : ErrCode) (info : Nat) : (s.encRaise e info).params = s.params := rfl
@[simp] theorem State.encRaise_gstat (e : ErrCode) (info : Nat) : (s.encRaise e info).gstat = s.gstat := rfl
@[simp] theorem State.encRaise_ct (e : ErrCode) (info : Nat) : (s.encRaise e info).ct = s.ct := rfl
@[simp] theorem State.encRaise_tm (e : ErrCode) (info : Nat) : (s.encRaise e info).tm = s.tm := rfl
@[simp] theorem State.encRaise_msg (e : ErrCode) (info : Nat) : (s.encRaise e info).msg = s.msg := rfl
@[simp] theorem State.encRaise_mlen (e : ErrCode) (info : Nat) : (s.encRaise e info).mlen = s.mlen := rfl
@[simp] theorem State.encRaise_din (e : ErrCode) (info : Nat) : (s.encRaise e info).din = s.din := rfl
@[simp] theorem State.encRaise_dlen (e : ErrCode) (info : Nat) : (s.encRaise e info).dlen = s.dlen := rfl
@[simp] theorem State.encRaise_enc (e : ErrCode) (info : Nat) : (s.encRaise e info).enc = { s.enc with stat := .raise e info } := rfl
@[simp] theorem State.encRaise_dec (e : ErrCode) (info : Nat) : (s.encRaise e info).dec = s.dec := rfl
@[simp] theorem State.encRaise_script (e : ErrCode) (info : Nat) : (s.encRaise e info).script = s.script := rfl
@[simp] theorem State.encRaise_sched (e : ErrCode) (info : Nat) : (s.encRaise e info).sched = s.sched := rfl
@[simp] theorem State.encRaise_replies (e : ErrCode) (info : Nat) : (s.encRaise e info).replies = s.replies := rfl
@[simp] theorem State.encRaise_hostDraws (e : ErrCode) (info : Nat) : (s.encRaise e info).hostDraws = s.hostDraws := rfl

/-! ### `State.decRaise` -/

@[simp] theorem State.decRaise_params (e : ErrCode) (info : Nat) : (s.decRaise e info).params = s.params := rfl
@[simp] theorem State.decRaise_gstat (e : ErrCode) (info : Nat) : (s.decRaise e info).gstat = s.gstat := rfl
@[simp] theorem State.decRaise_ct (e : ErrCode) (info : Nat) : (s.decRaise e info).ct = s.ct := rfl
@[simp] theorem State.decRaise_tm (e : ErrCode) (info : Nat) : (s.decRaise e info).tm = s.tm := rfl
@[simp] theorem State.decRaise_msg (e : ErrCode) (info : Nat) : (s.decRaise e info).msg = s.msg := rfl
@[simp] theorem State.decRaise_mlen (e : ErrCode) (info : Nat) : (s.decRaise e info).mlen = s.mlen := rfl
@[simp] theorem State.decRaise_din (e : ErrCode) (info : Nat) : (s.decRaise e info).din = s.din := rfl
@[simp] theorem State.decRaise_dlen (e : ErrCode) (info : Nat) : (s.decRaise e info).dlen = s.dlen := rfl
@[simp] theorem State.decRaise_enc (e : ErrCode) (info : Nat) : (s.decRaise e info).enc = s.enc := rfl
@[simp] theorem State.decRaise_dec (e : ErrCode) (info : Nat) : (s.decRaise e info).dec = { s.dec with stat := .raise e info } := rfl
@[simp] theorem State.decRaise_script (e : ErrCode) (info : Nat) : (s.decRaise e info).script = s.script := rfl
@[simp] theorem State.decRaise_sched (e : ErrCode) (info : Nat) : (s.decRaise e info).sched = s.sched := rfl
@[simp] theorem State.decRaise_replies (e : ErrCode) (info : Nat) : (s.decRaise e info).replies = s.replies := rfl
@[simp] theorem State.decRaise_hostDraws (e : ErrCode) (info : Nat) : (s.decRaise e info).hostDraws = s.hostDraws := rfl

/-! ### `State.reply` -/

@[simp] theorem State.reply_params (r : Reply) : (s.reply r).params = s.params := rfl
@[simp] theorem State.reply_gstat (r : Reply) : (s.reply r).gstat = s.gstat := rfl
@[simp] theorem State.reply_ct (r : Reply) : (s.reply r).ct = s.ct := rfl
@[simp] theorem State.reply_tm (r : Reply) : (s.reply r).tm = s.tm := rfl
@[simp] theorem State.reply_msg (r : Reply) : (s.reply r).msg = s.msg := rfl
@[simp] theorem State.reply_mlen (r : Reply) : (s.reply r).mlen = s.mlen := rfl
@[simp] theorem State.reply_din (r : Reply) : (s.reply r).din = s.din := rfl
@[simp] theorem State.reply_dlen (r : Reply) : (s.reply r).dlen = s.dlen := rfl
@[simp] theorem State.reply_enc (r : Reply) : (s.reply r).enc = s.enc := rfl
@[simp] theorem State.reply_dec (r : Reply) : (s.reply r).dec = s.dec := rfl
@[simp] theorem State.reply_script (r : Reply) : (s.reply r).script = s.script := rfl
@[simp] theorem State.reply_sched (r : Reply) : (s.reply r).sched = s.sched := rfl
@[simp] theorem State.reply_replies (r : Reply) : (s.reply r).replies = r :: s.replies := rfl
@[simp] theorem State.reply_hostDraws (r : Reply) : (s.reply r).hostDraws = s.hostDraws := rfl

/-! ### `State.drawnReply` -/

@[simp] theorem State.drawnReply_params (r : Reply) : (s.drawnReply r).params = s.params := rfl
@[simp] theorem State.drawnReply_gstat (r : Reply) : (s.drawnReply r).gstat = s.gstat := rfl
@[simp] theorem State.drawnReply_ct (r : Reply) : (s.drawnReply r).ct = s.ct := rfl
@[simp] theorem State.drawnReply_tm (r : Reply) : (s.drawnReply r).tm = s.tm := rfl
@[simp] theorem State.drawnReply_msg (r : Reply) : (s.drawnReply r).msg = s.msg := rfl
@[simp] theorem State.drawnReply_mlen (r : Reply) : (s.drawnReply r).mlen = s.mlen := rfl
@[simp] theorem State.drawnReply_din (r : Reply) : (s.drawnReply r).din = s.din := rfl
@[simp] theorem State.drawnReply_dlen (r : Reply) : (s.drawnReply r).dlen = s.dlen := rfl
@[simp] theorem State.drawnReply_enc (r : Reply) : (s.drawnReply r).enc = s.enc := rfl
@[simp] theorem State.drawnReply_dec (r : Reply) : (s.drawnReply r).dec = s.dec := rfl
@[simp] theorem State.drawnReply_script (r : Reply) : (s.drawnReply r).script = s.script := rfl
@[simp] theorem State.drawnReply_sched (r : Reply) : (s.drawnReply r).sched = s.sched := rfl
@[simp] theorem State.drawnReply_replies (r : Reply) : (s.drawnReply r).replies = r :: s.replies := rfl
@[simp] theorem State.drawnReply_hostDraws (r : Reply) : (s.drawnReply r).hostDraws = s.hostDraws + 1 := rfl

/-! ### `State.resetEvent` -/

@[simp] theorem State.resetEvent_params : s.resetEvent.params = s.params := rfl
@[simp] theorem State.resetEvent_gstat : s.resetEvent.gstat = { lock := false, illcmd := false, illacc := false } := rfl
@[simp] theorem State.resetEvent_ct : s.resetEvent.ct = [] := rfl
@[simp] theorem State.resetEvent_tm : s.resetEvent.tm = [] := rfl
@[simp] theorem State.resetEvent_msg : s.resetEvent.msg = [] := rfl
@[simp] theorem State.resetEvent_mlen : s.resetEvent.mlen = 0 := rfl
@[simp] theorem State.resetEvent_din : s.resetEvent.din = [] := rfl
@[simp] theorem State.resetEvent_dlen : s.resetEvent.dlen = 0 := rfl
@[simp] theorem State.resetEvent_enc : s.resetEvent.enc = { Enc.reset with draws := s.enc.draws } := rfl
@[simp] theorem State.resetEvent_dec : s.resetEvent.dec = { Dec.reset with draws := s.dec.draws } := rfl
@[simp] theorem State.resetEvent_script : s.resetEvent.script = s.script := rfl
@[simp] theorem State.resetEvent_sched : s.resetEvent.sched = s.sched := rfl
@[simp] theorem State.resetEvent_replies : s.resetEvent.replies = s.replies := rfl
@[simp] theorem State.resetEvent_hostDraws : s.resetEvent.hostDraws = s.hostDraws := rfl

/-! ### `State.encMsg`: only the unit's counter of free values can change -/

@[simp] theorem State.encMsg_params (i : Nat) : (s.encMsg i).2.params = s.params := by
  unfold State.encMsg; split <;> rfl
@[simp] theorem State.encMsg_gstat (i : Nat) : (s.encMsg i).2.gstat = s.gstat := by
  unfold State.encMsg; split <;> rfl
@[simp] theorem State.encMsg_ct (i : Nat) : (s.encMsg i).2.ct = s.ct := by
  unfold State.encMsg; split <;> rfl
@[simp] theorem State.encMsg_tm (i : Nat) : (s.encMsg i).2.tm = s.tm := by
  unfold State.encMsg; split <;> rfl
@[simp] theorem State.encMsg_msg (i : Nat) : (s.encMsg i).2.msg = s.msg := by
  unfold State.encMsg; split <;> rfl
@[simp] theorem State.encMsg_mlen (i : Nat) : (s.encMsg i).2.mlen = s.mlen := by
  unfold State.encMsg; split <;> rfl
@[simp] theorem State.encMsg_din (i : Nat) : (s.encMsg i).2.din = s.din := by
  unfold State.encMsg; split <;> rfl
@[simp] theorem State.encMsg_dlen (i : Nat) : (s.encMsg i).2.dlen = s.dlen := by
  unfold State.encMsg; split <;> rfl
@[simp] theorem State.encMsg_dec (i : Nat) : (s.encMsg i).2.dec = s.dec := by
  unfold State.encMsg; split <;> rfl
@[simp] theorem State.encMsg_script (i : Nat) : (s.encMsg i).2.script = s.script := by
  unfold State.encMsg; split <;> rfl
@[simp] theorem State.encMsg_sched (i : Nat) : (s.encMsg i).2.sched = s.sched := by
  unfold State.encMsg; split <;> rfl
@[simp] theorem State.encMsg_replies (i : Nat) : (s.encMsg i).2.replies = s.replies := by
  unfold State.encMsg; split <;> rfl
@[simp] theorem State.encMsg_hostDraws (i : Nat) : (s.encMsg i).2.hostDraws = s.hostDraws := by
  unfold State.encMsg; split <;> rfl
@[simp] theorem State.encMsg_enc_stat (i : Nat) : (s.encMsg i).2.enc.stat = s.enc.stat := by
  unfold State.encMsg; split <;> rfl
@[simp] theorem State.encMsg_enc_plen (i : Nat) : (s.encMsg i).2.enc.plen = s.enc.plen := by
  unfold State.encMsg; split <;> rfl
@[simp] theorem State.encMsg_enc_pay (i : Nat) : (s.encMsg i).2.enc.pay = s.enc.pay := by
  unfold State.encMsg; split <;> rfl
@[simp] theorem State.encMsg_enc_ePh (i : Nat) : (s.encMsg i).2.enc.ePh = s.enc.ePh := by
  unfold State.encMsg; split <;> rfl
@[simp] theorem State.encMsg_enc_eI (i : Nat) : (s.encMsg i).2.enc.eI = s.enc.eI := by
  unfold State.encMsg; split <;> rfl
@[simp] theorem State.encMsg_enc_eAcc (i : Nat) : (s.encMsg i).2.enc.eAcc = s.enc.eAcc := by
  unfold State.encMsg; split <;> rfl
@[simp] theorem State.encMsg_enc_eNb (i : Nat) : (s.encMsg i).2.enc.eNb = s.enc.eNb := by
  unfold State.encMsg; split <;> rfl
@[simp] theorem State.encMsg_enc_eWp (i : Nat) : (s.encMsg i).2.enc.eWp = s.enc.eWp := by
  unfold State.encMsg; split <;> rfl

/-! ### `State.decDin`: only the unit's counter of free values can change -/

@[simp] theorem State.decDin_params (j : Nat) : (s.decDin j).2.params = s.params := by
  unfold State.decDin; split <;> rfl
@[simp] theorem State.decDin_gstat (j : Nat) : (s.decDin j).2.gstat = s.gstat := by
  unfold State.decDin; split <;> rfl
@[simp] theorem State.decDin_ct (j : Nat) : (s.decDin j).2.ct = s.ct := by
  unfold State.decDin; split <;> rfl
@[simp] theorem State.decDin_tm (j : Nat) : (s.decDin j).2.tm = s.tm := by
  unfold State.decDin; split <;> rfl
@[simp] theorem State.decDin_msg (j : Nat) : (s.decDin j).2.msg = s.msg := by
  unfold State.decDin; split <;> rfl
@[simp] theorem State.decDin_mlen (j : Nat) : (s.decDin j).2.mlen = s.mlen := by
  unfold State.decDin; split <;> rfl
@[simp] theorem State.decDin_din (j : Nat) : (s.decDin j).2.din = s.din := by
  unfold State.decDin; split <;> rfl
@[simp] theorem State.decDin_dlen (j : Nat) : (s.decDin j).2.dlen = s.dlen := by
  unfold State.decDin; split <;> rfl
@[simp] theorem State.decDin_enc (j : Nat) : (s.decDin j).2.enc = s.enc := by
  unfold State.decDin; split <;> rfl
@[simp] theorem State.decDin_script (j : Nat) : (s.decDin j).2.script = s.script := by
  unfold State.decDin; split <;> rfl
@[simp] theorem State.decDin_sched (j : Nat) : (s.decDin j).2.sched = s.sched := by
  unfold State.decDin; split <;> rfl
@[simp] theorem State.decDin_replies (j : Nat) : (s.decDin j).2.replies = s.replies := by
  unfold State.decDin; split <;> rfl
@[simp] theorem State.decDin_hostDraws (j : Nat) : (s.decDin j).2.hostDraws = s.hostDraws := by
  unfold State.decDin; split <;> rfl
@[simp] theorem State.decDin_dec_stat (j : Nat) : (s.decDin j).2.dec.stat = s.dec.stat := by
  unfold State.decDin; split <;> rfl
@[simp] theorem State.decDin_dec_slen (j : Nat) : (s.decDin j).2.dec.slen = s.dec.slen := by
  unfold State.decDin; split <;> rfl
@[simp] theorem State.decDin_dec_sout (j : Nat) : (s.decDin j).2.dec.sout = s.dec.sout := by
  unfold State.decDin; split <;> rfl
@[simp] theorem State.decDin_dec_dPh (j : Nat) : (s.decDin j).2.dec.dPh = s.dec.dPh := by
  unfold State.decDin; split <;> rfl
@[simp] theorem State.decDin_dec_dN (j : Nat) : (s.decDin j).2.dec.dN = s.dec.dN := by
  unfold State.decDin; split <;> rfl
@[simp] theorem State.decDin_dec_dCnt (j : Nat) : (s.decDin j).2.dec.dCnt = s.dec.dCnt := by
  unfold State.decDin; split <;> rfl
@[simp] theorem State.decDin_dec_dBp (j : Nat) : (s.decDin j).2.dec.dBp = s.dec.dBp := by
  unfold State.decDin; split <;> rfl
@[simp] theorem State.decDin_dec_dNode (j : Nat) : (s.decDin j).2.dec.dNode = s.dec.dNode := by
  unfold State.decDin; split <;> rfl

/-- A read of an element written since reset returns it and changes nothing. -/
theorem State.encMsg_written {i : Nat} {v : Sym} (h : s.msg.read i = some v) : s.encMsg i = (v, s) := by
  simp [State.encMsg, h]

/-- A read of an element written since reset returns it and changes nothing. -/
theorem State.decDin_written {j : Nat} {v : Byte} (h : s.din.read j = some v) : s.decDin j = (v, s) := by
  simp [State.decDin, h]

/-! ### Status -/

@[simp] theorem UnitStatus.isBusy_iff (u : UnitStatus) : u.isBusy = true ↔ u.state = .busy := by
  simp [UnitStatus.isBusy]

@[simp] theorem UnitStatus.isBusy_false_iff (u : UnitStatus) : u.isBusy = false ↔ u.state ≠ .busy := by
  simp [UnitStatus.isBusy]

@[simp] theorem UnitStatus.accept_state : UnitStatus.accept.state = .busy := rfl
@[simp] theorem UnitStatus.accept_err : UnitStatus.accept.err = .none := rfl
@[simp] theorem UnitStatus.accept_info : UnitStatus.accept.info = 0 := rfl
@[simp] theorem UnitStatus.raise_state (e : ErrCode) (n : Nat) : (UnitStatus.raise e n).state = .error := rfl
@[simp] theorem UnitStatus.raise_err (e : ErrCode) (n : Nat) : (UnitStatus.raise e n).err = e := rfl
@[simp] theorem UnitStatus.raise_info (e : ErrCode) (n : Nat) :
    (UnitStatus.raise e n).info = BitVec.ofNat 16 n := rfl
@[simp] theorem UnitStatus.complete_state (u : UnitStatus) : u.complete.state = .done := rfl
@[simp] theorem UnitStatus.complete_err (u : UnitStatus) : u.complete.err = u.err := rfl
@[simp] theorem UnitStatus.complete_info (u : UnitStatus) : u.complete.info = u.info := rfl
@[simp] theorem UnitStatus.reset_state : UnitStatus.reset.state = .idle := rfl

end Sys2Proof.Machine
end

