-- ==== Sys2Proof/Laws/Step.lean ====
section
/-! SUPPORT. What each shared operation can do, said once: the turn, the step, the host transactions, the commands and
the unit steps. -/

namespace Sys2Proof.Machine

/-! ### Whose turn it is -/

/-- The agent whose turn it is has a step to take. -/
theorem State.nextAgent_enabled {s : State} {a : Agent} {rest : List Agent} (h : s.nextAgent = some (a, rest)) :
    s.enabled a = true := by
  unfold State.nextAgent at h
  split at h
  · next a' r' hd =>
    have := List.head?_dropWhile_not (fun a => !s.enabled a) s.sched
    simp only [hd, List.head?_cons] at this
    simp only [Option.some.injEq, Prod.mk.injEq] at h
    obtain ⟨rfl, rfl⟩ := h
    simpa using this
  · split at h
    · simp_all
    · split at h
      · simp_all
      · split at h <;> simp_all

/-- Where no agent has a step to take, and only there, the run is over (R194). -/
theorem State.nextAgent_none {s : State} : s.nextAgent = none ↔ ∀ a, s.enabled a = false := by
  constructor
  · intro h
    unfold State.nextAgent at h
    split at h
    · simp at h
    · intro a
      split at h
      · simp at h
      · split at h
        · simp at h
        · split at h
          · simp at h
          · cases a <;> simp_all
  · intro h
    have hd : s.sched.dropWhile (fun a => !s.enabled a) = [] := by simp [h]
    unfold State.nextAgent
    rw [hd]
    simp [h]

/-- A schedule that names an agent with a step to take gives it the turn. -/
theorem State.nextAgent_head {s : State} {a : Agent} {rest : List Agent} (h : s.sched = a :: rest)
    (he : s.enabled a = true) : s.nextAgent = some (a, rest) := by
  simp [State.nextAgent, h, he]

/-- What a step can be: the end of the run, or the step of the agent whose turn it is. -/
theorem step_cases (s : State) :
    (s.nextAgent = none ∧ step s = .next s) ∨
      ∃ a rest, s.nextAgent = some (a, rest) ∧ s.enabled a = true ∧
        ((a = .host ∧ step s = hostStep { s with sched := rest }) ∨
          (a = .enc ∧ step s = encStep { s with sched := rest }) ∨
            (a = .dec ∧ step s = decStep { s with sched := rest })) := by
  unfold step
  cases h : s.nextAgent with
  | none => exact .inl ⟨rfl, rfl⟩
  | some x =>
    obtain ⟨a, rest⟩ := x
    refine .inr ⟨a, rest, rfl, State.nextAgent_enabled h, ?_⟩
    cases a <;> simp

/-! ### The commands -/

/-- What a command can do (R143): it starts its unit, locks, does nothing, or sets ILLCMD. -/
theorem exec_next {i : Instr} {s t : State} (h : exec i s = .next t) :
    t = s.setIllCmd ∨ (i = .nop ∧ t = s) ∨ (i = .lock ∧ s.gstat.lock = false ∧ s.lockTables = true ∧ t = s.setLock) ∨
      (i = .compress ∧ s.gstat.lock = true ∧ s.enc.stat.isBusy = false ∧ wfCT s.params s.ct = true ∧ t = s.encStart) ∨
        (i = .decompress ∧ s.gstat.lock = true ∧ s.dec.stat.isBusy = false ∧ wfTM s.params s.tm = true ∧
          t = s.decStart) := by
  cases i with
  | nop => simp_all [exec, execNop]
  | lock =>
    simp only [exec, execLock, lockEffect, illegalCommand] at h
    split at h
    · split at h <;> simp_all
    · cases h
  | compress =>
    simp only [exec, execCompress, illegalCommand] at h
    split at h
    · split at h <;> simp_all
    · simp_all
  | decompress =>
    simp only [exec, execDecompress, illegalCommand] at h
    split at h
    · split at h <;> simp_all
    · simp_all

/-- No command ends in a fault. -/
theorem exec_no_fault (i : Instr) (s : State) (f : Fault) : exec i s ≠ .fault f := by
  cases i <;> simp only [exec, execNop, execLock, lockEffect, execCompress, execDecompress, illegalCommand] <;>
    (repeat' split) <;> simp

/-- A write to CMD performs a command or sets ILLCMD. -/
theorem writeCmd_next {w : Byte} {s t : State} (h : writeCmd w s = .next t) :
    (∃ i, exec i s = .next t) ∨ t = s.setIllCmd := by
  unfold writeCmd illegalCommand at h
  split at h
  · exact .inl ⟨_, h⟩
  · exact .inr (by simpa using h.symm)

/-! ### The host transactions -/

/-- What a HOST read leaves: the state but for the reply and the HOST's counter. -/
theorem readElement_eq (x : Space) (i : Nat) (s : State) :
    ∃ r, readElement x i s = s.reply r ∨ readElement x i s = s.drawnReply r := by
  unfold readElement
  repeat' split
  all_goals exact ⟨_, by first | exact .inl rfl | exact .inr rfl⟩

/-- What a HOST read of a register leaves: the state but for the reply and the HOST's counter. -/
theorem readRegister_eq (r : Reg) (s : State) :
    ∃ v, readRegister r s = s.reply v ∨ readRegister r s = s.drawnReply v := by
  unfold readRegister
  split
  · exact ⟨_, .inl rfl⟩
  · exact ⟨_, .inr rfl⟩

/-- What a host transaction of the block can do (R41): a read, a refused access, a command, a write that is honoured, or
a reset. -/
theorem hostPerform_next {t : HostTxn} {s u : State} (h : hostPerform t s = .next u) :
    (∃ r, u = s.reply r ∨ u = s.drawnReply r) ∨ u = s.setIllAcc ∨ (∃ w, writeCmd w s = .next u) ∨
      (∃ v e, t = .writeCT v e ∧ s.gstat.lock = false ∧ u = { s with ct := s.ct.write v e }) ∨
      (∃ n e, t = .writeTM n e ∧ s.gstat.lock = false ∧ u = { s with tm := s.tm.write n e }) ∨
      (∃ i v, t = .writeBuf .msg i v ∧ s.enc.stat.isBusy = false ∧ u = { s with msg := s.msg.write i v }) ∨
      (∃ i v, t = .writeBuf .din i v ∧ s.dec.stat.isBusy = false ∧
        u = { s with din := s.din.write i (BitVec.ofNat 8 v) }) ∨
      (∃ v, t = .writeReg .mlen v ∧ s.enc.stat.isBusy = false ∧ u = { s with mlen := v }) ∨
      (∃ v, t = .writeReg .dlen v ∧ s.dec.stat.isBusy = false ∧ u = { s with dlen := v }) ∨
      (t = .reset ∧ u = s.resetEvent) := by
  cases t with
  | writeCT v e =>
    simp only [hostPerform, writeCT, Host.Outcome.next.injEq] at h
    split at h <;> simp_all
  | writeTM n e =>
    simp only [hostPerform, writeTM, Host.Outcome.next.injEq] at h
    split at h <;> simp_all
  | writeBuf b i v =>
    simp only [hostPerform, writeBuffer, Host.Outcome.next.injEq] at h
    cases b <;> simp only at h <;> (try split at h) <;> simp_all
  | read x i =>
    simp only [hostPerform, Host.Outcome.next.injEq] at h
    exact .inl (h ▸ readElement_eq x i s)
  | writeReg r v =>
    simp only [hostPerform, writeRegister] at h
    cases r <;> simp only [Host.Outcome.next.injEq] at h <;> (try split at h) <;>
      first | exact .inr (.inr (.inl ⟨_, h⟩)) | simp_all
  | readReg r =>
    simp only [hostPerform, Host.Outcome.next.injEq] at h
    exact .inl (h ▸ readRegister_eq r s)
  | reset =>
    simp only [hostPerform, Host.Outcome.next.injEq] at h
    simp_all

/-- A host transaction that goes on is one of the block's. -/
theorem hostTxn_next {t : HostTxn} {s u : State} (h : hostTxn t s = .next u) :
    txnFits s.params t = true ∧ hostPerform t s = .next u := by
  unfold hostTxn at h
  split at h
  · exact ⟨‹_›, h⟩
  · simp at h

/-- The HOST's step is one transaction with the script moved on. -/
theorem hostStep_next {s u : State} (h : hostStep s = .next u) :
    (s.script = [] ∧ u = s) ∨ ∃ t script, hostTxn t { s with script := script } = .next u ∧
      (s.script = .txn t :: script ∨ t = .readReg .estat ∨ t = .readReg .dstat) := by
  unfold hostStep at h
  split at h
  · next hs => exact .inl ⟨hs, by simpa using h.symm⟩
  · next t rest hs => exact .inr ⟨t, rest, h, .inl hs⟩
  · exact .inr ⟨_, _, h, .inr (.inl rfl)⟩
  · exact .inr ⟨_, _, h, .inr (.inr rfl)⟩

end Sys2Proof.Machine
end

