-- ==== Sys2Proof/Laws/Trie.lean ====
section
/-! SUPPORT. What the table checks of a launch give the units: every code word read fits, and every node a walk can reach
is written. -/

namespace Sys2Proof.Machine

/-- `WF_CT` of every code word a lookup gives (R14). -/
theorem codeWord_length {p : Params} {ct : Memory CTEntry} (h : wfCT p ct = true) {v : Sym} {q : Bits}
    (hq : codeWord ct v = some q) : 1 ≤ q.length ∧ q.length ≤ p.maxlen := by
  unfold codeWord at hq
  split at hq
  · next e he =>
    split at hq
    · next hv =>
      have := Memory.all_read h he
      obtain rfl : e.code = q := by simpa using hq
      simp only [hv, Bool.not_true, Bool.false_or, Bool.and_eq_true, decide_eq_true_eq] at this
      exact this
    · simp at hq
  · simp at hq

/-- A successful check of the work list gives a set of nodes that is closed under children. -/
theorem treeCheck_closed {p : Params} {tm : Memory TMEntry} (fuel : Nat) (todo seen : List NodeId) (syms : List Sym)
    (h : treeCheck p tm fuel todo seen syms = true) :
    ∃ S : List NodeId, (∀ n ∈ todo, n ∈ S) ∧ ∀ n ∈ S, n < p.nnode ∧ ∃ e, tm.read n = some e ∧
      (e.kind = .internal → e.lv = true ∧ e.rv = true ∧ e.left ∈ S ∧ e.right ∈ S) := by
  induction fuel generalizing todo seen syms with
  | zero => simp [treeCheck] at h
  | succ fuel ih =>
    cases todo with
    | nil => exact ⟨[], by simp, by simp⟩
    | cons n todo =>
      rw [treeCheck] at h
      split at h
      · next hn =>
        simp only [Bool.and_eq_true, decide_eq_true_eq] at hn
        cases he : tm.read n with
        | none => simp [he] at h
        | some e =>
          simp only [he] at h
          cases hk : e.kind with
          | leaf =>
            simp only [hk, Bool.and_eq_true] at h
            obtain ⟨S, hS, hc⟩ := ih _ _ _ h.2
            refine ⟨n :: S, fun m hm => ?_, fun m hm => ?_⟩
            · rcases List.mem_cons.mp hm with rfl | hm
              · exact List.mem_cons_self ..
              · exact List.mem_cons_of_mem _ (hS m hm)
            · rcases List.mem_cons.mp hm with rfl | hm
              · exact ⟨hn.1, e, he, by simp [hk]⟩
              · obtain ⟨h1, f, hf, h2⟩ := hc m hm
                exact ⟨h1, f, hf, fun hi => by
                  obtain ⟨a, b, c, d⟩ := h2 hi
                  exact ⟨a, b, List.mem_cons_of_mem _ c, List.mem_cons_of_mem _ d⟩⟩
          | internal =>
            simp only [hk, Bool.and_eq_true] at h
            obtain ⟨S, hS, hc⟩ := ih _ _ _ h.2.2
            refine ⟨n :: S, fun m hm => ?_, fun m hm => ?_⟩
            · rcases List.mem_cons.mp hm with rfl | hm
              · exact List.mem_cons_self ..
              · exact List.mem_cons_of_mem _ (hS m (by simp [hm]))
            · rcases List.mem_cons.mp hm with rfl | hm
              · exact ⟨hn.1, e, he, fun _ => ⟨h.1, h.2.1, List.mem_cons_of_mem _ (hS _ (by simp)),
                  List.mem_cons_of_mem _ (hS _ (by simp))⟩⟩
              · obtain ⟨h1, f, hf, h2⟩ := hc m hm
                exact ⟨h1, f, hf, fun hi => by
                  obtain ⟨a, b, c, d⟩ := h2 hi
                  exact ⟨a, b, List.mem_cons_of_mem _ c, List.mem_cons_of_mem _ d⟩⟩
      · simp at h

/-- On a trie that the check accepts, every reachable node is written. -/
theorem wfTM_reach {p : Params} {tm : Memory TMEntry} (h : wfTM p tm = true) {n : NodeId} (hr : Reach tm n) :
    ∃ e, tm.read n = some e := by
  unfold wfTM at h
  cases h0 : tm.read 0 with
  | none => simp [h0] at h
  | some e =>
    simp only [h0] at h
    split at h
    · simp at h
    · next hk hl hrv =>
      have : ∀ m, Reach tm m → m = 0 := by
        intro m hm
        induction hm with
        | root => rfl
        | child up hw hi hc ih =>
          subst ih
          obtain rfl := Option.some.inj (h0.symm.trans hw)
          simp [childOf, hl, hrv] at hc
      exact ⟨e, this n hr ▸ h0⟩
    · next hk hl hrv =>
      split at h
      · next c hc =>
        simp only [Bool.and_eq_true, decide_eq_true_eq, beq_iff_eq] at h
        have : ∀ m, Reach tm m → m = 0 ∨ m = e.left := by
          intro m hm
          induction hm with
          | root => exact .inl rfl
          | child up hw hi hch ih =>
            rcases ih with rfl | rfl
            · obtain rfl := Option.some.inj (h0.symm.trans hw)
              simp only [childOf, hl, hrv] at hch
              split at hch <;> simp_all
            · obtain rfl := Option.some.inj (hc.symm.trans hw)
              simp [h.2.2] at hi
        rcases this n hr with rfl | rfl
        · exact ⟨e, h0⟩
        · exact ⟨c, hc⟩
      · simp at h
    · simp at h
    · obtain ⟨S, hS, hc⟩ := treeCheck_closed _ _ _ _ h
      have : ∀ m, Reach tm m → m ∈ S := by
        intro m hm
        induction hm with
        | root => exact hS 0 (by simp)
        | child up hw hi hch ih =>
          obtain ⟨_, f, hf, h2⟩ := hc _ ih
          obtain rfl := Option.some.inj (hf.symm.trans hw)
          obtain ⟨a, b, c, d⟩ := h2 hi
          simp only [childOf, a, b, if_true] at hch
          split at hch <;> (obtain rfl := Option.some.inj hch; assumption)
      obtain ⟨_, f, hf, _⟩ := hc n (this n hr)
      exact ⟨f, hf⟩

/-- The root of a trie that the check accepts is INTERNAL (R17). -/
theorem wfTM_root {p : Params} {tm : Memory TMEntry} (h : wfTM p tm = true) :
    ∃ e, tm.read 0 = some e ∧ e.kind = .internal := by
  unfold wfTM at h
  split at h
  · simp at h
  · next e he => exact ⟨e, he, by cases hk : e.kind <;> simp_all⟩

/-! ### Paths -/

@[simp] theorem nodeAt_nil (tm : Memory TMEntry) (n : NodeId) : nodeAt tm n [] = some n := rfl

/-- A path is its first edge and then the rest. -/
theorem nodeAt_cons (tm : Memory TMEntry) (n : NodeId) (b : Bool) (q : Bits) :
    nodeAt tm n (b :: q) = (nodeAt tm n [b]).bind (fun c => nodeAt tm c q) := by
  simp only [nodeAt]
  cases tm.read n with
  | none => rfl
  | some e =>
    simp only
    cases e.kind with
    | leaf => rfl
    | internal =>
      simp only
      cases childOf e b <;> rfl

theorem nodeAt_append (tm : Memory TMEntry) (n : NodeId) (p q : Bits) :
    nodeAt tm n (p ++ q) = (nodeAt tm n p).bind (fun c => nodeAt tm c q) := by
  induction p generalizing n with
  | nil => rfl
  | cons b p ih =>
    rw [List.cons_append, nodeAt_cons, nodeAt_cons tm n b p]
    cases nodeAt tm n [b] with
    | none => rfl
    | some c => exact ih c

/-- One edge of a path: it leaves an INTERNAL node for the child the bit selects. -/
theorem nodeAt_edge {tm : Memory TMEntry} {n m : NodeId} {b : Bool} :
    nodeAt tm n [b] = some m ↔ ∃ e, tm.read n = some e ∧ e.kind = .internal ∧ childOf e b = some m := by
  simp only [nodeAt]
  cases tm.read n with
  | none => simp
  | some e =>
    cases hk : e.kind with
    | leaf => simp [hk]
    | internal => cases hc : childOf e b <;> simp [hk, hc]

/-- A path from a reachable node leads to reachable nodes only. -/
theorem nodeAt_reach {tm : Memory TMEntry} {n m : NodeId} {q : Bits} (hr : Reach tm n) (h : nodeAt tm n q = some m) :
    Reach tm m := by
  induction q generalizing n with
  | nil => cases h; exact hr
  | cons b q ih =>
    rw [nodeAt_cons] at h
    obtain ⟨c, hc, hq⟩ := Option.bind_eq_some_iff.mp h
    obtain ⟨e, he, hk, hb⟩ := nodeAt_edge.mp hc
    exact ih (.child hr he hk hb) hq

/-- R121's move that gives a symbol is the path of one bit to a leaf. -/
theorem walkMove_emit {tm : Memory TMEntry} {n : NodeId} {b : Bool} {v : Sym} :
    walkMove tm n b = .emit v ↔ leafAt tm n [b] = some v := by
  simp only [walkMove, leafAt, nodeAt]
  cases tm.read n with
  | none => simp
  | some e =>
    cases hk : e.kind with
    | leaf => simp [hk]
    | internal =>
      cases hc : childOf e b with
      | none => simp [hk, hc]
      | some c =>
        cases hr : tm.read c with
        | none => simp [hk, hc, hr]
        | some f => cases hf : f.kind <;> simp [hk, hc, hr, hf]

/-- R121's move that descends is the path of one bit to an INTERNAL node. -/
theorem walkMove_descend {tm : Memory TMEntry} {n m : NodeId} {b : Bool} :
    walkMove tm n b = .descend m ↔ nodeAt tm n [b] = some m ∧ ∃ e, tm.read m = some e ∧ e.kind = .internal := by
  simp only [walkMove, nodeAt]
  cases tm.read n with
  | none => simp
  | some e =>
    cases hk : e.kind with
    | leaf => simp [hk]
    | internal =>
      cases hc : childOf e b with
      | none => simp [hk, hc]
      | some c =>
        cases hr : tm.read c with
        | none => simp [hk, hc, hr]; intro h; simp [← h, hr]
        | some f =>
          cases hf : f.kind
          · simp [hk, hc, hr, hf]; intro h; simp [← h, hr, hf]
          · simp [hk, hc, hr, hf]; intro h; simp [← h, hr, hf]

end Sys2Proof.Machine
end

