-- ==== Sys2Proof/Laws/Units.lean ====
section
/-! SUPPORT. What a step of ENC and of DEC can do: the column of the state it writes, and what pushing bits does to the
data path. -/

namespace Sys2Proof.Machine

/-! ### A unit writes its own column only (R10) -/

theorem State.encMsg_frame (s : State) (i : Nat) : (s.encMsg i).2 = { s with enc := (s.encMsg i).2.enc } := by
  unfold State.encMsg; split <;> rfl

theorem State.decDin_frame (s : State) (j : Nat) : (s.decDin j).2 = { s with dec := (s.decDin j).2.dec } := by
  unfold State.decDin; split <;> rfl

theorem encEmit_frame {q : Bits} {s t : State} (h : encEmit q s = .next t) : t = { s with enc := t.enc } := by
  unfold encEmit at h
  split at h
  · cases h; rfl
  · simp at h

theorem encLookup_frame {v : Sym} {s t : State} (h : encLookup v s = .next t) : t = { s with enc := t.enc } := by
  unfold encLookup at h
  split at h
  · cases h; rfl
  · exact encEmit_frame h

/-- ENC writes nothing outside its column. -/
theorem encStep_frame {s t : State} (h : encStep s = .next t) : t = { s with enc := t.enc } := by
  unfold encStep at h
  split at h
  · split at h
    · unfold encChk at h
      split at h <;> (cases h; rfl)
    · unfold encSym at h
      split at h
      · cases h; rfl
      · split at h
        · have := encLookup_frame h
          rw [State.encMsg_frame] at this
          exact this
        · simp at h
    · unfold encFlush at h
      split at h
      · cases h; rfl
      · split at h
        · cases h; rfl
        · simp at h
  · cases h; rfl

theorem decHeader_frame {v : Byte} {s t : State} (h : decHeader v s = .next t) : t = { s with dec := t.dec } := by
  unfold decHeader at h
  split at h <;> (cases h; rfl)

theorem decArrive_frame {c : NodeId} {s t : State} (h : decArrive c s = .next t) : t = { s with dec := t.dec } := by
  unfold decArrive at h
  split at h
  · simp at h
  · split at h
    · cases h; rfl
    · split at h
      · cases h; rfl
      · simp at h

theorem decFollow_frame {b : Bool} {s t : State} (h : decFollow b s = .next t) : t = { s with dec := t.dec } := by
  unfold decFollow at h
  split at h
  · simp at h
  · split at h
    · simp at h
    · split at h
      · cases h; rfl
      · exact decArrive_frame h

/-- DEC writes nothing outside its column. -/
theorem decStep_frame {s t : State} (h : decStep s = .next t) : t = { s with dec := t.dec } := by
  unfold decStep at h
  split at h
  · split at h
    · unfold decHdr at h
      split at h
      · cases h; rfl
      · have := decHeader_frame h
        rw [State.decDin_frame] at this
        exact this
    · unfold decWalk at h
      split at h
      · cases h; rfl
      · split at h
        · cases h; rfl
        · split at h
          · have := decFollow_frame h
            rw [State.decDin_frame] at this
            exact this
          · simp at h
  · cases h; rfl

/-! ### Pushing bits (R112) -/

@[simp] theorem encPush_stat (e : Enc) (b : Bool) : (encPush e b).stat = e.stat := by
  unfold encPush; split <;> rfl
@[simp] theorem encPush_plen (e : Enc) (b : Bool) : (encPush e b).plen = e.plen := by
  unfold encPush; split <;> rfl
@[simp] theorem encPush_ePh (e : Enc) (b : Bool) : (encPush e b).ePh = e.ePh := by
  unfold encPush; split <;> rfl
@[simp] theorem encPush_eI (e : Enc) (b : Bool) : (encPush e b).eI = e.eI := by
  unfold encPush; split <;> rfl
@[simp] theorem encPush_draws (e : Enc) (b : Bool) : (encPush e b).draws = e.draws := by
  unfold encPush; split <;> rfl

@[simp] theorem encPushAll_nil (e : Enc) : encPushAll e [] = e := rfl
theorem encPushAll_cons (e : Enc) (b : Bool) (q : Bits) : encPushAll e (b :: q) = encPushAll (encPush e b) q := rfl

@[simp] theorem encPushAll_stat (e : Enc) (q : Bits) : (encPushAll e q).stat = e.stat := by
  induction q generalizing e with
  | nil => rfl
  | cons b q ih => simp [encPushAll_cons, ih]
@[simp] theorem encPushAll_plen (e : Enc) (q : Bits) : (encPushAll e q).plen = e.plen := by
  induction q generalizing e with
  | nil => rfl
  | cons b q ih => simp [encPushAll_cons, ih]
@[simp] theorem encPushAll_ePh (e : Enc) (q : Bits) : (encPushAll e q).ePh = e.ePh := by
  induction q generalizing e with
  | nil => rfl
  | cons b q ih => simp [encPushAll_cons, ih]
@[simp] theorem encPushAll_eI (e : Enc) (q : Bits) : (encPushAll e q).eI = e.eI := by
  induction q generalizing e with
  | nil => rfl
  | cons b q ih => simp [encPushAll_cons, ih]
@[simp] theorem encPushAll_draws (e : Enc) (q : Bits) : (encPushAll e q).draws = e.draws := by
  induction q generalizing e with
  | nil => rfl
  | cons b q ih => simp [encPushAll_cons, ih]

/-- One push is one bit more. -/
theorem encPush_count (e : Enc) (b : Bool) :
    8 * (encPush e b).eWp + (encPush e b).eNb.toNat = 8 * e.eWp + e.eNb.toNat + 1 := by
  unfold encPush
  split
  · next h => simp [h]; omega
  · next h =>
    have : e.eNb.toNat ≠ 7 := fun h' => h (BitVec.eq_of_toNat_eq (by simpa using h'))
    have := e.eNb.isLt
    simp only [BitVec.toNat_add, BitVec.ofNat_eq_ofNat, BitVec.toNat_ofNat]
    omega

/-- A code word's pushes are its bits more. -/
theorem encPushAll_count (e : Enc) (q : Bits) :
    8 * (encPushAll e q).eWp + (encPushAll e q).eNb.toNat = 8 * e.eWp + e.eNb.toNat + q.length := by
  induction q generalizing e with
  | nil => rfl
  | cons b q ih => rw [encPushAll_cons, ih, encPush_count, List.length_cons]; omega

/-- The bits of `E_acc` above the pending ones stay 0 (R27). -/
theorem encPush_accClean (e : Enc) (b : Bool) (h : e.eAcc.toNat < 2 ^ e.eNb.toNat) :
    (encPush e b).eAcc.toNat < 2 ^ (encPush e b).eNb.toNat := by
  unfold encPush
  split
  · simp
  · next h7 =>
    have hne : e.eNb.toNat ≠ 7 := fun h' => h7 (BitVec.eq_of_toNat_eq (by simpa using h'))
    have hlt := e.eNb.isLt
    have hn : (e.eNb + 1).toNat = e.eNb.toNat + 1 := by
      simp only [BitVec.toNat_add, BitVec.ofNat_eq_ofNat, BitVec.toNat_ofNat]; omega
    simp only [hn, BitVec.toNat_ofNat, Nat.pow_succ]
    refine Nat.lt_of_le_of_lt (Nat.mod_le _ _) ?_
    cases b <;> simp <;> omega

/-- The same of a whole code word. -/
theorem encPushAll_accClean (e : Enc) (q : Bits) (h : e.eAcc.toNat < 2 ^ e.eNb.toNat) :
    (encPushAll e q).eAcc.toNat < 2 ^ (encPushAll e q).eNb.toNat := by
  induction q generalizing e with
  | nil => exact h
  | cons b q ih => exact ih _ (encPush_accClean e b h)

/-- Bytes below `E_wp` stay written. -/
theorem encPush_payWritten (e : Enc) (b : Bool) (h : e.pay.written e.eWp = true) :
    (encPush e b).pay.written (encPush e b).eWp = true := by
  unfold encPush
  split
  · exact Memory.written_write_succ _ h
  · exact h

/-- The same of a whole code word. -/
theorem encPushAll_payWritten (e : Enc) (q : Bits) (h : e.pay.written e.eWp = true) :
    (encPushAll e q).pay.written (encPushAll e q).eWp = true := by
  induction q generalizing e with
  | nil => exact h
  | cons b q ih => exact ih _ (encPush_payWritten e b h)

/-- PAY stays canonical. -/
theorem encPushAll_payWf (e : Enc) (q : Bits) (h : e.pay.wf = true) : (encPushAll e q).pay.wf = true := by
  induction q generalizing e with
  | nil => exact h
  | cons b q ih =>
    refine ih _ ?_
    unfold encPush
    split
    · exact Memory.wf_write _ _ h
    · exact h

/-- Every byte a code word completes stands below the new `E_wp`. -/
theorem encPushAll_payFits (e : Enc) (q : Bits) {n : Nat} (h : e.pay.all (fun x => decide (x.1 < n)) = true)
    (hw : (encPushAll e q).eWp ≤ n) : (encPushAll e q).pay.all (fun x => decide (x.1 < n)) = true := by
  induction q generalizing e with
  | nil => exact h
  | cons b q ih =>
    refine ih _ ?_ hw
    have hc := encPushAll_count (encPush e b) q
    have hn := encPush_count e b
    have hb := (encPushAll (encPush e b) q).eNb.isLt
    have he := e.eNb.isLt
    rw [encPushAll_cons] at hw
    by_cases h7 : e.eNb = 7
    · have hlt : e.eWp < n := by simp only [h7, BitVec.ofNat_eq_ofNat, BitVec.toNat_ofNat] at hn; omega
      unfold encPush
      rw [if_pos h7]
      exact Memory.all_write h (decide_eq_true hlt)
    · unfold encPush
      rw [if_neg h7]
      exact h

end Sys2Proof.Machine
end

