-- ==== Sys2Proof/Laws/Invariant.lean ====
section
/-! SUPPORT. What one step of a unit does to the invariant's parts about that unit: from them it goes on, and they hold
after it. -/

namespace Sys2Proof.Machine

/-- What ENC draws for an unwritten symbol changes nothing the invariant speaks of. -/
theorem EncRunning.encMsg {s : State} (h : EncRunning s) (i : Nat) : EncRunning (s.encMsg i).2 :=
  ⟨by simpa using h.msgLegal, by simpa using h.indexInMessage, by simpa using h.atEnd, by simpa using h.headerOut,
    by simpa using h.bitsBound, by simpa using h.accClean, by simpa using h.payWritten⟩

theorem encRoom {s : State} (h : EncRunning s) (hi : s.enc.eI.toNat < 127) {q : Bits}
    (hq : q.length ≤ s.params.maxlen) : s.enc.eWp + (s.enc.eNb.toNat + q.length) / 8 ≤ s.params.paycap := by
  have h1 := h.bitsBound
  have h2 := h.headerOut
  have h3 : (s.enc.eI.toNat + 1) * s.params.maxlen ≤ 127 * s.params.maxlen := Nat.mul_le_mul_right _ (by omega)
  simp only [Params.paycap, Params.paybits]
  rw [Nat.add_mul] at h3
  omega

theorem encEmit_inv {s : State} {q : Bits} (h : EncRunning s) (hp : s.enc.ePh = .sym) (hi : s.enc.eI.toNat < s.mlen)
    (hq : q.length ≤ s.params.maxlen) :
    ∃ t, encEmit q s = .next t ∧ EncRunning t ∧ t.enc.eWp ≤ s.params.paycap ∧ t.enc.stat = s.enc.stat ∧
      t.enc.plen = s.enc.plen ∧ t.enc.ePh = .sym ∧ t.enc.eI.toNat = s.enc.eI.toNat + 1 ∧
      t.enc.pay = (encPushAll s.enc q).pay ∧ t.enc.eAcc = (encPushAll s.enc q).eAcc ∧
      t.enc.eNb = (encPushAll s.enc q).eNb ∧ t.enc.eWp = (encPushAll s.enc q).eWp := by
  have hm := h.msgLegal
  simp only [Config.hdrmax] at hm
  have room := encRoom h (by omega) hq
  have hc := encPushAll_count s.enc q
  have hb := (encPushAll s.enc q).eNb.isLt
  have hI : (s.enc.eI + 1).toNat = s.enc.eI.toNat + 1 := by
    simp only [BitVec.toNat_add, BitVec.ofNat_eq_ofNat, BitVec.toNat_ofNat]; omega
  have h1 := h.bitsBound
  have h2 := h.headerOut
  refine ⟨{ s with enc := { encPushAll s.enc q with eI := s.enc.eI + 1 } }, by unfold encEmit; rw [if_pos room],
    ⟨hm, ?_, ?_, ?_, ?_, ?_, ?_⟩, ?_, ?_, ?_, ?_, hI, rfl, rfl, rfl, rfl⟩
  · show (s.enc.eI + 1).toNat ≤ s.mlen
    omega
  · simp [hp]
  · simp; omega
  · show 8 * ((encPushAll s.enc q).eWp - 1) + (encPushAll s.enc q).eNb.toNat ≤ (s.enc.eI + 1).toNat * s.params.maxlen
    rw [hI, Nat.add_mul]; omega
  · exact encPushAll_accClean _ _ h.accClean
  · exact encPushAll_payWritten _ _ h.payWritten
  · simp; omega
  · simp
  · simp
  · simpa using hp

theorem encFlushRoom {s : State} (h : EncRunning s) (hn : s.enc.eNb ≠ 0) : s.enc.eWp < s.params.paycap := by
  have h1 := h.bitsBound
  have h2 := h.headerOut
  have h3 := h.msgLegal
  have h4 := h.indexInMessage
  simp only [Config.hdrmax] at h3
  have h5 : s.enc.eI.toNat * s.params.maxlen ≤ 127 * s.params.maxlen := Nat.mul_le_mul_right _ (by omega)
  have h6 : s.enc.eNb.toNat ≠ 0 := fun h => hn (BitVec.eq_of_toNat_eq (by simpa using h))
  simp only [Params.paycap, Params.paybits]
  omega

/-- A step of ENC from the invariant: it goes on, and ENC's part of the invariant and its buffer's hold after it. -/
theorem encStep_inv {s : State} (hb : BuffersInv s) (h : EncInv s) (hbusy : s.enc.stat.state = .busy) :
    ∃ t, encStep s = .next t ∧ EncInv t ∧ BuffersInv t := by
  have hlock := h.busyLocked hbusy
  have htab := h.busyTable hbusy
  have hne := h.noError (by simp [hbusy])
  have hnl := h.noLength (by simp [hbusy])
  unfold encStep
  rw [if_pos (by simp [hbusy])]
  cases hp : s.enc.ePh with
  | chk =>
    simp only [encChk]
    split
    · exact ⟨_, rfl, ⟨by simp, by simp, by simp, by simp, by simp [hnl], by simp, h.wpFits, by simp⟩,
        ⟨hb.1, hb.2, hb.3, hb.4, hb.5, hb.6, hb.7, hb.8, hb.9, hb.10⟩⟩
    · next hm =>
      refine ⟨_, rfl, ⟨fun _ => hlock, fun _ => htab, fun _ => hne, by simp [hbusy], fun _ => hnl, by simp [hbusy],
        by simp [Params.paycap], fun _ _ => ⟨Nat.le_of_not_lt hm, by simp, by simp, by simp, by simp, by simp, ?_⟩⟩,
        ⟨hb.1, hb.2, hb.3, hb.4, Memory.wf_write _ _ hb.5, Memory.all_write hb.6 (by simp [Params.paycap]), hb.7, hb.8,
          hb.9, hb.10⟩⟩
      exact Memory.written_write_succ _ (Memory.written_zero _)
  | sym =>
    have hr := h.running hbusy (by simp [hp])
    have hm := hr.msgLegal
    simp only [Config.hdrmax] at hm
    simp only [encSym]
    split
    · next he =>
      exact ⟨_, rfl, ⟨fun _ => hlock, fun _ => htab, fun _ => hne, by simp [hbusy], fun _ => hnl, by simp [hbusy],
        h.wpFits, fun _ _ => ⟨hr.1, hr.2, fun _ => he, hr.4, hr.5, hr.6, hr.7⟩⟩,
        ⟨hb.1, hb.2, hb.3, hb.4, hb.5, hb.6, hb.7, hb.8, hb.9, hb.10⟩⟩
    · next he =>
      have hlt := hr.indexInMessage
      rw [if_pos (by simp only [Config.msgcap]; omega)]
      unfold encLookup
      cases hq : codeWord (s.encMsg s.enc.eI.toNat).2.ct (s.encMsg s.enc.eI.toNat).1 with
      | none =>
        simp only
        refine ⟨_, rfl, ⟨by simp, by simp, by simp, by simp, by simp [hnl], by simp, ?_, by simp⟩, ?_⟩
        · simpa using h.wpFits
        · exact ⟨by simpa using hb.1, by simpa using hb.2, by simpa using hb.3, by simpa using hb.4,
            by simpa using hb.5, by simpa using hb.6, by simpa using hb.7, by simpa using hb.8,
            by simpa using hb.9, by simpa using hb.10⟩
      | some q =>
        have hql := (codeWord_length htab (by simpa using hq)).2
        obtain ⟨t, ht, hrun, hwp, hst, hpl, hph, -, hpay, -⟩ :=
          encEmit_inv (hr.encMsg s.enc.eI.toNat) (by simpa using hp) (by simp; omega) (by simpa using hql)
        have hf := encEmit_frame ht
        simp only [ht]
        refine ⟨t, rfl, ?_, ?_⟩
        · rw [State.encMsg_frame] at hf
          refine ⟨fun _ => by rw [hf]; exact hlock, fun _ => by rw [hf]; exact htab, fun _ => by simpa [hst] using hne,
            by simp [hst, hbusy], fun _ => by simpa [hpl] using hnl, by simp [hst, hbusy], ?_, fun _ _ => hrun⟩
          rw [hf]; simpa using hwp
        · have hfit := encPushAll_payFits (s.encMsg s.enc.eI.toNat).2.enc q (n := s.params.paycap)
            (by simpa using hb.payFits) (by
              obtain ⟨t', ht', -, hwp', -, -, -, -, -, -, -, hwp2⟩ :=
                encEmit_inv (hr.encMsg s.enc.eI.toNat) (by simpa using hp) (by simp; omega) (by simpa using hql)
              rw [← hwp2]; simpa using hwp')
          have hwf := encPushAll_payWf (s.encMsg s.enc.eI.toNat).2.enc q (by simpa using hb.payWf)
          rw [← hpay] at hfit hwf
          rw [State.encMsg_frame] at hf
          rw [hf] at hfit hwf ⊢
          exact ⟨hb.1, hb.2, hb.3, hb.4, hwf, hfit, hb.7, hb.8, hb.9, hb.10⟩
  | flush =>
    have hr := h.running hbusy (by simp [hp])
    simp only [encFlush]
    split
    · exact ⟨_, rfl, ⟨by simp, by simp, fun _ => hne, by simp, by simp,
        fun _ => ⟨hr.headerOut, h.wpFits, hr.payWritten⟩, h.wpFits, by simp⟩,
        ⟨hb.1, hb.2, hb.3, hb.4, hb.5, hb.6, hb.7, hb.8, hb.9, hb.10⟩⟩
    · next hn =>
      have room := encFlushRoom hr hn
      rw [if_pos room]
      exact ⟨_, rfl, ⟨by simp, by simp, fun _ => hne, by simp, by simp,
        fun _ => ⟨by simp, room, Memory.written_write_succ _ hr.payWritten⟩, room, by simp⟩,
        ⟨hb.1, hb.2, hb.3, hb.4, Memory.wf_write _ _ hb.5, Memory.all_write hb.6 (by simpa using room), hb.7, hb.8,
          hb.9, hb.10⟩⟩

theorem DecRunning.decDin {s : State} (h : DecRunning s) (j : Nat) : DecRunning (s.decDin j).2 :=
  ⟨by simpa using h.headerRead, by simpa using h.countBound, by simpa using h.bitBound, by simpa using h.nodeReached,
    by simpa using h.nodeInternal, by simpa using h.soutWritten⟩

theorem BuffersInv.decDin {s : State} (hb : BuffersInv s) (j : Nat) : BuffersInv (s.decDin j).2 :=
  ⟨by simpa using hb.1, by simpa using hb.2, by simpa using hb.3, by simpa using hb.4, by simpa using hb.5,
    by simpa using hb.6, by simpa using hb.7, by simpa using hb.8, by simpa using hb.9, by simpa using hb.10⟩

theorem DecInv.decDin {s : State} (h : DecInv s) (j : Nat) : DecInv (s.decDin j).2 :=
  ⟨by simpa using h.1, by simpa using h.2, by simpa using h.3, by simpa using h.4, by simpa using h.5,
    by simpa using h.6, by simpa using h.7, by simpa using h.8, fun a b => (h.running (by simpa using a) (by simpa using b)).decDin j⟩

theorem TablesInv.decDin {s : State} (h : TablesInv s) (j : Nat) : TablesInv (s.decDin j).2 :=
  ⟨by simpa using h.1, by simpa using h.2, by simpa using h.3, by simpa using h.4⟩

/-- A failing call keeps the invariant. -/
theorem decRaise_inv {s : State} (hb : BuffersInv s) (h : DecInv s) (hbusy : s.dec.stat.state = .busy) (e : ErrCode)
    (n : Nat) (he : e = .emptyPayload ∨ e = .truncatedPayload ∨ e = .headerRange ∨ e = .noChild) :
    DecInv (s.decRaise e n) ∧ BuffersInv (s.decRaise e n) :=
  ⟨⟨by simp, by simp, by simp, fun _ => by simpa using he, by simp [h.noLength (by simp [hbusy])], by simp, h.bpFits,
    h.nodeFits, by simp⟩, ⟨hb.1, hb.2, hb.3, hb.4, hb.5, hb.6, hb.7, hb.8, hb.9, hb.10⟩⟩

theorem decConsume_inv {s : State} (ht : TablesInv s) (hb : BuffersInv s) (h : DecInv s)
    (hbusy : s.dec.stat.state = .busy) (hr : DecRunning s) (hcnt : s.dec.dCnt ≠ s.dec.dN)
    (hbit : s.dec.dBp ≠ 8 * (s.dlen - 1)) (v : Byte) :
    ∃ t, decConsume v s = .next t ∧ DecInv t ∧ BuffersInv t := by
  have htab := h.busyTable hbusy
  obtain ⟨e, he, hk⟩ := hr.nodeInternal
  have hcl : s.dec.dCnt.toNat < s.dec.dN.toNat := by
    have := hr.countBound
    have : s.dec.dCnt.toNat ≠ s.dec.dN.toNat := fun h => hcnt (BitVec.eq_of_toNat_eq h)
    omega
  have hnl := s.dec.dN.isLt
  have hbb : s.dec.dBp + 1 ≤ 8 * (s.dlen - 1) := by have := hr.bitBound; omega
  have hbp : s.dec.dBp + 1 < 2 ^ (s.params.dlenw + 3) := by
    have := hb.dlenFits
    simp only [Params.dincap] at this
    have h2 : 0 < 2 ^ s.params.dlenw := Nat.two_pow_pos _
    rw [Nat.pow_add]; omega
  unfold decConsume decFollow
  simp only [he, hk]
  cases hc : childOf e (bitAt v s.dec.dBp) with
  | none =>
    simp only
    refine ⟨_, rfl, ⟨by simp, by simp, by simp, by simp, by simp [h.noLength (by simp [hbusy])], by simp, hbp,
      h.nodeFits, by simp⟩, ⟨hb.1, hb.2, hb.3, hb.4, hb.5, hb.6, hb.7, hb.8, hb.9, hb.10⟩⟩
  | some c =>
    have hreach : Reach s.tm c := .child hr.nodeReached he hk hc
    obtain ⟨f, hf⟩ := wfTM_reach htab hreach
    have hff := Memory.all_read ht.tmFits hf
    have hef := Memory.all_read ht.tmFits he
    simp only [tmEntryFits, Bool.and_eq_true, decide_eq_true_eq] at hff hef
    simp only [decArrive, hf]
    cases hkf : f.kind with
    | internal =>
      simp only
      have hcf : c < 2 ^ s.params.nidw := by
        simp only [childOf] at hc
        split at hc <;> split at hc <;> simp_all
      exact ⟨_, rfl, ⟨h.1, h.2, h.3, h.4, h.5, h.6, hbp, hcf,
        fun _ _ => ⟨hr.1, hr.2, hbb, hreach, ⟨f, hf, hkf⟩, hr.6⟩⟩,
        ⟨hb.1, hb.2, hb.3, hb.4, hb.5, hb.6, hb.7, hb.8, hb.9, hb.10⟩⟩
    | leaf =>
      simp only
      rw [if_pos (by simp only [Config.soutcap]; omega)]
      have hsucc : (s.dec.dCnt + 1).toNat = s.dec.dCnt.toNat + 1 := by
        simp only [BitVec.toNat_add, BitVec.ofNat_eq_ofNat, BitVec.toNat_ofNat]; omega
      obtain ⟨r, hr0, hrk⟩ := wfTM_root htab
      refine ⟨_, rfl, ⟨h.1, h.2, h.3, h.4, h.5, fun hd => absurd hd (by simp [hbusy]), hbp, Nat.two_pow_pos _,
        fun _ _ => ⟨hr.1, ?_, hbb, .root, ⟨r, hr0, hrk⟩, ?_⟩⟩,
        ⟨hb.1, hb.2, hb.3, hb.4, hb.5, hb.6, Memory.wf_write _ _ hb.7, Memory.all_write hb.8 ?_, hb.9, hb.10⟩⟩
      · show (s.dec.dCnt + 1).toNat ≤ s.dec.dN.toNat
        rw [hsucc]
        omega
      · show ((s.dec.sout.write s.dec.dCnt.toNat f.sym).written (s.dec.dCnt + 1).toNat) = true
        rw [hsucc]
        exact Memory.written_write_succ _ hr.soutWritten
      · simp only [Bool.and_eq_true, decide_eq_true_eq, Config.soutcap]
        exact ⟨decide_eq_true (Nat.lt_of_lt_of_le hcl (Nat.le_of_lt_succ hnl)), hff.2.1⟩

/-- A step of DEC from the invariant: it goes on, and DEC's part of the invariant and its buffer's hold after it. -/
theorem decStep_inv {s : State} (ht : TablesInv s) (hb : BuffersInv s) (h : DecInv s)
    (hbusy : s.dec.stat.state = .busy) : ∃ t, decStep s = .next t ∧ DecInv t ∧ BuffersInv t := by
  have hne := h.noError (by simp [hbusy])
  unfold decStep
  rw [if_pos (by simp [hbusy])]
  cases hp : s.dec.dPh with
  | hdr =>
    simp only [decHdr]
    split
    · exact ⟨_, rfl, decRaise_inv hb h hbusy _ _ (.inl rfl)⟩
    · next hd =>
      have h' := h.decDin 0
      have hb' := hb.decDin 0
      have hbusy' : (s.decDin 0).2.dec.stat.state = .busy := by simpa using hbusy
      have hd' : (s.decDin 0).2.dlen ≠ 0 := by simpa using hd
      generalize (s.decDin 0).2 = s' at *
      generalize (s.decDin 0).1 = v
      unfold decHeader
      split
      · exact ⟨_, rfl, decRaise_inv hb' h' hbusy' _ _ (.inr (.inr (.inl rfl)))⟩
      · obtain ⟨r, hr0, hrk⟩ := wfTM_root (h'.busyTable hbusy')
        refine ⟨_, rfl, ⟨h'.1, h'.2, h'.3, h'.4, h'.5, fun hd => absurd hd (by simp [hbusy']), Nat.two_pow_pos _,
          Nat.two_pow_pos _, fun _ _ => ⟨Nat.pos_of_ne_zero hd', by simp, by simp, .root, ⟨r, hr0, hrk⟩, by simp⟩⟩,
          ⟨hb'.1, hb'.2, hb'.3, hb'.4, hb'.5, hb'.6, hb'.7, hb'.8, hb'.9, hb'.10⟩⟩
  | walk =>
    have hr := h.running hbusy hp
    simp only [decWalk]
    split
    · next hc =>
      have hn := s.dec.dN.isLt
      have hz : (s.dec.dN.zeroExtend 8).toNat = s.dec.dN.toNat := by simp; omega
      refine ⟨_, rfl, ⟨by simp, by simp, fun _ => hne, by simp, by simp, fun _ => ⟨?_, ?_⟩, h.bpFits, h.nodeFits,
        by simp⟩, ⟨hb.1, hb.2, hb.3, hb.4, hb.5, hb.6, hb.7, hb.8, hb.9, hb.10⟩⟩
      · show (s.dec.dN.zeroExtend 8).toNat ≤ 127
        omega
      · show s.dec.sout.written (s.dec.dN.zeroExtend 8).toNat = true
        rw [hz, ← hc]; exact hr.soutWritten
    · next hc =>
      split
      · exact ⟨_, rfl, decRaise_inv hb h hbusy _ _ (.inr (.inl rfl))⟩
      · next hbit =>
        have hbb := hr.bitBound
        have hdl := hb.dlenFits
        have hidx : s.dinIndex < s.params.dincap := by unfold State.dinIndex; omega
        rw [if_pos hidx]
        exact decConsume_inv (ht.decDin _) (hb.decDin _) (h.decDin _) (by simpa using hbusy)
          (hr.decDin _) (by simpa using hc) (by simpa using hbit) _

end Sys2Proof.Machine
end

