-- ==== Sys2Proof/Laws/PerInstr.lean ====
section
/-! SUPPORT. Statements about every command, one lemma per constructor of `Instr`. -/

namespace Sys2Proof.Laws.Encoding

/-- R60 and R62 for one command: it is well formed, its word is a well-formed command word that decodes to it whole or
as a table word, and exactly one row of the table holds it, with that word as `match` and no bit left out of `mask`. -/
def Statement (i : Instr) : Prop :=
  i.wf = true ∧ commandWordWf (encode i).toNat = true ∧ decode (encode i) = .command i ∧
    decodeTableWord 8 (encode i).toNat = some i ∧
    opcodeTable.filter (fun r => r.instr = i) = [{ instr := i, matchBits := encode i, mask := 0xFF#8 }]

theorem nop : Statement .nop := by unfold Statement; decide
theorem lock : Statement .lock := by unfold Statement; decide
theorem compress : Statement .compress := by unfold Statement; decide
theorem decompress : Statement .decompress := by unfold Statement; decide

end Sys2Proof.Laws.Encoding
end

