-- ==== Sys2Proof/Tests/Slice0.lean ====
section
/-! SUPPORT. Tests of the model against spec/95_test_vectors.md and the spec's worked examples, and for every obligation
with hypotheses a concrete witness that meets them together. -/

namespace Sys2Proof.Machine

/-- A part of the state a step answers. -/
def after {α : Type} (o : Host.Outcome State Fault Refusal) (f : State → α) : Option α :=
  match o with
  | .next t => some (f t)
  | .fault _ => none
  | .refused _ => none

/-- Does a step answer with this refusal? -/
def refusedWith (o : Host.Outcome State Fault Refusal) (r : Refusal) : Bool :=
  match o with
  | .next _ => false
  | .fault _ => false
  | .refused q => q == r

def leafNode (v : Sym) : TMEntry := { kind := .leaf, sym := v, lv := false, left := 0, rv := false, right := 0 }
def pairNode (l r : NodeId) : TMEntry := { kind := .internal, sym := 0, lv := true, left := l, rv := true, right := r }
def leftNode (l : NodeId) : TMEntry := { kind := .internal, sym := 0, lv := true, left := l, rv := false, right := 0 }
def emptyNode : TMEntry := { kind := .internal, sym := 0, lv := false, left := 0, rv := false, right := 0 }
def codeEntry (q : Bits) : CTEntry := { valid := true, code := q }

/-- Row K3 of the vectors: the tables of "AB". -/
def abTm : Memory TMEntry := [(0, pairNode 1 2), (1, leafNode 65), (2, leafNode 66)]
def abCt : Memory CTEntry := [(65, codeEntry [false]), (66, codeEntry [true])]

/-- Row K5 of the vectors: the tables of "ABBBCC". -/
def abcTm : Memory TMEntry :=
  [(0, pairNode 1 2), (1, leafNode 66), (2, pairNode 3 4), (3, leafNode 65), (4, leafNode 67)]
def abcCt : Memory CTEntry := [(65, codeEntry [true, false]), (66, codeEntry [false]), (67, codeEntry [true, true])]

/-- Row K2 of the vectors: the trie of seventeen times "A". -/
def aTm : Memory TMEntry := [(0, leftNode 1), (1, leafNode 65)]

/-- The K3 tables in CONFIG mode. -/
def config : State := { State.reset with ct := abCt, tm := abTm }

/-- The K3 tables locked, the message "AB" and the payload of vector X1 written. -/
def ready : State :=
  { config with
    gstat := { lock := true, illcmd := false, illacc := false }
    msg := [(0, 65), (1, 66)], mlen := 2, din := [(0, 0x02#8), (1, 0x40#8)], dlen := 2 }

/-- Both calls accepted. -/
def launched : State := ready.encStart.decStart

/-- Both calls running: ENC has put out the header and the first symbol, DEC has read the header. -/
def running : State :=
  { launched with
    enc := { launched.enc with ePh := .sym, eI := 1, eAcc := 0, eNb := 1, eWp := 1, pay := [(0, 0x02#8)] }
    dec := { launched.dec with dPh := .walk, dN := 2, dCnt := 0, dBp := 0, dNode := 0 } }

/-- ENC's call done, as vector E1 says. -/
def encDone : State :=
  { ready with
    enc := { ready.enc with
      stat := { state := .done, err := .none, info := 0 }, ePh := .flush, eI := 2, eAcc := 1, eNb := 2, eWp := 2,
      plen := 2, pay := [(0, 0x02#8), (1, 0x40#8)] } }

/-- DEC's call done, as vector X1 says. -/
def decDone : State :=
  { ready with
    dec := { ready.dec with
      stat := { state := .done, err := .none, info := 0 }, dPh := .walk, dN := 2, dCnt := 2, dBp := 2, dNode := 0,
      slen := 2, sout := [(0, 65), (1, 66)] } }

/-- A state whose next step performs one host transaction. -/
def issue (x : HostTxn) (s : State) : State := { s with script := [.txn x], sched := [.host] }

/-! ### Well-formedness and decoding -/

theorem test_wf_refuses_reserved_word : commandWordWf 0x04 = false := by decide
theorem test_wf_refuses_high_bit : commandWordWf 0x80 = false := by decide
theorem test_wf_refuses_wide_word : commandWordWf 0x100 = false := by decide
theorem test_wf_accepts_commands : (List.range 4).all commandWordWf = true := by decide

/-- R42: one ill-formed transaction of each kind, at the first index or value that does not fit. -/
theorem test_wf_refuses_transactions :
    ([.writeCT 256 (codeEntry [true]), .writeCT 65 (codeEntry (zeros 256)), .writeTM 511 (leafNode 65),
      .writeTM 0 (leafNode 256), .writeTM 0 (pairNode 512 1), .writeTM 0 (pairNode 1 512), .writeBuf .msg 127 65,
      .writeBuf .msg 0 256, .writeBuf .din 4095 0, .writeBuf .din 0 256, .writeBuf .pay 4050 0, .writeBuf .sout 127 0,
      .read .ct 256, .read .tm 511, .read (.buf .msg) 127, .read (.buf .sout) 127, .writeReg .cmd 256,
      .writeReg .mlen 65536, .writeReg .dlen 4096, .writeReg .einfo 65536] : List HostTxn).all
      (fun x => !txnFits .reference x) = true := by decide +kernel

/-- The sizes R4 gives at the reference parameters. -/
theorem test_reference_sizes :
    Params.reference.nsym = 256 ∧ Params.reference.maxlen = 255 ∧ Params.reference.nnode = 511 ∧
      Params.reference.nidw = 9 ∧ Params.reference.paybits = 32385 ∧ Params.reference.paycap = 4050 ∧
      Params.reference.dlenw = 12 ∧ Params.reference.dincap = 4095 := by decide

theorem test_decode_nop : decode 0b00000000#8 = .command .nop := by decide
theorem test_decode_lock : decode 0b00000001#8 = .command .lock := by decide
theorem test_decode_compress : decode 0b00000010#8 = .command .compress := by decide
theorem test_decode_decompress : decode 0b00000011#8 = .command .decompress := by decide
theorem test_decode_reserved : decode 0b00000100#8 = .reserved 4 ∧ decode 0b11111111#8 = .reserved 255 := by decide

/-! ### One step on a small state -/

/-- Row Y4, through the fetch: NOP first after reset changes nothing. -/
theorem test_step_nop : after (step (State.reset.withFetchWord 8 0)) (· == State.reset) = some true := by decide

/-- Rows Y7 and Y8, from R141's example. -/
theorem test_step_lock : after (step (config.withFetchWord 8 1)) (·.gstat.word) = some 0x01 := by decide
theorem test_lock_twice : after (exec .lock ready) (·.gstat.word) = some 0x03 := by decide

/-- Row Y5: COMPRESS after reset is illegal and ESTAT stays 0. -/
theorem test_compress_in_config :
    after (exec .compress .reset) (fun t => (t.gstat.word, t.enc.stat.word)) = some (0x02, 0x00) := by decide

/-- R110: acceptance through the fetch. -/
theorem test_step_compress :
    after (step (ready.withFetchWord 8 2)) (fun t => (t.enc.stat.word, t.enc.plen, t.gstat.word)) =
      some (0x01, 0, 0x01) := by decide

/-- Row Y6, and R130: acceptance through the fetch. -/
theorem test_decompress_in_config :
    after (exec .decompress .reset) (fun t => (t.gstat.word, t.dec.stat.word)) = some (0x02, 0x00) := by decide
theorem test_step_decompress :
    after (step (ready.withFetchWord 8 3)) (fun t => (t.dec.stat.word, t.dec.slen, t.gstat.word)) =
      some (0x01, 0, 0x01) := by decide

/-- Row Y9: a reserved word only sets ILLCMD. -/
theorem test_reserved_word :
    after (hostTxn (.writeReg .cmd 0x80) ready) (· == { ready with gstat := { ready.gstat with illcmd := true } }) =
      some true := by decide

/-- Row Y10: a CT write in RUN mode is dropped, and GSTAT reads 0x05. -/
theorem test_ct_frozen :
    after (hostTxn (.writeCT 67 (codeEntry [true, true])) ready) (fun t => (t.gstat.word, t.ct.read 67)) =
      some (0x05, none) := by decide

/-- Row Y14: an input write while ENC is BUSY is dropped. -/
theorem test_msg_protected :
    after (hostTxn (.writeBuf .msg 0 66) running) (fun t => (t.gstat.word, t.msg.read 0)) = some (0x05, some 65) := by
  decide

/-- Row Y18: reset while BUSY. -/
theorem test_reset_while_busy :
    after (hostTxn .reset running) (fun t => (t.gstat.word, t.enc.stat.word, t.enc.plen, t.enc.pay.read 0)) =
      some (0x00, 0x00, 0, none) := by decide

/-- Row E1, the second symbol: bit 1 joins the pending bit 0. -/
theorem test_sym : after (encStep running) (fun t => (t.enc.eI, t.enc.eAcc, t.enc.eNb)) = some (2, 1, 2) := by decide

/-- Row E1, the flush: the byte 0x40, PLEN 2 and DONE. -/
theorem test_flush :
    after (encStep { running with
      enc := { running.enc with ePh := .flush, eI := 2, eAcc := 1, eNb := 2 } })
      (fun t => (t.enc.pay.read 1, t.enc.plen, t.enc.stat.word)) = some (some 0x40, 2, 0x02) := by decide

/-- Row E5: 128 is the smallest length that fails. -/
theorem test_message_too_large :
    after (encStep { launched with mlen := 128 }) (fun t => (t.enc.stat.word, t.enc.stat.info)) = some (0x0B, 128) := by
  decide

/-- Row X1, the first bit: the leaf "A" goes out and the walk is back at the root. -/
theorem test_walk :
    after (decStep running) (fun t => (t.dec.sout.read 0, t.dec.dCnt, t.dec.dBp, t.dec.dNode)) =
      some (some 65, 1, 1, 0) := by decide

/-- Row X10: the header 0x80. -/
theorem test_header_range :
    after (decStep { launched with din := [(0, 0x80#8), (1, 0)] }) (fun t => (t.dec.stat.word, t.dec.stat.info)) =
      some (0x1B, 0x80) := by decide

/-! ### Whole calls and CONSTRUCT, on the vectors -/

/-- Rows E8, E11 and E12. -/
theorem test_compress_vectors :
    compress 6 [65, 66, 66, 66, 67, 67] (codeWord abcCt) = .ok [0x06, 0x87, 0x80] ∧
      compress 4 [67, 67, 67, 67] (codeWord abcCt) = .ok [0x04, 0xFF] ∧
      compress 4 [65, 66, 68, 67] (codeWord abcCt) = .error .unknownSymbol 2 := by decide

/-- Rows X12, X15, X17 and X18. -/
theorem test_decompress_vectors :
    decompress [0x06, 0x87, 0x80] abcTm = .ok [65, 66, 66, 66, 67, 67] ∧
      decompress [0x05, 0x55] abcTm = .error .truncatedPayload 4 ∧
      decompress [0x01, 0x80] aTm = .error .noChild 0 ∧ decompress [0x02, 0x40] aTm = .error .noChild 1 := by decide

/-- Rows K1, K2 and K5. -/
theorem test_construct_vectors :
    imageTM (construct []).1 = [(0, emptyNode)] ∧ imageTM (construct [65, 65]).1 = aTm ∧
      imageTM (construct [65, 66, 66, 66, 67, 67]).1 = abcTm ∧
      imageCT (construct [65, 66, 66, 66, 67, 67]).2 = abcCt := by decide

/-- A LEAF root, a shared node, a cycle, an unwritten child and a repeated symbol are not `WF_TM` (R17). -/
theorem test_ill_formed_tries :
    ([[(0, leafNode 65)], [(0, pairNode 1 1), (1, leafNode 65)], [(0, pairNode 1 2), (1, leafNode 65), (2, pairNode 0 1)],
      [(0, pairNode 1 2), (1, leafNode 65)], [(0, pairNode 1 2), (1, leafNode 65), (2, leafNode 65)],
      [(0, leftNode 0)], []] : List (Memory TMEntry)).all (fun tm => !wfTM .reference tm) = true ∧
    wfTM .reference abcTm = true ∧ wfTM .reference aTm = true ∧ wfTM .reference [(0, emptyNode)] = true := by decide

/-- R18 and R89: the tree of a LEAF root has the empty path to its symbol, so an empty map is not consistent with it. -/
theorem test_leaf_root_path : leafAt [(0, leafNode 65)] 0 [] = some 65 ∧ codeWord [] 65 = none := by decide

/-- R142 and row Y19: a LOCK on tables never written is refused, and the K3 tables are locked. -/
theorem test_lock_needs_tables :
    refusedWith (step (State.reset.withFetchWord 8 1)) .illFormedLock = true ∧
      after (exec .lock config) (·.gstat.word) = some 0x01 := by decide

/-- Row Y2: a CT entry never written reads valid = 0. -/
theorem test_read_unwritten_ct :
    (readElement .ct 67 ready).replies.map (fun r => match r with
      | .ct v e => (v, e.valid)
      | .tm _ _ => (0, true)
      | .elem _ _ _ => (0, true)
      | .reg _ _ => (0, true)) = [(67, false)] := by decide

/-! ### Facts about the states above that the witnesses share -/

theorem abTm_read {n : NodeId} {e : TMEntry} (h : abTm.read n = some e) :
    (n = 0 ∧ e = pairNode 1 2) ∨ (n = 1 ∧ e = leafNode 65) ∨ (n = 2 ∧ e = leafNode 66) := by
  have := Memory.mem_of_read h
  simpa [abTm] using this

theorem abTm_child {n c : NodeId} {e : TMEntry} {b : Bool} (h : abTm.read n = some e) (hk : e.kind = .internal)
    (hc : childOf e b = some c) : n = 0 ∧ ((b = false ∧ c = 1) ∨ (b = true ∧ c = 2)) := by
  rcases abTm_read h with ⟨rfl, rfl⟩ | ⟨rfl, rfl⟩ | ⟨rfl, rfl⟩
  · cases b <;> simp_all [childOf, pairNode]
  · simp [leafNode] at hk
  · simp [leafNode] at hk

theorem abTm_reach {n : NodeId} (h : Reach abTm n) : n = 0 ∨ n = 1 ∨ n = 2 := by
  induction h with
  | root => simp
  | child _ hw hk hc _ => rcases abTm_child hw hk hc with ⟨-, ⟨-, rfl⟩ | ⟨-, rfl⟩⟩ <;> simp

theorem ab_wfTM : WfTM .reference abTm := by
  refine .inr (.inr ⟨⟨pairNode 1 2, by decide, by decide⟩, ?_, ?_, ?_, ?_⟩)
  · intro n h
    rcases abTm_reach h with rfl | rfl | rfl
    · exact ⟨by decide, pairNode 1 2, by decide, by decide⟩
    · exact ⟨by decide, leafNode 65, by decide, by decide⟩
    · exact ⟨by decide, leafNode 66, by decide, by decide⟩
  · intro n e b _ hr hk hc
    rcases abTm_child hr hk hc with ⟨-, ⟨-, h⟩ | ⟨-, h⟩⟩ <;> exact absurd h (by decide)
  · intro m n e f b d c _ _ he hf hke hkf hc hd
    rcases abTm_child he hke hc with ⟨rfl, ⟨rfl, rfl⟩ | ⟨rfl, rfl⟩⟩ <;>
      rcases abTm_child hf hkf hd with ⟨rfl, ⟨rfl, h⟩ | ⟨rfl, h⟩⟩ <;> simp_all
  · intro m n e f _ _ he hf hke hkf hs
    rcases abTm_read he with ⟨rfl, rfl⟩ | ⟨rfl, rfl⟩ | ⟨rfl, rfl⟩ <;>
      rcases abTm_read hf with ⟨rfl, rfl⟩ | ⟨rfl, rfl⟩ | ⟨rfl, rfl⟩ <;> simp_all [leafNode, pairNode]

theorem ab_wfCT : WfCT .reference abCt := by
  intro s e h _
  have := Memory.mem_of_read h
  simp only [abCt, List.mem_cons, Prod.mk.injEq, List.not_mem_nil, or_false] at this
  rcases this with ⟨-, rfl⟩ | ⟨-, rfl⟩ <;> decide

/-- The paths of the K3 trie: the root, its two leaves, and nothing below them. -/
theorem abTm_paths (q : Bits) (s : Sym) :
    leafAt abTm 0 q = some s ↔ (s = 65 ∧ q = [false]) ∨ (s = 66 ∧ q = [true]) := by
  match q with
  | [] => exact ⟨fun h => absurd h (by simp [show leafAt abTm 0 [] = none by decide]), by simp⟩
  | [false] => simp [show leafAt abTm 0 [false] = some 65 by decide, eq_comm]
  | [true] => simp [show leafAt abTm 0 [true] = some 66 by decide, eq_comm]
  | false :: b :: r =>
    have : leafAt abTm 0 (false :: b :: r) = none := rfl
    simp [this]
  | true :: b :: r =>
    have : leafAt abTm 0 (true :: b :: r) = none := rfl
    simp [this]

theorem ab_consistent : Consistent abCt abTm := by
  intro s q
  rw [abTm_paths]
  simp only [codeWord, abCt, Memory.read_cons, Memory.read_nil]
  by_cases ha : s = 65
  · subst ha; simp [codeEntry, eq_comm]
  · by_cases hb : s = 66
    · subst hb; simp [codeEntry, eq_comm]
    · simp [Ne.symm ha, Ne.symm hb, ha, hb]

theorem ready_inv : ready.Inv :=
  { params := by decide
    tables := ⟨by decide, by decide, by decide, by decide⟩
    buffers := ⟨by decide, by decide, by decide, by decide, by decide, by decide, by decide, by decide, by decide,
      by decide⟩
    enc := ⟨by decide, by decide, by decide, by decide, by decide, by decide, by decide, fun h => absurd h (by decide)⟩
    dec := ⟨by decide, by decide, by decide, by decide, by decide, by decide, by decide, by decide,
      fun h => absurd h (by decide)⟩ }

theorem running_encRunning : EncRunning running :=
  ⟨by decide, by decide, by decide, by decide, by decide, by decide, by decide⟩

theorem running_inv : running.Inv :=
  { params := by decide
    tables := ⟨by decide, by decide, by decide, by decide⟩
    buffers := ⟨by decide, by decide, by decide, by decide, by decide, by decide, by decide, by decide, by decide,
      by decide⟩
    enc := ⟨by decide, by decide, by decide, by decide, by decide, by decide, by decide, fun _ _ => running_encRunning⟩
    dec := ⟨by decide, by decide, by decide, by decide, by decide, by decide, by decide, by decide,
      fun _ _ => ⟨by decide, by decide, by decide, .root, ⟨pairNode 1 2, by decide, by decide⟩, by decide⟩⟩ }

/-! ### Witnesses: states and operands that meet the hypotheses of each obligation -/

/-- Words 3 and 4 stand on the two sides of the boundary, 0 and 255 at the ends. -/
theorem witness_reserved_words : 0 < 4 ∧ 3 < 4 ∧ 4 ≤ 4 ∧ 4 < 256 ∧ 4 ≤ 255 ∧ 255 < 256 := by decide

theorem witness_step_runs :
    3 < 256 ∧ decode (BitVec.ofNat 8 3) = .command .decompress ∧
      (issue (.writeReg .cmd 3) ready).nextAgent = some (.host, []) ∧
      (issue (.writeReg .cmd 3) ready).script = [.txn (.writeReg .cmd 3)] := by decide

theorem witness_lock :
    config.ct.wf = true ∧ config.gstat.lock = false ∧ WfCT config.params config.ct ∧ WfTM config.params config.tm ∧
      ready.ct.wf = true ∧ ready.gstat.lock = true :=
  ⟨by decide, by decide, ab_wfCT, ab_wfTM, by decide, by decide⟩

theorem witness_compress :
    ready.gstat.lock = true ∧ ready.enc.stat.state ≠ .busy ∧ ready.ct.wf = true ∧ WfCT ready.params ready.ct :=
  ⟨by decide, by decide, by decide, ab_wfCT⟩

theorem witness_decompress :
    ready.gstat.lock = true ∧ ready.dec.stat.state ≠ .busy ∧ WfTM ready.params ready.tm :=
  ⟨by decide, by decide, ab_wfTM⟩

/-- The three refusals happen: an empty code word (U10), and a trie never written. -/
theorem witness_refused :
    let s : State := { ready with ct := [(65, codeEntry [])], tm := [] }
    s.ct.wf = true ∧ refusedWith (exec .lock { s with gstat := config.gstat }) .illFormedLock = true ∧
      refusedWith (exec .compress s) .illFormedCodeTable = true ∧
      refusedWith (exec .decompress s) .illFormedTrie = true := by decide

theorem witness_commands_next :
    exec .nop ready = .next ready ∧ exec .lock config = .next config.setLock ∧
      exec .compress ready = .next ready.encStart ∧ exec .decompress ready = .next ready.decStart :=
  ⟨rfl, rfl, rfl, rfl⟩

/-- Each clause of R163's list, and a step over which the flag rises and one over which it stays. -/
theorem witness_illegal_commands :
    config.illegalWord 4 = true ∧ config.illegalWord 255 = true ∧ ready.illegalWord 1 = true ∧
      config.illegalWord 2 = true ∧ running.illegalWord 2 = true ∧ config.illegalWord 3 = true ∧
      running.illegalWord 3 = true ∧
      after (step (issue (.writeReg .cmd 2) config)) (·.gstat.illcmd) = some true ∧
      after (step (issue (.writeReg .cmd 0) config.setIllCmd)) (·.gstat.illcmd) = some true := by decide

/-- Each clause of R164's list, and a step over which the flag rises. -/
theorem witness_illegal_accesses :
    ([.writeCT 255 (codeEntry [true]), .writeTM 510 (leafNode 65), .writeBuf .msg 126 65, .writeBuf .din 4094 255,
      .writeBuf .pay 4049 0, .writeBuf .sout 126 65, .writeReg .mlen 65535, .writeReg .dlen 4095, .writeReg .gstat 0,
      .writeReg .estat 0, .writeReg .einfo 0, .writeReg .plen 0, .writeReg .dstat 0, .writeReg .dinfo 0,
      .writeReg .slen 0] : List HostTxn).all
      (fun x => txnFits running.params x && running.illegalAccess x) = true ∧
    after (step (issue (.writeReg .slen 0) running)) (·.gstat.illacc) = some true ∧
    after (step (issue (.writeReg .cmd 0) running.setIllAcc)) (·.gstat.illacc) = some true := by decide

theorem witness_raise :
    EncInv running ∧ running.enc.stat.state = .busy ∧ DecInv running ∧ running.dec.stat.state = .busy :=
  ⟨running_inv.enc, by decide, running_inv.dec, by decide⟩

/-- Each of the six errors is raised by a step of a BUSY unit. -/
theorem witness_errors :
    after (encStep { running with msg := [(0, 65), (1, 67)] }) (·.enc.stat.err) = some .unknownSymbol ∧
      after (encStep { launched with mlen := 128 }) (·.enc.stat.err) = some .messageTooLarge ∧
      after (decStep { launched with dlen := 0 }) (·.dec.stat.err) = some .emptyPayload ∧
      after (decStep { launched with din := [(0, 255)] }) (·.dec.stat.err) = some .headerRange ∧
      after (decStep { running with dlen := 1 }) (·.dec.stat.err) = some .truncatedPayload ∧
      after (decStep { running with tm := [(0, emptyNode)] }) (·.dec.stat.err) = some .noChild := by decide

theorem witness_frozen_tables :
    ready.gstat.lock = true ∧ step (issue (.writeCT 67 (codeEntry [true])) ready) =
      .next { ready.setIllAcc with script := [], sched := [] } ∧
      (issue (.writeCT 67 (codeEntry [true])) ready).nextTxn ≠ some .reset :=
  ⟨by decide, rfl, by decide⟩

theorem witness_reset_parameters : Params.ok .reference = true ∧ Params.ok { symw := 1, mlenw := 8 } = true := by decide

/-- The invariant holds of a state with both units in the middle of a call, and its step goes on. -/
theorem witness_invariant : running.Inv ∧ ∃ t, step running = .next t := ⟨running_inv, _, rfl⟩

/-- The invariant holds of a state with written tables and buffers. -/
theorem witness_invariant_ready : ready.Inv ∧ ∃ t, step (issue .reset ready) = .next t := ⟨ready_inv, _, rfl⟩

theorem witness_unit_steps :
    running.enc.stat.state = .busy ∧ running.dec.stat.state = .busy ∧ (∃ t, encStep running = .next t) ∧
      ∃ t, decStep running = .next t :=
  ⟨by decide, by decide, ⟨_, rfl⟩, ⟨_, rfl⟩⟩

theorem witness_quiescent : State.reset.nextAgent = none ∧ running.nextAgent ≠ none := by decide

theorem witness_agents :
    { running with sched := [.enc] }.nextAgent = some (.enc, []) ∧
      { running with sched := [.dec] }.nextAgent = some (.dec, []) ∧
      (issue (.writeReg .mlen 3) running).nextAgent = some (.host, []) ∧
      (issue (.writeReg .mlen 3) running).nextTxn = some (.writeReg .mlen 3) ∧
      (issue (.writeReg .mlen 3) running).script ≠ [] := by decide

theorem witness_steps_of_each_agent :
    (∃ t, step { running with sched := [.enc] } = .next t) ∧ (∃ t, step { running with sched := [.dec] } = .next t) ∧
      ∃ t, step (issue (.writeReg .mlen 3) running) = .next t :=
  ⟨⟨_, rfl⟩, ⟨_, rfl⟩, ⟨_, rfl⟩⟩

/-- The first index and the first value that do not fit, of each kind. -/
theorem witness_outside_the_block :
    Params.reference.nsym ≤ 256 ∧ Params.reference.nnode ≤ 511 ∧ 2 ^ Params.reference.symw ≤ (leafNode 256).sym ∧
      2 ^ Params.reference.nidw ≤ (pairNode 512 1).left ∧ 2 ^ Params.reference.nidw ≤ (pairNode 1 512).right ∧
      bufferSize .reference .msg ≤ 127 ∧ 2 ^ bufferWidth .reference .din ≤ 256 ∧ spaceSize .reference .ct ≤ 256 ∧
      2 ^ regWidth .reference .mlen ≤ 65536 := by decide
theorem witness_code_word_too_long : Params.reference.maxlen < (codeEntry (zeros 256)).len := by decide +kernel

/-- The last index and the last value that fit, in the modes in which the write is honoured. -/
theorem witness_honoured_writes :
    config.gstat.lock = false ∧ txnFits config.params (.writeCT 255 (codeEntry [true])) = true ∧
      txnFits config.params (.writeTM 510 (pairNode 511 511)) = true ∧ ready.enc.stat.state ≠ .busy ∧
      txnFits ready.params (.writeBuf .msg 126 255) = true ∧ ready.dec.stat.state ≠ .busy ∧
      txnFits ready.params (.writeBuf .din 4094 255) = true ∧ 65535 < 2 ^ ready.params.mlenw ∧
      4095 < 2 ^ ready.params.dlenw := by decide

theorem witness_reads :
    txnFits ready.params (.read .tm 510) = true ∧ txnFits ready.params (.read (.buf .pay) 4049) = true ∧
      txnFits ready.params (.readReg .cmd) = true := by decide

theorem witness_read_values :
    ready.ct.read 65 = some (codeEntry [false]) ∧ ready.ct.read 255 = none ∧ ready.tm.read 2 = some (leafNode 66) ∧ ready.msg.read 1 = some 66 ∧
      ready.din.read 1 = some 0x40 ∧ encDone.enc.stat.state = .done ∧ 1 < encDone.enc.plen ∧
      encDone.enc.pay.read 1 = some 0x40 ∧ decDone.dec.stat.state = .done ∧ 1 < decDone.dec.slen.toNat ∧
      decDone.dec.sout.read 1 = some 66 := by decide

theorem witness_unfinished :
    running.Inv ∧ running.enc.stat.state ≠ .done ∧ running.dec.stat.state ≠ .done :=
  ⟨running_inv, by decide, by decide⟩

theorem witness_packing : (zeros 8).length = 8 ∧ (zeros 16).length % 8 = 0 := by decide

theorem witness_code_bits :
    ([true, false, false, false, false, true, true, true, true] : Bits)[8]? = some true ∧
      ([true, false, false, false, false, true, true, true, true] : Bits)[0]? = some true := by decide

theorem witness_padding : (zeros 8).length % 8 = 0 ∧ (zeros 9).length ≤ Params.reference.paybits := by decide

/-- A push that only grows the pending bits, and one that completes a byte. -/
theorem witness_push :
    (1 ≤ running.enc.eWp ∧ running.enc.pay.written running.enc.eWp = true ∧
      running.enc.eAcc.toNat < 2 ^ running.enc.eNb.toNat) ∧
    let e : Enc := { running.enc with eAcc := 127, eNb := 7 }
    1 ≤ e.eWp ∧ e.pay.written e.eWp = true ∧ e.eAcc.toNat < 2 ^ e.eNb.toNat := by decide

theorem witness_symbol_step :
    running.enc.stat.state = .busy ∧ running.enc.ePh = .sym ∧ EncRunning running ∧
      wfCT running.params running.ct = true ∧ running.enc.eI.toNat ≠ running.mlen ∧
      running.msg.read running.enc.eI.toNat = some 66 ∧ codeWord running.ct 66 = some [true] :=
  ⟨by decide, by decide, running_encRunning, by decide, by decide, by decide, by decide⟩

theorem witness_compress_results :
    ([65, 66] : List Sym).length = 2 ∧ compress 2 [65, 66] (codeWord abCt) = .ok [0x02, 0x40] ∧
      compress 2 [65, 67] (codeWord abCt) = .error .unknownSymbol 1 := by decide
theorem witness_compress_too_large :
    (List.replicate 128 65 : List Sym).length = 128 ∧
      compress 128 (List.replicate 128 65) (codeWord abCt) = .error .messageTooLarge 128 := by decide +kernel

theorem witness_trailing_bits :
    (0x02#8).toNat ≤ 127 ∧ unpackall [0x7F#8] = [false, true] ++ List.replicate 6 true ∧
      walkBits abTm 2 [false, true] 0 0 [] = .ok [65, 66] := by decide

theorem witness_compress_call :
    ready.Inv ∧ ready.gstat.lock = true ∧ ready.enc.stat.state ≠ .busy ∧ WfCT ready.params ready.ct ∧
      MsgWritten ready :=
  ⟨ready_inv, by decide, by decide, ab_wfCT, by unfold MsgWritten; decide⟩

/-- The same with a message that is too long. -/
theorem witness_compress_call_too_large :
    { ready with mlen := 128 }.Inv ∧ { ready with mlen := 128 }.mlen > 127 ∧ MsgWritten { ready with mlen := 128 } :=
  ⟨{ ready_inv with
      buffers := { ready_inv.buffers with mlenFits := by decide }
      tables := { ready_inv.tables with }
      enc := { ready_inv.enc with running := fun h => absurd h (by decide) }
      dec := { ready_inv.dec with running := fun h => absurd h (by decide) } },
    by decide, by unfold MsgWritten; decide⟩

theorem witness_decompress_call :
    ready.Inv ∧ ready.gstat.lock = true ∧ ready.dec.stat.state ≠ .busy ∧ WfTM ready.params ready.tm ∧
      DinWritten ready :=
  ⟨ready_inv, by decide, by decide, ab_wfTM, by unfold DinWritten; decide⟩

/-- Every premise of the round trip, on vectors E1 and X1, with the same state for both calls. -/
theorem witness_round_trip :
    (ready.Inv ∧ ready.gstat.lock = true ∧ ready.enc.stat.state ≠ .busy ∧ ready.dec.stat.state ≠ .busy ∧
      WfCT ready.params ready.ct ∧ WfTM ready.params ready.tm ∧ MsgWritten ready ∧ DinWritten ready) ∧
      Consistent ready.ct ready.tm ∧ exec .compress ready = .next ready.encStart ∧
      runUnit encStep 5 ready.encStart = .next encDone ∧ encDone.enc.stat.state = .done ∧
      encDone.enc.plen ≤ ready.dlen ∧ ready.din.read 0 = encDone.enc.pay.read 0 ∧
      ∀ p, p < ((ready.msg.window ready.mlen).flatMap (fun v => (codeWord ready.ct v).getD [])).length →
        ∃ a b, ready.din.read (1 + p / 8) = some a ∧ encDone.enc.pay.read (1 + p / 8) = some b ∧
          bitAt a p = bitAt b p := by
  refine ⟨⟨ready_inv, by decide, by decide, by decide, ab_wfCT, ab_wfTM, by unfold MsgWritten; decide,
    by unfold DinWritten; decide⟩, ab_consistent, rfl, rfl, by decide, by decide, by decide, fun p hp => ?_⟩
  have hl : ((ready.msg.window ready.mlen).flatMap (fun v => (codeWord ready.ct v).getD [])).length = 2 := by decide
  rw [hl] at hp
  have hd : 1 + p / 8 = 1 := by omega
  rw [hd]
  exact ⟨0x40, 0x40, by decide, by decide, rfl⟩

/-- Each of the five results that are not EmptyPayloadError, on a well-formed trie. -/
theorem witness_decompress_results :
    WfTM .reference abTm ∧ decompress [] abTm = .error .emptyPayload 0 ∧
      decompress [0x80] abTm = .error .headerRange 128 ∧ decompress [0x02, 0x40] abTm = .ok [65, 66] ∧
      decompress [0x09, 0xFF] abTm = .error .truncatedPayload 8 ∧
      (SyntheticRoot .reference aTm ∧ decompress [0x01, 0x80] aTm = .error .noChild 0) :=
  ⟨ab_wfTM, by decide, by decide, by decide, by decide,
    ⟨leftNode 1, leafNode 65, by decide, by decide, by decide, by decide, by decide, by decide, by decide, by decide⟩,
    by decide⟩

/-- Tables and a mode in which both calls are accepted. -/
theorem witness_calls_end :
    ready.Inv ∧ ready.gstat.lock = true ∧ ready.enc.stat.state ≠ .busy ∧ ready.dec.stat.state ≠ .busy ∧
      WfCT ready.params ready.ct ∧ WfTM ready.params ready.tm :=
  ⟨ready_inv, by decide, by decide, by decide, ab_wfCT, ab_wfTM⟩

/-- The right-hand sides of the case analysis on vectors X6 and X17: eight paths and an empty rest, and an absent child
at the root. -/
theorem witness_decompress_cases :
    Decodes abTm (unpackall [0xFF#8]) (List.replicate 8 66) ∧ (innerAt abTm []).isSome = true ∧
      (innerAt aTm []).map (fun e => childOf e true) = some none :=
  ⟨⟨List.replicate 8 [true], by
      have : leafAt abTm 0 [true] = some 66 := by decide
      simp [List.replicate, this], by decide⟩, by decide, by decide⟩

/-- A finished call, and a step about the other unit and one that is the HOST's. -/
theorem witness_finished_call :
    encDone.enc.stat.state ≠ .busy ∧ decDone.dec.stat.state ≠ .busy ∧
      (∃ t, step (issue (.writeReg .cmd 3) encDone) = .next t) ∧
      ¬ ((issue (.writeReg .cmd 3) encDone).nextTxn = some (.writeReg .cmd 0x02) ∧ encDone.gstat.lock = true) ∧
      (∃ t, step (issue (.writeReg .cmd 2) decDone) = .next t) ∧
      ¬ ((issue (.writeReg .cmd 2) decDone).nextTxn = some (.writeReg .cmd 0x03) ∧ decDone.gstat.lock = true) :=
  ⟨by decide, by decide, ⟨_, rfl⟩, by decide, ⟨_, rfl⟩, by decide⟩

/-- The check fails on tables never written and passes on the K3 tables. -/
theorem witness_lock_check :
    State.reset.ct.wf = true ∧ (issue (.writeReg .cmd 1) .reset).nextTxn = some (.writeReg .cmd 0x01) ∧
      State.reset.gstat.lock = false ∧ ¬ WfTM State.reset.params State.reset.tm ∧ config.ct.wf = true ∧
      WfCT config.params config.ct ∧ WfTM config.params config.tm := by
  refine ⟨by decide, by decide, by decide, fun h => ?_, by decide, ab_wfCT, ab_wfTM⟩
  rcases h with ⟨e, he, -⟩ | ⟨e, c, he, -⟩ | ⟨⟨e, he, -⟩, -⟩ <;> cases he

theorem witness_locked_tables :
    ready.ct.wf = true ∧ (ready.gstat.lock = true → WfCT ready.params ready.ct ∧ WfTM ready.params ready.tm) ∧
      ready.gstat.lock = true ∧ ∃ t, step (issue (.writeReg .cmd 1) ready) = .next t :=
  ⟨by decide, fun _ => ⟨ab_wfCT, ab_wfTM⟩, by decide, _, rfl⟩

/-- A canonical table with a zero count among others. -/
theorem witness_zero_count :
    Memory.wf [(65, 3), (66, 0), (67, 1)] = true ∧ Memory.read [(65, 3), (66, 0), (67, 1)] 66 = some 0 ∧
      ((derive (build [(65, 3), (66, 0), (67, 1)])).read 66).isSome = true := by decide

/-- Both tables ill formed and locked, in a step that goes on. -/
theorem witness_ill_formed_tables :
    let s : State := issue (.writeReg .cmd 0) { ready with ct := [(65, codeEntry [])], tm := [(0, leafNode 65)] }
    s.ct.wf = true ∧ s.gstat.lock = true ∧ (∃ t, step s = .next t) ∧ s.nextTxn ≠ some .reset ∧
      ¬ WfCT s.params s.ct ∧ ¬ WfTM s.params s.tm ∧ s.enc.stat.state ≠ .busy ∧ s.dec.stat.state ≠ .busy := by
  refine ⟨by decide, by decide, ⟨_, rfl⟩, by decide, fun h => ?_, fun h => ?_, by decide, by decide⟩
  · exact absurd (h 65 (codeEntry []) (by decide) (by decide)).1 (by decide)
  · have root : ({ ready with tm := [(0, leafNode 65)] } : State).tm.read 0 = some (leafNode 65) := by decide
    rcases h with ⟨e, he, hk, -⟩ | ⟨e, c, he, hk, -⟩ | ⟨⟨e, he, hk⟩, -⟩ <;>
      exact absurd ((Option.some.inj (he.symm.trans root)) ▸ hk) (by decide)

/-- Premises of the clauses on the empty and the one-symbol table. -/
theorem witness_degenerate : 1 ≤ 17 ∧ ([65] : List Sym) ≠ [] ∧ ([65] : List Sym).length ≤ 127 ∧ 0 < (0x01#8).toNat ∧
    0 < (0x7F#8).toNat ∧ (0x7F#8).toNat ≤ 127 := by decide

/-- Reset from a running state, and a step that is no reset in a state with LOCK and both flags set. -/
theorem witness_reset :
    (∃ t, hostTxn .reset running = .next t) ∧
      (∃ t, step (issue (.writeReg .cmd 0) ready.setIllCmd.setIllAcc) = .next t) ∧
      (issue (.writeReg .cmd 0) ready.setIllCmd.setIllAcc).nextTxn ≠ some .reset ∧
      ready.setIllCmd.setIllAcc.gstat = { lock := true, illcmd := true, illacc := true } :=
  ⟨⟨_, rfl⟩, ⟨_, rfl⟩, by decide, by decide⟩

theorem witness_table_checks :
    wfTM .reference abTm = true ∧ abCt.wf = true ∧ wfCT .reference abCt = true := by decide

/-- Corpora that fit, with none, one and two symbols, and two code words of one map. -/
theorem witness_corpora :
    Params.ok .reference = true ∧ (∀ s ∈ ([] : List Sym), s < Params.reference.nsym) ∧
      (∀ s ∈ ([65, 65] : List Sym), s < Params.reference.nsym) ∧
      (∀ s ∈ ([0, 255] : List Sym), s < Params.reference.nsym) ∧
      (construct [65, 66]).2.read 65 = some [false] ∧ (construct [65, 66]).2.read 66 = some [true] ∧
      Params.ok { symw := 1, mlenw := 8 } = true ∧
      ∀ s ∈ ([0, 1] : List Sym), s < Params.nsym { symw := 1, mlenw := 8 } := by decide

end Sys2Proof.Machine
end

section
/-! The packing primitives (spec 00_scope.md R6). A bit sequence and its number are compared bit by bit: bit `k` of the
number is the `k`-th bit of the sequence counted from its end. A sequence of whole bytes is taken apart eight bits at a
time (`wholeBytes_induction`). -/

namespace Sys2Proof.Machine

/-! ### One byte -/

@[simp] theorem bitsToNat_nil : bitsToNat [] = 0 := rfl

theorem bitsToNat_append_singleton (q : Bits) (b : Bool) : bitsToNat (q ++ [b]) = Nat.bit b (bitsToNat q) := by
  simp [bitsToNat, Nat.bit_val]

theorem testBit_bitsToNat (q : Bits) (k : Nat) : (bitsToNat q).testBit k = q.reverse[k]?.getD false := by
  induction q using List.reverseRecOn generalizing k with
  | nil => simp
  | append_singleton q b ih =>
    rw [bitsToNat_append_singleton]
    cases k with
    | zero => simp
    | succ k => simp [Nat.testBit_bit_succ, ih]

@[simp] theorem length_unpack8 (v : Byte) : (unpack8 v).length = 8 := rfl

theorem getElem_unpack8 (v : Byte) (k : Nat) (hk : k < (unpack8 v).length) :
    (unpack8 v)[k] = v.getLsbD (7 - k) := by
  rw [length_unpack8] at hk
  interval_cases k <;> rfl

theorem getLsbD_pack8 {q : Bits} (hq : q.length = 8) {k : Nat} (hk : k < 8) :
    (pack8 q).getLsbD (7 - k) = q[k] := by
  have hrev : q.reverse[7 - k]? = some q[k] := by
    rw [List.getElem?_reverse (by omega), List.getElem?_eq_getElem (by omega)]
    congr 2
    omega
  rw [pack8, BitVec.getLsbD_ofNat, testBit_bitsToNat, hrev]
  simp only [Option.getD_some, Bool.and_eq_right_iff_imp, decide_eq_true_eq]
  omega

theorem unpack8_pack8 {q : Bits} (hq : q.length = 8) : unpack8 (pack8 q) = q := by
  refine List.ext_getElem (by simp [hq]) fun k _ hk => ?_
  rw [getElem_unpack8, getLsbD_pack8 hq (hq ▸ hk)]

@[simp] theorem pack8_unpack8 (v : Byte) : pack8 (unpack8 v) = v := by
  refine BitVec.eq_of_getLsbD_eq fun i hi => ?_
  have hbit : (pack8 (unpack8 v)).getLsbD (7 - (7 - i)) = v.getLsbD (7 - (7 - i)) := by
    rw [getLsbD_pack8 (length_unpack8 v) (by omega), getElem_unpack8]
  rwa [show 7 - (7 - i) = i by omega] at hbit

/-- The sum of R6: bit 7 weighs 128. It stays below 256, so the byte holds it unreduced. -/
theorem toNat_pack8 (b0 b1 b2 b3 b4 b5 b6 b7 : Bool) : (pack8 [b0, b1, b2, b3, b4, b5, b6, b7]).toNat =
    b0.toNat * 128 + b1.toNat * 64 + b2.toNat * 32 + b3.toNat * 16 + b4.toNat * 8 + b5.toNat * 4 + b6.toNat * 2 +
      b7.toNat := by
  have := b0.toNat_le; have := b1.toNat_le; have := b2.toNat_le; have := b3.toNat_le
  have := b4.toNat_le; have := b5.toNat_le; have := b6.toNat_le; have := b7.toNat_le
  simp only [pack8, bitsToNat, List.foldl_cons, List.foldl_nil, BitVec.toNat_ofNat]
  omega

/-! ### Sequences of bytes -/

@[simp] theorem packall_nil : packall [] = [] := rfl

theorem packall_append {q : Bits} (hq : q.length = 8) (r : Bits) : packall (q ++ r) = pack8 q :: packall r :=
  match q, hq with
  | [_, _, _, _, _, _, _, _], _ => rfl

@[simp] theorem unpackall_nil : unpackall [] = [] := rfl

@[simp] theorem unpackall_cons (v : Byte) (bs : List Byte) : unpackall (v :: bs) = unpack8 v ++ unpackall bs := rfl

/-- Induction on a sequence of whole bytes, eight bits at a time. -/
theorem wholeBytes_induction {P : Bits → Prop} (nil : P [])
    (byte : ∀ q r : Bits, q.length = 8 → r.length % 8 = 0 → P r → P (q ++ r))
    (q : Bits) (hq : q.length % 8 = 0) : P q := by
  by_cases hnil : q = []
  · exact hnil ▸ nil
  · have hpos : 0 < q.length := List.length_pos_iff.mpr hnil
    have hrest : (q.drop 8).length % 8 = 0 := by rw [List.length_drop]; omega
    rw [← List.take_append_drop 8 q]
    exact byte _ _ (by rw [List.length_take]; omega) hrest (wholeBytes_induction nil byte _ hrest)
termination_by q.length
decreasing_by rw [List.length_drop]; omega

theorem unpackall_packall {q : Bits} (hq : q.length % 8 = 0) : unpackall (packall q) = q := by
  refine wholeBytes_induction (P := fun q => unpackall (packall q) = q) rfl (fun q r hq _ ih => ?_) q hq
  rw [packall_append hq, unpackall_cons, unpack8_pack8 hq, ih]

theorem length_packall {q : Bits} (hq : q.length % 8 = 0) : (packall q).length = q.length / 8 := by
  refine wholeBytes_induction (P := fun q => (packall q).length = q.length / 8) rfl (fun q r hq _ ih => ?_) q hq
  rw [packall_append hq, List.length_cons, ih, List.length_append, hq]
  omega

@[simp] theorem packall_unpackall (bs : List Byte) : packall (unpackall bs) = bs := by
  induction bs with
  | nil => rfl
  | cons v bs ih => rw [unpackall_cons, packall_append (length_unpack8 v), pack8_unpack8, ih]

/-- Settles O34: the two primitives agree bit by bit, and the sequences byte by byte. -/
theorem packingPrimitivesAreInverse : Obligations.PackingPrimitivesAreInverse :=
  ⟨pack8_unpack8, fun _ => unpack8_pack8, toNat_pack8,
    fun v k hk => ⟨List.getElem?_eq_some_iff.mpr ⟨hk, getElem_unpack8 v k hk⟩, length_unpack8 v⟩,
    ⟨packall_nil, fun _ r hq => packall_append hq r⟩,
    ⟨unpackall_nil, unpackall_cons⟩,
    fun _ hq => ⟨unpackall_packall hq, length_packall hq⟩,
    packall_unpackall⟩

end Sys2Proof.Machine
end

section
/-! RUN mode (spec 10_state.md R19). What a step can be is said once (`step_next`). From RUN mode every agent's step but
a reset leaves the mode and both tables as they are: ENC and DEC write their own columns only (R10), a command that goes
on writes no table, and of the host transactions only a write in CONFIG mode changes an entry. -/

namespace Sys2Proof.Machine

/-! ### What a step can be -/

/-- On the HOST's turn its step is the transaction `nextTxn` names, with the schedule and the script moved on. -/
theorem hostStep_nextTxn {s t : State} {sched : List Agent} (hturn : s.nextAgent = some (.host, sched))
    (h : hostStep { s with sched := sched } = .next t) :
    ∃ txn script, s.nextTxn = some txn ∧ hostTxn txn { s with sched := sched, script := script } = .next t := by
  have hen : s.enabled .host = true := State.nextAgent_enabled hturn
  cases hs : s.script with
  | nil => simp [State.enabled, hs] at hen
  | cons stmt rest =>
    simp only [hostStep, hs] at h
    cases stmt with
    | txn txn => exact ⟨txn, _, by simp [State.nextTxn, hturn, hs], h⟩
    | waitE => exact ⟨.readReg .estat, _, by simp [State.nextTxn, hturn, hs], h⟩
    | waitD => exact ⟨.readReg .dstat, _, by simp [State.nextTxn, hturn, hs], h⟩

/-- What a step that goes on can be: the end of the run, the transaction `nextTxn` names, or a step of a unit. -/
theorem step_next {s t : State} (h : step s = .next t) :
    (s.nextAgent = none ∧ t = s) ∨
      (∃ txn sched script, s.nextTxn = some txn ∧
        hostTxn txn { s with sched := sched, script := script } = .next t) ∨
      (∃ sched, s.nextAgent = some (.enc, sched) ∧ encStep { s with sched := sched } = .next t) ∨
      (∃ sched, s.nextAgent = some (.dec, sched) ∧ decStep { s with sched := sched } = .next t) := by
  obtain ⟨hover, hstep⟩ | ⟨a, sched, hturn, -, ⟨rfl, hstep⟩ | ⟨rfl, hstep⟩ | ⟨rfl, hstep⟩⟩ := step_cases s
  · exact .inl ⟨hover, by simpa [hstep] using h.symm⟩
  · obtain ⟨txn, script, htxn, hrun⟩ := hostStep_nextTxn hturn (hstep ▸ h)
    exact .inr (.inl ⟨txn, sched, script, htxn, hrun⟩)
  · exact .inr (.inr (.inl ⟨sched, hturn, hstep ▸ h⟩))
  · exact .inr (.inr (.inr ⟨sched, hturn, hstep ▸ h⟩))

/-! ### The tables in RUN mode -/

/-- `t` is in RUN mode and has the tables of `s`. -/
structure TablesFrozen (s t : State) : Prop where
  locked : t.gstat.lock = true
  ct : t.ct = s.ct
  tm : t.tm = s.tm

/-- LOCK itself is no exception: it goes on to `setLock` from CONFIG mode only. -/
theorem exec_tablesFrozen {i : Instr} {s t : State} (hlock : s.gstat.lock = true) (h : exec i s = .next t) :
    TablesFrozen s t := by
  obtain rfl | ⟨-, rfl⟩ | ⟨-, hconfig, -⟩ | ⟨-, -, -, -, rfl⟩ | ⟨-, -, -, -, rfl⟩ := exec_next h
  · exact ⟨hlock, rfl, rfl⟩
  · exact ⟨hlock, rfl, rfl⟩
  · simp [hlock] at hconfig
  · exact ⟨hlock, rfl, rfl⟩
  · exact ⟨hlock, rfl, rfl⟩

theorem writeCmd_tablesFrozen {w : Byte} {s t : State} (hlock : s.gstat.lock = true) (h : writeCmd w s = .next t) :
    TablesFrozen s t := by
  obtain ⟨i, hexec⟩ | rfl := writeCmd_next h
  · exact exec_tablesFrozen hlock hexec
  · exact ⟨hlock, rfl, rfl⟩

/-- The two writes that change an entry are honoured in CONFIG mode only (R12, R16), so RUN mode excludes them. -/
theorem hostPerform_tablesFrozen {txn : HostTxn} {s t : State} (hlock : s.gstat.lock = true) (hreset : txn ≠ .reset)
    (h : hostPerform txn s = .next t) : TablesFrozen s t := by
  obtain ⟨r, rfl | rfl⟩ | rfl | ⟨w, hcmd⟩ | ⟨-, -, -, hconfig, -⟩ | ⟨-, -, -, hconfig, -⟩ | ⟨i, v, -, -, rfl⟩ |
    ⟨i, v, -, -, rfl⟩ | ⟨v, -, -, rfl⟩ | ⟨v, -, -, rfl⟩ | ⟨rfl, -⟩ := hostPerform_next h
  · exact ⟨hlock, rfl, rfl⟩
  · exact ⟨hlock, rfl, rfl⟩
  · exact ⟨hlock, rfl, rfl⟩
  · exact writeCmd_tablesFrozen hlock hcmd
  · simp [hlock] at hconfig
  · simp [hlock] at hconfig
  · exact ⟨hlock, rfl, rfl⟩
  · exact ⟨hlock, rfl, rfl⟩
  · exact ⟨hlock, rfl, rfl⟩
  · exact ⟨hlock, rfl, rfl⟩
  · exact absurd rfl hreset

theorem step_tablesFrozen {s t : State} (hlock : s.gstat.lock = true) (h : step s = .next t)
    (hreset : s.nextTxn ≠ some .reset) : TablesFrozen s t := by
  obtain ⟨-, rfl⟩ | ⟨txn, sched, script, htxn, hrun⟩ | ⟨sched, -, henc⟩ | ⟨sched, -, hdec⟩ := step_next h
  · exact ⟨hlock, rfl, rfl⟩
  · have hno : txn ≠ .reset := by rintro rfl; exact hreset htxn
    obtain ⟨hlock', hct, htm⟩ : TablesFrozen { s with sched := sched, script := script } t :=
      hostPerform_tablesFrozen hlock hno (hostTxn_next hrun).2
    exact ⟨hlock', hct, htm⟩
  · rw [encStep_frame henc]
    exact ⟨hlock, rfl, rfl⟩
  · rw [decStep_frame hdec]
    exact ⟨hlock, rfl, rfl⟩

/-- Settles O16: a step in RUN mode that is no reset keeps the mode and both tables, so every entry reads as before. -/
theorem tablesAreFrozenInRunMode : Obligations.TablesAreFrozenInRunMode := by
  intro s t hlock h hreset
  obtain ⟨hlock', hct, htm⟩ := step_tablesFrozen hlock h hreset
  exact ⟨hlock', fun a => by rw [hct, htm]; exact ⟨rfl, rfl⟩⟩

end Sys2Proof.Machine
end

section
/-! The payload format (spec 30_encoding.md R64 to R67): the code bits, completed to whole bytes by zeros, stand packed
behind the header byte. So a payload unpacks to those bits (`unpackall_drop_payloadOf`), and bit `k` of what bytes
unpack to is found in byte `k / 8` (`getElem?_unpackall`). -/

namespace Sys2Proof.Machine

@[simp] theorem length_zeros (n : Nat) : (zeros n).length = n := List.length_replicate

theorem padLen_le (l : Nat) : padLen l ≤ 7 := by
  unfold padLen
  omega

theorem padLen_eq_zero {l : Nat} (h : l % 8 = 0) : padLen l = 0 := by
  unfold padLen
  omega

/-- R66: the padding completes the last byte. -/
theorem add_padLen_mod (l : Nat) : (l + padLen l) % 8 = 0 := by
  unfold padLen
  omega

/-- R67's two forms of the number of packed bytes agree. -/
theorem add_padLen_div (l : Nat) : (l + padLen l) / 8 = (l + 7) / 8 := by
  have := add_padLen_mod l
  have := padLen_le l
  omega

theorem length_padded_mod (q : Bits) : (q ++ zeros (padLen q.length)).length % 8 = 0 := by
  rw [List.length_append, length_zeros]
  exact add_padLen_mod q.length

theorem length_payloadOf (n : Nat) (q : Bits) : (payloadOf n q).length = 1 + (q.length + padLen q.length) / 8 := by
  rw [payloadOf, List.length_cons, length_packall (length_padded_mod q), List.length_append, length_zeros, Nat.add_comm]

theorem unpackall_drop_payloadOf (n : Nat) (q : Bits) :
    unpackall ((payloadOf n q).drop 1) = q ++ zeros (padLen q.length) :=
  unpackall_packall (length_padded_mod q)

/-- Bit `k` of the unpacked bytes is in byte `k / 8`: the first byte, or for `k - 8` a byte of the rest. -/
theorem getElem?_unpackall (bs : List Byte) (k : Nat) :
    (unpackall bs)[k]? = bs[k / 8]?.map (fun v => v.getLsbD (7 - k % 8)) := by
  induction bs generalizing k with
  | nil => simp
  | cons v bs ih =>
    rw [unpackall_cons]
    by_cases hfirst : k < 8
    · have hk : k < (unpack8 v).length := by rwa [length_unpack8]
      rw [List.getElem?_append_left hk, List.getElem?_eq_getElem hk, getElem_unpack8, Nat.div_eq_of_lt hfirst,
        Nat.mod_eq_of_lt hfirst, List.getElem?_cons_zero, Option.map_some]
    · rw [List.getElem?_append_right (by rw [length_unpack8]; omega), length_unpack8, ih,
        show k / 8 = (k - 8) / 8 + 1 by omega, List.getElem?_cons_succ, show k % 8 = (k - 8) % 8 by omega]

/-- Settles O35: the packed part unpacks to the code bits and their padding, so bit `k` is the code bit. -/
theorem codeBitsStandWhereTheFormatSays : Obligations.CodeBitsStandWhereTheFormatSays := by
  intro n q k b hk
  have hbit : (unpackall ((payloadOf n q).drop 1))[k]? = some b := by
    rw [unpackall_drop_payloadOf, List.getElem?_append_left (List.getElem?_eq_some_iff.mp hk).1, hk]
  rwa [getElem?_unpackall, List.getElem?_drop, Option.map_eq_some_iff] at hbit

/-- Settles O36: the packed part unpacks to the padded code bits, and its length is that of whole bytes. -/
theorem paddingAndLengthAreAsTheFormatSays : Obligations.PaddingAndLengthAreAsTheFormatSays := by
  intro n q
  have hlen : (payloadOf n q).length = 1 + (q.length + 7) / 8 := by rw [length_payloadOf, add_padLen_div]
  refine ⟨unpackall_drop_payloadOf n q, rfl, padLen_le _, padLen_eq_zero, length_payloadOf n q, hlen, by omega, ?_⟩
  intro p hp
  rw [hlen, Params.paycap]
  omega

end Sys2Proof.Machine
end

section
/-! Command words (spec 30_encoding.md R60, R61). Every row of R60's table compares the whole byte, and the rows' words
are the four numbers below 4, so from 4 on no row matches. -/

namespace Sys2Proof.Machine

theorem opcodeTable_row : ∀ r ∈ opcodeTable, r.mask = 0xFF#8 ∧ r.matchBits.toNat < 4 := by decide

theorem decode_command_of_lt {w : Nat} (h : w < 4) : ∃ i, decode (BitVec.ofNat 8 w) = .command i := by
  interval_cases w
  · exact ⟨.nop, rfl⟩
  · exact ⟨.lock, rfl⟩
  · exact ⟨.compress, rfl⟩
  · exact ⟨.decompress, rfl⟩

theorem decode_reserved {w : Byte} (h : 4 ≤ w.toNat) : decode w = .reserved w := by
  have hnone : opcodeTable.find? (fun r => w &&& r.mask == r.matchBits) = none := by
    rw [List.find?_eq_none]
    intro r hr hmatch
    obtain ⟨hmask, hlow⟩ := opcodeTable_row r hr
    have hw : w = r.matchBits := by
      rwa [beq_iff_eq, hmask, show (0xFF#8 : Byte) = BitVec.allOnes 8 from rfl, BitVec.and_allOnes] at hmatch
    rw [hw] at h
    omega
  rw [decode, hnone]

/-- Every byte fits CMD, so a write of one is a transaction of the block and performs the word at once (R24, R42). -/
theorem hostTxn_writeCmd {w : Nat} (h : w < 256) (s : State) :
    hostTxn (.writeReg .cmd w) s = writeCmd (BitVec.ofNat 8 w) s :=
  if_pos (decide_eq_true h)

theorem writeCmd_reserved {w : Byte} (h : 4 ≤ w.toNat) (s : State) : writeCmd w s = .next s.setIllCmd := by
  rw [writeCmd, decode_reserved h, illegalCommand]

/-- Settles O3: below 4 each word has its command, and from 4 on the word is reserved and its write sets ILLCMD. -/
theorem reservedWordsOnlySetIllCmd : Obligations.ReservedWordsOnlySetIllCmd := by
  intro w hw
  refine ⟨decode_command_of_lt, fun hreserved => ?_⟩
  have hle : 4 ≤ (BitVec.ofNat 8 w).toNat := by rwa [BitVec.toNat_ofNat, Nat.mod_eq_of_lt hw]
  refine ⟨decode_reserved hle, fun s => ?_⟩
  rw [hostTxn_writeCmd hw, writeCmd_reserved hle, State.setIllCmd]

end Sys2Proof.Machine
end

section
/-! `count` (spec 40_construct.md R81). The corpus is counted from its front, so the table of a corpus with one symbol
more at its end is one write into the table of the corpus (`count_append_singleton`), and the proofs go by induction on
the corpus from its end. -/

namespace Sys2Proof.Machine

theorem count_append_singleton (corpus : List Sym) (s : Sym) :
    count (corpus ++ [s]) = (count corpus).write s (((count corpus).read s).getD 0 + 1) := by
  rw [count, List.foldl_append, List.foldl_cons, List.foldl_nil, ← count]

theorem read_count (corpus : List Sym) (s : Sym) :
    (count corpus).read s = if s ∈ corpus then some (corpus.count s) else none := by
  induction corpus using List.reverseRecOn generalizing s with
  | nil => rfl
  | append_singleton corpus a ih =>
    have hsofar : ((count corpus).read a).getD 0 = corpus.count a := by
      rw [ih]
      split
      · rfl
      · next hnew => exact (List.count_eq_zero.mpr hnew).symm
    rw [count_append_singleton, Memory.read_write, hsofar]
    by_cases hs : a = s
    · subst hs
      simp
    · simp [hs, Ne.symm hs, ih]

theorem wf_count (corpus : List Sym) : (count corpus).wf = true := by
  induction corpus using List.reverseRecOn with
  | nil => rfl
  | append_singleton corpus s ih =>
    rw [count_append_singleton]
    exact Memory.wf_write s _ ih

/-- Settles O48: a symbol reads as the number of its occurrences, and the table is canonical. -/
theorem countIsExact : Obligations.CountIsExact := fun corpus s => ⟨read_count corpus s, wf_count corpus⟩

end Sys2Proof.Machine
end

section
/-! The two tables that `build` does not give to its general loop (spec 40_construct.md R85, R86). The placeholder has no
code word and its node 0 has no child, so COMPRESS fails at the first symbol and DECOMPRESS at the first bit. -/

namespace Sys2Proof.Machine

/-! ### A call that fails at its first symbol or bit -/

theorem codeBits_of_unknown {cw : Sym → Option Bits} {s : Sym} (h : cw s = none) (msg : List Sym) (i : Nat) (q : Bits) :
    codeBits cw (s :: msg) i q = .error .unknownSymbol i := by
  rw [codeBits, h]

theorem compress_of_codeBits_error {n : Nat} {msg : List Sym} {cw : Sym → Option Bits} {e : ErrCode} {i : Nat}
    (hn : n ≤ Config.hdrmax) (h : codeBits cw msg 0 [] = .error e i) : compress n msg cw = .error e i := by
  rw [compress, if_neg (Nat.not_lt.mpr hn), h]

theorem decompress_of_header_le {h : Byte} (hh : h.toNat ≤ Config.hdrmax) (packed : List Byte) (tm : Memory TMEntry) :
    decompress (h :: packed) tm = walkBits tm h.toNat (unpackall packed) 0 0 [] :=
  if_neg (Nat.not_lt.mpr hh)

theorem walkBits_exhausted (tm : Memory TMEntry) {n cnt : Nat} (h : cnt ≠ n) (node : NodeId) (out : List Sym) :
    walkBits tm n [] node cnt out = .error .truncatedPayload cnt :=
  if_neg h

theorem walkBits_of_noChild {tm : Memory TMEntry} {node : NodeId} {b : Bool} (hmove : walkMove tm node b = .noChild)
    {n cnt : Nat} (h : cnt ≠ n) (bits : Bits) (out : List Sym) :
    walkBits tm n (b :: bits) node cnt out = .error .noChild cnt := by
  rw [walkBits, if_neg h, hmove]

/-! ### The placeholder (R85) -/

theorem codeWord_placeholder (s : Sym) : codeWord (imageCT (derive (build []))) s = none := rfl

theorem walkMove_placeholder (b : Bool) : walkMove (imageTM (build [])) 0 b = .noChild := by
  cases b <;> rfl

theorem compress_placeholder {msg : List Sym} (hne : msg ≠ []) (hlen : msg.length ≤ Config.hdrmax) :
    compress msg.length msg (codeWord (imageCT (derive (build [])))) = .error .unknownSymbol 0 := by
  refine compress_of_codeBits_error hlen ?_
  cases msg with
  | nil => exact absurd rfl hne
  | cons s msg => exact codeBits_of_unknown (codeWord_placeholder s) msg 0 []

theorem decompress_placeholder {h : Byte} (hpos : 0 < h.toNat) (hle : h.toNat ≤ Config.hdrmax) (packed : List Byte) :
    decompress (h :: packed) (imageTM (build [])) =
      .error (if packed = [] then .truncatedPayload else .noChild) 0 := by
  rw [decompress_of_header_le hle]
  cases packed with
  | nil => exact walkBits_exhausted _ hpos.ne 0 []
  | cons v packed => exact walkBits_of_noChild (walkMove_placeholder _) hpos.ne _ []

/-! ### The synthetic root (R86) -/

theorem build_singleton (s : Sym) (c : Nat) : build [(s, c)] = .internal c (.leaf s c) .absent := rfl

theorem derive_build_singleton (s : Sym) (c : Nat) : derive (build [(s, c)]) = [(s, [false])] := rfl

theorem count_replicate (s : Sym) (n : Nat) : count (List.replicate (n + 1) s) = [(s, n + 1)] := by
  induction n with
  | zero => rfl
  | succ n ih =>
    rw [List.replicate_succ', count_append_singleton, ih]
    simp [Memory.read_cons, Memory.write]

theorem construct_replicate (s : Sym) (n : Nat) : construct (List.replicate (n + 1) s) =
    (.internal (n + 1) (.leaf s (n + 1)) .absent, [(s, [false])]) := by
  rw [construct, count_replicate, build_singleton]
  exact congrArg _ (derive_build_singleton s (n + 1))

/-- Settles O49: calls against the placeholder fail at once, and a corpus of one symbol is counted in one entry. -/
theorem degenerateCorporaHaveTheirOwnTries : Obligations.DegenerateCorporaHaveTheirOwnTries :=
  ⟨rfl, fun _ => compress_placeholder, fun _ packed hpos hle => decompress_placeholder hpos hle packed,
    fun s c _ => ⟨build_singleton s c, derive_build_singleton s c⟩, rfl, construct_replicate⟩

end Sys2Proof.Machine
end

section
/-! The start of a COMPRESS call (spec 41_compress.md R100, R110): the machine's check of the code table decides `WF_CT`
on canonical tables, so an accepted command on a well-formed table is never refused. -/

namespace Sys2Proof.Machine

/-- In canonical form each entry of the list is what its index reads as, so the check of the list is `WF_CT` (R14). -/
theorem wfCT_iff {p : Params} {ct : Memory CTEntry} (hwf : ct.wf = true) : wfCT p ct = true ↔ WfCT p ct := by
  constructor
  · intro h v e hread hvalid
    simpa [hvalid] using Memory.all_read h hread
  · intro h
    refine List.all_eq_true.mpr fun ⟨v, e⟩ hmem => ?_
    cases hvalid : e.valid with
    | false => rfl
    | true => simpa [hvalid] using h v e (Memory.read_of_mem hwf hmem) hvalid

theorem execCompress_accepted {s : State} (hlock : s.gstat.lock = true) (hidle : s.enc.stat.state ≠ .busy)
    (hct : wfCT s.params s.ct = true) : exec .compress s = .next s.encStart := by
  have haccept : (s.gstat.lock && !s.enc.stat.isBusy) = true := by simp [hlock, hidle]
  rw [exec, execCompress, if_pos haccept, if_pos hct]

theorem writeCmd_compress (s : State) : writeCmd 0x02#8 s = exec .compress s := rfl

/-- Settles O7: the table check succeeds, so the command starts ENC, and a write of its word to CMD is the command. -/
theorem acceptedCompressStartsEnc : Obligations.AcceptedCompressStartsEnc := by
  intro s hlock hidle hwf hct
  have hexec : exec .compress s = .next s.encStart := execCompress_accepted hlock hidle ((wfCT_iff hwf).mpr hct)
  refine ⟨hexec, ?_⟩
  rw [hostTxn_writeCmd (by decide), writeCmd_compress]
  exact hexec

end Sys2Proof.Machine
end

section
/-! The bits ENC has produced (spec 10_state.md R27, 41_compress.md R112, R113). A number doubled and increased by a bit
has that bit behind its low bits (`lowBits_shiftIn`); pushing a bit and padding the last byte are both this. -/

namespace Sys2Proof.Machine

/-! ### The low bits of a byte -/

theorem getLsbD_shiftIn (a : Nat) (b : Bool) {k : Nat} (hk : k + 1 < 8) :
    (BitVec.ofNat 8 (2 * a + b.toNat)).getLsbD (k + 1) = (BitVec.ofNat 8 a).getLsbD k := by
  have hbit : (2 * a + b.toNat).testBit (k + 1) = a.testBit k := by
    rw [← Nat.bit_val, Nat.testBit_bit_succ]
  simp only [BitVec.getLsbD_ofNat, hbit, hk, Nat.lt_of_succ_lt hk]

theorem lowBits_shiftIn (a : Nat) (b : Bool) {n : Nat} (hn : n < 8) :
    lowBits (BitVec.ofNat 8 (2 * a + b.toNat)) (n + 1) = lowBits (BitVec.ofNat 8 a) n ++ [b] := by
  induction n with
  | zero =>
    have hlast : (BitVec.ofNat 8 (2 * a + b.toNat)).getLsbD 0 = b := by
      rw [BitVec.getLsbD_ofNat, ← Nat.bit_val, Nat.testBit_bit_zero]
      exact Bool.true_and b
    exact congrArg (· :: []) hlast
  | succ n ih => rw [lowBits, getLsbD_shiftIn a b hn, ih (by omega), lowBits, List.cons_append]

/-- A shift to the left by `m` places is `m` zero bits shifted in. -/
theorem lowBits_shiftLeft (a : Nat) {n m : Nat} (h : n + m ≤ 8) :
    lowBits (BitVec.ofNat 8 (a * 2 ^ m)) (n + m) = lowBits (BitVec.ofNat 8 a) n ++ zeros m := by
  induction m with
  | zero => simp [zeros]
  | succ m ih =>
    have hdouble : a * 2 ^ (m + 1) = 2 * (a * 2 ^ m) + false.toNat := by
      rw [Nat.pow_succ, Bool.toNat_false]
      ring
    rw [hdouble, ← Nat.add_assoc, lowBits_shiftIn _ _ (by omega), ih (by omega), List.append_assoc, zeros, zeros,
      ← List.replicate_succ']

theorem unpack8_eq_lowBits (v : Byte) : unpack8 v = lowBits v 8 := rfl

/-- The last byte of step FLUSH: the pending bits on top, zeros below (R113). -/
theorem unpack8_flush (v : Byte) {n : Nat} (hn : n ≤ 8) :
    unpack8 (BitVec.ofNat 8 (v.toNat * 2 ^ (8 - n))) = lowBits v n ++ zeros (8 - n) := by
  have hshift := lowBits_shiftLeft v.toNat (n := n) (m := 8 - n) (by omega)
  rwa [Nat.add_sub_cancel' hn, BitVec.ofNat_toNat, BitVec.setWidth_eq] at hshift

@[simp] theorem unpackall_append_singleton (bs : List Byte) (v : Byte) :
    unpackall (bs ++ [v]) = unpackall bs ++ unpack8 v := by
  simp [unpackall]

@[simp] theorem length_unpackall (bs : List Byte) : (unpackall bs).length = 8 * bs.length := by
  induction bs with
  | nil => rfl
  | cons v bs ih => rw [unpackall_cons, List.length_append, length_unpack8, ih, List.length_cons]; omega

/-! ### Pushing bits -/

/-- The packed part of a window gains the byte that is written just past it. -/
theorem unpackall_window_write_end {pay : Memory Byte} {n : Nat} (hn : 1 ≤ n) (hw : pay.written n = true) (v : Byte) :
    unpackall (((pay.write n v).window (n + 1)).drop 1) = unpackall ((pay.window n).drop 1) ++ unpack8 v := by
  rw [Memory.window_write_end, List.drop_append_of_le_length (by rwa [Memory.window_length hw]),
    unpackall_append_singleton]

theorem encPush_of_full {e : Enc} (h : e.eNb = 7) (b : Bool) :
    encPush e b = { e with
      pay := e.pay.write e.eWp (BitVec.ofNat 8 (2 * e.eAcc.toNat + b.toNat)), eWp := e.eWp + 1, eAcc := 0, eNb := 0 } :=
  if_pos h

theorem encPush_of_not_full {e : Enc} (h : e.eNb ≠ 7) (b : Bool) :
    encPush e b = { e with eAcc := BitVec.ofNat 8 (2 * e.eAcc.toNat + b.toNat), eNb := e.eNb + 1 } :=
  if_neg h

/-- R27's invariant: a push makes the produced sequence longer by its bit, whether or not it completes a byte. -/
theorem encPush_produced {e : Enc} (hwp : 1 ≤ e.eWp) (hpay : e.pay.written e.eWp = true) (b : Bool) :
    (encPush e b).produced = e.produced ++ [b] := by
  have hpending := lowBits_shiftIn e.eAcc.toNat b e.eNb.isLt
  rw [BitVec.ofNat_toNat, BitVec.setWidth_eq] at hpending
  by_cases hfull : e.eNb = 7
  · have hseven : e.eNb.toNat = 7 := congrArg BitVec.toNat hfull
    rw [hseven] at hpending
    rw [encPush_of_full hfull, Enc.produced, Enc.produced, hseven, List.append_assoc, ← hpending,
      ← unpack8_eq_lowBits, ← unpackall_window_write_end hwp hpay]
    exact List.append_nil _
  · have hnext : (e.eNb + 1).toNat = e.eNb.toNat + 1 := by
      have hne : e.eNb.toNat ≠ 7 := fun h => hfull (BitVec.eq_of_toNat_eq h)
      have hlt := e.eNb.isLt
      simp only [BitVec.toNat_add, BitVec.ofNat_eq_ofNat, BitVec.toNat_ofNat]
      omega
    rw [encPush_of_not_full hfull, Enc.produced, Enc.produced, List.append_assoc, ← hpending, ← hnext]

theorem encPush_eWp_le (e : Enc) (b : Bool) : e.eWp ≤ (encPush e b).eWp := by
  have hcount := encPush_count e b
  have hlt := (encPush e b).eNb.isLt
  omega

theorem encPushAll_produced {e : Enc} (hwp : 1 ≤ e.eWp) (hpay : e.pay.written e.eWp = true) (q : Bits) :
    (encPushAll e q).produced = e.produced ++ q := by
  induction q generalizing e with
  | nil => simp
  | cons b q ih =>
    rw [encPushAll_cons, ih (Nat.le_trans hwp (encPush_eWp_le e b)) (encPush_payWritten e b hpay),
      encPush_produced hwp hpay, List.append_assoc, List.singleton_append]

/-- Pushes write at `E_wp` and beyond, so what is below stays. -/
theorem encPushAll_pay_read {e : Enc} {j : Nat} (hj : j < e.eWp) (q : Bits) :
    (encPushAll e q).pay.read j = e.pay.read j := by
  induction q generalizing e with
  | nil => rfl
  | cons b q ih =>
    rw [encPushAll_cons, ih (Nat.lt_of_lt_of_le hj (encPush_eWp_le e b))]
    by_cases hfull : e.eNb = 7
    · rw [encPush_of_full hfull, Memory.read_write_other _ _ hj.ne']
    · rw [encPush_of_not_full hfull]

/-! ### The finished payload -/

/-- Written bytes behind a header that unpack to the code bits and fewer than 8 zeros are the payload (R106, R107): the
zeros must be the padding, since bytes unpack to a multiple of 8 bits. -/
theorem window_eq_payloadOf {pay : Memory Byte} {len n m : Nat} {q : Bits} (hw : pay.written len = true)
    (hlen : 1 ≤ len) (hheader : pay.read 0 = some (BitVec.ofNat 8 n))
    (hbits : unpackall ((pay.window len).drop 1) = q ++ zeros m) (hm : m < 8) : pay.window len = payloadOf n q := by
  have hpad : m = padLen q.length := by
    have hwhole := congrArg List.length hbits
    rw [length_unpackall, List.length_append, length_zeros] at hwhole
    unfold padLen
    omega
  have hpacked : (pay.window len).drop 1 = packall (q ++ zeros (padLen q.length)) := by
    rw [← hpad, ← hbits, packall_unpackall]
  have hlength : 0 < (pay.window len).length := by rwa [Memory.window_length hw]
  have hhead : (pay.window len)[0] = BitVec.ofNat 8 n := by
    rw [← Option.some_inj, ← List.getElem?_eq_getElem hlength, Memory.window_get hw hlen, hheader]
  rw [payloadOf, ← hpacked, ← hhead, ← List.drop_eq_getElem_cons hlength, List.drop_zero]

end Sys2Proof.Machine
end

section
/-! A whole COMPRESS call (spec 41_compress.md R101, R111 to R114). ENC writes its own column only, so the call is a run
of columns `e` over the launch state `s`. From CHK on the column meets `EncMidCall`, and the run follows `codeBits`
over the symbols that are left. -/

namespace Sys2Proof.Machine

theorem runUnit_succ {unitStep : State → Host.Outcome State Fault Refusal} {u v : State} (h : unitStep u = .next v)
    (k : Nat) : runUnit unitStep (k + 1) u = runUnit unitStep k v := by
  rw [runUnit, h]

/-- The column at the start of a SYM step of a call launched in `s`. -/
structure EncMidCall (s : State) (e : Enc) : Prop where
  accepted : e.stat = .accept
  noLength : e.plen = 0
  phase : e.ePh = .sym
  header : e.pay.read 0 = some (BitVec.ofNat 8 s.mlen)
  running : EncRunning { s with enc := e }

/-- The column at the end of a call with the given result (R101). -/
def Enc.EndsIn (e : Enc) : CallResult (List Byte) → Prop
  | .ok payload => e.stat = { state := .done, err := .none, info := 0 } ∧ e.plen = payload.length ∧
      ∀ j < payload.length, e.pay.read j = payload[j]?
  | .error err info => e.stat = .raise err info ∧ e.plen = 0
  | .undef => False

theorem Enc.EndsIn.not_busy {e : Enc} {r : CallResult (List Byte)} (h : e.EndsIn r) : e.stat.isBusy = false := by
  cases r with
  | ok payload => simp [h.1]
  | error err info => simp [h.1]
  | undef => exact h.elim

/-- The diagnostic is cut to 16 bits in any case (R152). -/
theorem UnitStatus.raise_mod (err : ErrCode) (info : Nat) : UnitStatus.raise err (info % 2 ^ 16) = .raise err info := by
  have hcut : BitVec.ofNat 16 (info % 2 ^ 16) = BitVec.ofNat 16 info := by
    rw [← BitVec.toNat_ofNat, BitVec.ofNat_toNat, BitVec.setWidth_eq]
  rw [raise, hcut, raise]

/-- A DONE column holds the payload that stands in the window of its length. -/
theorem Enc.endsIn_ok {e : Enc} {payload : List Byte} (hstat : e.stat = { state := .done, err := .none, info := 0 })
    (hw : e.pay.written e.plen = true) (hwindow : e.pay.window e.plen = payload) : e.EndsIn (.ok payload) := by
  have hlen : e.plen = payload.length := by rw [← hwindow, Memory.window_length hw]
  refine ⟨hstat, hlen, fun j hj => ?_⟩
  rw [← hwindow, Memory.window_get hw (hlen ▸ hj)]

/-- What the loop over the symbols makes of the call (R106, R107). -/
def payloadResult (n : Nat) : CallResult Bits → CallResult (List Byte)
  | .ok q => .ok (payloadOf n q)
  | .error err info => .error err info
  | .undef => .undef

theorem codeBits_of_known {cw : Sym → Option Bits} {v : Sym} {c : Bits} (h : cw v = some c) (msg : List Sym) (i : Nat)
    (q : Bits) : codeBits cw (v :: msg) i q = codeBits cw msg (i + 1) (q ++ c) := by
  rw [codeBits, h]

theorem compress_of_legal {n : Nat} (hn : n ≤ Config.hdrmax) (msg : List Sym) (cw : Sym → Option Bits) :
    compress n msg cw = payloadResult n (codeBits cw msg 0 []) := by
  rw [compress, if_neg (Nat.not_lt.mpr hn)]
  cases codeBits cw msg 0 [] <;> rfl

/-! ### The steps -/

/-- Step CHK of a message that is too long (R103, R111). -/
theorem encStep_chk_tooLong {s : State} (hlong : Config.hdrmax < s.mlen) :
    encStep s.encStart = .next (s.encStart.encRaise .messageTooLarge s.mlen) :=
  if_pos hlong

/-- Step CHK of a legal message: nothing is produced yet (R111). -/
theorem encStep_chk {s : State} (hlegal : s.mlen ≤ Config.hdrmax) :
    ∃ e, encStep s.encStart = .next { s with enc := e } ∧ EncMidCall s e ∧ e.eI.toNat = 0 ∧ e.produced = [] := by
  refine ⟨_, if_neg (Nat.not_lt.mpr hlegal), ⟨rfl, rfl, rfl, Memory.read_write_same _ _ _, ?_⟩, rfl, ?_⟩
  · exact ⟨hlegal, Nat.zero_le _, by simp, Nat.le_refl _, by simp, by simp,
      Memory.written_write_succ _ (Memory.written_zero _)⟩
  · simp [Enc.produced, Memory.window_succ, lowBits]

section
variable {s : State} {e : Enc}

/-- Step SYM before the end of the message looks up the symbol that stands there (R104, R112). -/
theorem EncMidCall.encStep_lookup (h : EncMidCall s e) {v : Sym} (hne : e.eI.toNat ≠ s.mlen)
    (hread : s.msg.read e.eI.toNat = some v) : encStep { s with enc := e } = encLookup v { s with enc := e } := by
  have hroom : e.eI.toNat < Config.msgcap := by
    have hle : e.eI.toNat ≤ s.mlen := h.running.indexInMessage
    have hlegal : s.mlen ≤ 127 := h.running.msgLegal
    rw [Config.msgcap]
    omega
  have hmsg : State.encMsg { s with enc := e } e.eI.toNat = (v, { s with enc := e }) := by
    simp only [State.encMsg, hread]
  simp only [encStep, h.accepted, h.phase, encSym, if_neg hne, if_pos hroom, hmsg]
  rfl

theorem EncMidCall.encStep_unknown (h : EncMidCall s e) {v : Sym} (hne : e.eI.toNat ≠ s.mlen)
    (hread : s.msg.read e.eI.toNat = some v) (hcw : codeWord s.ct v = none) :
    encStep { s with enc := e } = .next { s with enc := { e with stat := .raise .unknownSymbol e.eI.toNat } } := by
  simp only [h.encStep_lookup hne hread, encLookup, hcw]
  rfl

/-- Step SYM of a known symbol appends its code word (R105, R112). -/
theorem EncMidCall.encStep_symbol (h : EncMidCall s e) (hct : wfCT s.params s.ct = true) {v : Sym} {q : Bits}
    (hne : e.eI.toNat ≠ s.mlen) (hread : s.msg.read e.eI.toNat = some v) (hcw : codeWord s.ct v = some q) :
    ∃ e', encStep { s with enc := e } = .next { s with enc := e' } ∧ EncMidCall s e' ∧
      e'.eI.toNat = e.eI.toNat + 1 ∧ e'.produced = e.produced ++ q := by
  have hle : e.eI.toNat ≤ s.mlen := h.running.indexInMessage
  obtain ⟨t, ht, hrun, -, hstat, hplen, hph, hI, hpay, hacc, hnb, hwp⟩ :=
    encEmit_inv h.running h.phase (Nat.lt_of_le_of_ne hle hne) (codeWord_length hct hcw).2
  have hframe : t = { s with enc := t.enc } := encEmit_frame (s := { s with enc := e }) ht
  have hproduced : t.enc.produced = (encPushAll e q).produced := by
    simp only [Enc.produced, hpay, hacc, hnb, hwp]
  refine ⟨t.enc, ?_, ⟨hstat.trans h.accepted, hplen.trans h.noLength, hph, ?_, hframe ▸ hrun⟩, hI, ?_⟩
  · simp only [h.encStep_lookup hne hread, encLookup, hcw]
    rw [ht, ← hframe]
  · rw [hpay, encPushAll_pay_read h.running.headerOut]
    exact h.header
  · rw [hproduced, encPushAll_produced h.running.headerOut h.running.payWritten]

/-- Step SYM at the end of the message (R112). -/
theorem EncMidCall.encStep_end (h : EncMidCall s e) (hend : e.eI.toNat = s.mlen) :
    encStep { s with enc := e } = .next { s with enc := { e with ePh := .flush } } := by
  simp only [encStep, h.accepted, h.phase, encSym, if_pos hend]
  rfl

/-- Step FLUSH gives the payload of the bits produced (R106, R107, R113). -/
theorem EncMidCall.encStep_flush (h : EncMidCall s e) :
    ∃ e', encStep { s with enc := { e with ePh := .flush } } = .next { s with enc := e' } ∧
      e'.EndsIn (.ok (payloadOf s.mlen e.produced)) := by
  have hr := h.running
  simp only [encStep, h.accepted, UnitStatus.isBusy, UnitStatus.accept_state, beq_self_eq_true, if_true, encFlush]
  by_cases hnb : e.eNb = 0
  · rw [if_pos hnb]
    have hbits : unpackall ((e.pay.window e.eWp).drop 1) = e.produced ++ zeros 0 := by
      rw [Enc.produced, hnb]
      simp [lowBits, zeros]
    exact ⟨_, rfl, Enc.endsIn_ok rfl hr.payWritten
      (window_eq_payloadOf hr.payWritten hr.headerOut h.header hbits (by decide))⟩
  · have hn : e.eNb.toNat ≠ 0 := fun h0 => hnb (BitVec.eq_of_toNat_eq h0)
    rw [if_neg hnb, if_pos (encFlushRoom hr hnb)]
    refine ⟨_, rfl, Enc.endsIn_ok rfl (Memory.written_write_succ _ hr.payWritten)
      (window_eq_payloadOf (m := 8 - e.eNb.toNat) (Memory.written_write_succ _ hr.payWritten) (Nat.succ_pos _)
        ?_ ?_ ?_)⟩
    · rw [Memory.read_write_other _ _ (Nat.pos_iff_ne_zero.mp hr.headerOut)]
      exact h.header
    · rw [unpackall_window_write_end hr.headerOut hr.payWritten, unpack8_flush _ (Nat.le_of_lt e.eNb.isLt),
        Enc.produced, List.append_assoc]
    · omega

/-- The two steps behind the last symbol. -/
theorem EncMidCall.run_end (h : EncMidCall s e) (hend : e.eI.toNat = s.mlen) :
    ∃ e', runUnit encStep 2 { s with enc := e } = .next { s with enc := e' } ∧
      e'.EndsIn (.ok (payloadOf s.mlen e.produced)) := by
  obtain ⟨e', hflush, hdone⟩ := h.encStep_flush
  exact ⟨e', by rw [runUnit_succ (h.encStep_end hend), runUnit_succ hflush, runUnit], hdone⟩

/-- The run from a SYM step on, by the symbols that are left: a step each, as `codeBits` takes them, and two at the
end. -/
theorem EncMidCall.run_symbols (h : EncMidCall s e) (hct : wfCT s.params s.ct = true)
    (hmsg : s.msg.written s.mlen = true) {rest : List Sym} (hrest : (s.msg.window s.mlen).drop e.eI.toNat = rest) :
    ∃ k e', runUnit encStep k { s with enc := e } = .next { s with enc := e' } ∧ k ≤ rest.length + 2 ∧
      e'.EndsIn (payloadResult s.mlen (codeBits (codeWord s.ct) rest e.eI.toNat e.produced)) := by
  have hlen : (s.msg.window s.mlen).length = s.mlen := Memory.window_length hmsg
  induction rest generalizing e with
  | nil =>
    have hge : s.mlen ≤ e.eI.toNat := hlen ▸ List.drop_eq_nil_iff.mp hrest
    obtain ⟨e', hrun, hdone⟩ := h.run_end (Nat.le_antisymm h.running.indexInMessage hge)
    exact ⟨2, e', hrun, Nat.le_refl _, hdone⟩
  | cons v rest ih =>
    have hlt : e.eI.toNat < s.mlen := by
      rw [← hlen, ← Nat.not_le, ← List.drop_eq_nil_iff, hrest]
      exact List.cons_ne_nil v rest
    have hread : s.msg.read e.eI.toNat = some v := by
      rw [← Memory.window_get hmsg hlt, ← List.head?_drop, hrest, List.head?_cons]
    cases hcw : codeWord s.ct v with
    | none =>
      refine ⟨1, _, by rw [runUnit_succ (h.encStep_unknown hlt.ne hread hcw), runUnit], by omega, ?_⟩
      rw [codeBits_of_unknown hcw]
      exact ⟨rfl, h.noLength⟩
    | some q =>
      obtain ⟨e₁, hstep, h₁, hI, hproduced⟩ := h.encStep_symbol hct hlt.ne hread hcw
      have hrest₁ : (s.msg.window s.mlen).drop e₁.eI.toNat = rest := by
        rw [hI, ← List.drop_drop, hrest, List.drop_one, List.tail_cons]
      obtain ⟨k, e', hrun, hk, hends⟩ := ih h₁ hrest₁
      refine ⟨k + 1, e', by rw [runUnit_succ hstep, hrun], Nat.succ_le_succ hk, ?_⟩
      rwa [codeBits_of_known hcw, ← hI, ← hproduced]

end

/-- The run of an accepted call from its start (R101, R114). -/
theorem encStart_run {s : State} (hct : wfCT s.params s.ct = true) (hmsg : MsgWritten s) :
    ∃ k e, runUnit encStep k s.encStart = .next { s with enc := e } ∧ k ≤ s.mlen + 3 ∧ (127 < s.mlen → k = 1) ∧
      e.EndsIn (compress s.mlen (s.msg.window s.mlen) (codeWord s.ct)) := by
  by_cases hlong : Config.hdrmax < s.mlen
  · refine ⟨1, _, by rw [runUnit_succ (encStep_chk_tooLong hlong), runUnit]; rfl, by omega, fun _ => rfl, ?_⟩
    rw [compress, if_pos hlong]
    refine ⟨?_, rfl⟩
    show UnitStatus.raise .messageTooLarge s.mlen = .raise .messageTooLarge (s.mlen % 2 ^ 16)
    rw [UnitStatus.raise_mod]
  · have hlegal : s.mlen ≤ Config.hdrmax := Nat.le_of_not_lt hlong
    obtain ⟨e₁, hstep, h₁, hI, hproduced⟩ := encStep_chk hlegal
    obtain ⟨k, e', hrun, hk, hends⟩ := h₁.run_symbols hct (hmsg hlegal) (by rw [hI, List.drop_zero])
    rw [Memory.window_length (hmsg hlegal)] at hk
    refine ⟨k + 1, e', by rw [runUnit_succ hstep, hrun], Nat.succ_le_succ hk, fun h => absurd h hlong, ?_⟩
    rwa [compress_of_legal hlegal, ← hI, ← hproduced]

/-- Settles O44: the call starts ENC, whose run follows `compress`, and in its end state ENC is not BUSY. -/
theorem compressCallEndsInTheBigStepResult : Obligations.CompressCallEndsInTheBigStepResult := by
  intro s hinv hlock hidle hct hmsg
  have hcheck : wfCT s.params s.ct = true := (wfCT_iff hinv.tables.ctWf).mpr hct
  obtain ⟨k, e, hrun, hk, hlong, hends⟩ := encStart_run hcheck hmsg
  refine ⟨s.encStart, k, { s with enc := e }, execCompress_accepted hlock hidle hcheck, hrun, hk, hlong, rfl,
    hends.not_busy, ?_⟩
  cases hresult : compress s.mlen (s.msg.window s.mlen) (codeWord s.ct) <;> (rw [hresult] at hends; exact hends)

end Sys2Proof.Machine
end

section
/-! The start of a DECOMPRESS call (spec 42_decompress.md R120, R130). The machine's check of the trie accepts every
trie that is `WF_TM`. In the general shape the check visits each reachable node once (`TreeVisit`), so it meets no node
twice, no symbol twice, and it ends within the number of nodes. -/

namespace Sys2Proof.Machine

/-- What holds of the check's work list, of the nodes it has seen and of the symbols of the leaves among them: every
node was met once, as the root or through a node seen before. -/
structure TreeVisit (tm : Memory TMEntry) (todo seen : List NodeId) (syms : List Sym) : Prop where
  nodup : (todo ++ seen).Nodup
  reached : ∀ n ∈ todo ++ seen, Reach tm n
  entered : ∀ n ∈ todo ++ seen, n = 0 ∨
    ∃ m ∈ seen, ∃ e b, tm.read m = some e ∧ e.kind = .internal ∧ childOf e b = some n
  symbols : ∀ v ∈ syms, ∃ m ∈ seen, ∃ e, tm.read m = some e ∧ e.kind = .leaf ∧ e.sym = v

section
variable {p : Params} {tm : Memory TMEntry} {n : NodeId} {todo seen : List NodeId} {syms : List Sym} {e : TMEntry}

theorem TreeVisit.root (tm : Memory TMEntry) : TreeVisit tm [0] [] [] := by
  refine ⟨List.nodup_singleton 0, fun n hn => ?_, fun n hn => .inl (List.mem_singleton.mp hn), by simp⟩
  exact List.mem_singleton.mp hn ▸ .root

theorem TreeVisit.head_reached (h : TreeVisit tm (n :: todo) seen syms) : Reach tm n :=
  h.reached n (List.mem_cons_self ..)

theorem TreeVisit.head_unseen (h : TreeVisit tm (n :: todo) seen syms) : n ∉ seen := fun hseen =>
  (List.nodup_cons.mp h.nodup).1 (List.mem_append_right todo hseen)

/-- The next node moves from the work list to the nodes seen. -/
theorem TreeVisit.advance (h : TreeVisit tm (n :: todo) seen syms) : TreeVisit tm todo (n :: seen) syms := by
  have hperm : (todo ++ n :: seen).Perm (n :: todo ++ seen) := List.perm_middle
  refine ⟨hperm.nodup_iff.mpr h.nodup, fun m hm => h.reached m (hperm.mem_iff.mp hm), fun m hm => ?_, fun v hv => ?_⟩
  · refine (h.entered m (hperm.mem_iff.mp hm)).imp_right fun ⟨k, hk, hedge⟩ => ⟨k, List.mem_cons_of_mem n hk, hedge⟩
  · obtain ⟨k, hk, hleaf⟩ := h.symbols v hv
    exact ⟨k, List.mem_cons_of_mem n hk, hleaf⟩

theorem TreeVisit.leaf (h : TreeVisit tm (n :: todo) seen syms) (he : tm.read n = some e) (hk : e.kind = .leaf) :
    TreeVisit tm todo (n :: seen) (e.sym :: syms) := by
  refine { h.advance with symbols := fun v hv => ?_ }
  rcases List.mem_cons.mp hv with rfl | hv
  · exact ⟨n, List.mem_cons_self .., e, he, hk, rfl⟩
  · exact h.advance.symbols v hv

/-- No other leaf seen holds the symbol of the next one (R17 (c)). -/
theorem TreeVisit.symbol_new (hg : GeneralTree p tm) (h : TreeVisit tm (n :: todo) seen syms)
    (he : tm.read n = some e) (hk : e.kind = .leaf) : e.sym ∉ syms := fun hmem => by
  obtain ⟨m, hm, f, hf, hkf, hsym⟩ := h.symbols e.sym hmem
  have hreach : Reach tm m := h.reached m (List.mem_append_right (n :: todo) hm)
  exact h.head_unseen (hg.symbolsDistinct m n f e hreach h.head_reached hf he hkf hk hsym ▸ hm)

/-- A child of the next node was not met before: it is not the root, and its one parent was not seen yet (R17 (c)). -/
theorem TreeVisit.child_new (hg : GeneralTree p tm) (h : TreeVisit tm (n :: todo) seen syms)
    (he : tm.read n = some e) (hk : e.kind = .internal) {b : Bool} {c : NodeId} (hc : childOf e b = some c) :
    c ∉ n :: todo ++ seen := fun hmem => by
  rcases h.entered c hmem with rfl | ⟨m, hm, f, d, hf, hkf, hd⟩
  · exact hg.rootIsNoChild n e b h.head_reached he hk hc
  · have hreach : Reach tm m := h.reached m (List.mem_append_right (n :: todo) hm)
    obtain ⟨rfl, -⟩ := hg.oneParentOneSide m n f e d b c hreach h.head_reached hf he hkf hk hd hc
    exact h.head_unseen hm

theorem TreeVisit.child (h : TreeVisit tm todo (n :: seen) syms) (hreach : Reach tm n)
    (he : tm.read n = some e) (hk : e.kind = .internal) {b : Bool} {c : NodeId} (hc : childOf e b = some c)
    (hnew : c ∉ todo ++ n :: seen) : TreeVisit tm (c :: todo) (n :: seen) syms := by
  refine ⟨List.nodup_cons.mpr ⟨hnew, h.nodup⟩, fun m hm => ?_, fun m hm => ?_, h.symbols⟩
  · rcases List.mem_cons.mp hm with rfl | hm
    · exact .child hreach he hk hc
    · exact h.reached m hm
  · rcases List.mem_cons.mp hm with rfl | hm
    · exact .inr ⟨n, List.mem_cons_self .., e, b, he, hk, hc⟩
    · exact h.entered m hm

theorem TreeVisit.internal (hg : GeneralTree p tm) (h : TreeVisit tm (n :: todo) seen syms)
    (he : tm.read n = some e) (hk : e.kind = .internal) (hleft : childOf e false = some e.left)
    (hright : childOf e true = some e.right) : TreeVisit tm (e.left :: e.right :: todo) (n :: seen) syms := by
  have hperm : (todo ++ n :: seen).Perm (n :: todo ++ seen) := List.perm_middle
  have hreach : Reach tm n := h.head_reached
  have hdistinct : e.left ≠ e.right := fun heq => by
    have hside := hg.oneParentOneSide n n e e false true e.right hreach hreach he he hk hk (heq ▸ hleft) hright
    exact Bool.false_ne_true hside.2
  have hrightNew : e.right ∉ todo ++ n :: seen := fun hm => h.child_new hg he hk hright (hperm.mem_iff.mp hm)
  have hleftNew : e.left ∉ e.right :: todo ++ n :: seen := fun hm => by
    rcases List.mem_cons.mp hm with heq | hm
    · exact hdistinct heq
    · exact h.child_new hg he hk hleft (hperm.mem_iff.mp hm)
  exact (h.advance.child hreach he hk hright hrightNew).child hreach he hk hleft hleftNew

/-- The check goes through from any point of the visit, given steps for the nodes of TM not seen yet. -/
theorem TreeVisit.treeCheck (hg : GeneralTree p tm) {fuel : Nat} (h : TreeVisit tm todo seen syms)
    (hfuel : p.nnode < fuel + seen.length) : treeCheck p tm fuel todo seen syms = true := by
  induction fuel generalizing todo seen syms with
  | zero =>
    have hbelow : seen ⊆ List.range p.nnode := fun m hm =>
      List.mem_range.mpr (hg.nodes m (h.reached m (List.mem_append_right todo hm))).1
    have hle := ((List.nodup_append.mp h.nodup).2.1.subperm hbelow).length_le
    rw [List.length_range] at hle
    omega
  | succ fuel ih =>
    cases todo with
    | nil => rfl
    | cons n todo =>
      obtain ⟨hbound, e, he, hchildren⟩ := hg.nodes n h.head_reached
      have hfuel' : p.nnode < fuel + (n :: seen).length := by rw [List.length_cons]; omega
      rw [Machine.treeCheck, if_pos (by simp [hbound, h.head_unseen])]
      cases hk : e.kind with
      | leaf => simp [he, hk, h.symbol_new hg he hk, ih (h.leaf he hk) hfuel']
      | internal =>
        obtain ⟨hlv, hrv⟩ := hchildren hk
        have hnext := h.internal hg he hk (by simp [childOf, hlv]) (by simp [childOf, hrv])
        simp [he, hk, hlv, hrv, ih hnext hfuel']

end

/-- The machine's check accepts each of R17's three shapes. -/
theorem wfTM_of_WfTM {p : Params} {tm : Memory TMEntry} (h : WfTM p tm) : wfTM p tm = true := by
  rcases h with ⟨e, he, hk, hlv, hrv⟩ | ⟨e, c, he, hk, hlv, hrv, hne, hbound, hc, hleaf⟩ | hg
  · simp [wfTM, he, hk, hlv, hrv]
  · simp [wfTM, he, hk, hlv, hrv, hc, hne, hbound, hleaf]
  · obtain ⟨e, he, hk⟩ := hg.root
    obtain ⟨-, f, hf, hchildren⟩ := hg.nodes 0 .root
    obtain rfl : e = f := Option.some.inj (he.symm.trans hf)
    obtain ⟨hlv, hrv⟩ := hchildren hk
    have hcheck := (TreeVisit.root tm).treeCheck hg (fuel := p.nnode + 1) (Nat.lt_succ_self _)
    simp [wfTM, he, hk, hlv, hrv, hcheck]

theorem execDecompress_accepted {s : State} (hlock : s.gstat.lock = true) (hidle : s.dec.stat.state ≠ .busy)
    (htm : wfTM s.params s.tm = true) : exec .decompress s = .next s.decStart := by
  have haccept : (s.gstat.lock && !s.dec.stat.isBusy) = true := by simp [hlock, hidle]
  rw [exec, execDecompress, if_pos haccept, if_pos htm]

theorem writeCmd_decompress (s : State) : writeCmd 0x03#8 s = exec .decompress s := rfl

/-- Settles O8: the trie check succeeds, so the command starts DEC, and a write of its word to CMD is the command. -/
theorem acceptedDecompressStartsDec : Obligations.AcceptedDecompressStartsDec := by
  intro s hlock hidle htm
  have hexec : exec .decompress s = .next s.decStart := execDecompress_accepted hlock hidle (wfTM_of_WfTM htm)
  refine ⟨hexec, ?_⟩
  rw [hostTxn_writeCmd (by decide), writeCmd_decompress]
  exact hexec

end Sys2Proof.Machine
end

section
/-! A whole DECOMPRESS call (spec 42_decompress.md R121, R131, R132, R134). DEC writes its own column only, so the call
is a run of columns `d` over the launch state `s`. From HDR on the column meets `DecMidCall`, and the run follows
`walkBits` over the bits that are left. -/

namespace Sys2Proof.Machine

/-! ### The bytes of DIN -/

theorem window_eq_cons {α : Type} {m : Memory α} {n : Nat} {v : α} (hw : m.written n = true) (hn : n ≠ 0)
    (hv : m.read 0 = some v) : m.window n = v :: (m.window n).drop 1 := by
  have hget : (m.window n)[0]? = some v := by rw [Memory.window_get hw (Nat.pos_of_ne_zero hn), hv]
  obtain ⟨hpos, hzero⟩ := List.getElem?_eq_some_iff.mp hget
  rw [← hzero, ← List.drop_eq_getElem_cons hpos, List.drop_zero]

/-- `B` of R121: the bits of all bytes behind the header. -/
def State.packedBits (s : State) : Bits := unpackall ((s.din.window s.dlen).drop 1)

theorem State.length_packedBits {s : State} (hdin : DinWritten s) : s.packedBits.length = 8 * (s.dlen - 1) := by
  rw [packedBits, length_unpackall, List.length_drop, Memory.window_length hdin]

/-- R124: bit `p` of `B` is in byte `1 + p / 8` of DIN. -/
theorem State.getElem?_packedBits {s : State} (hdin : DinWritten s) {p : Nat} (hp : 1 + p / 8 < s.dlen) :
    s.packedBits[p]? = (s.din.read (1 + p / 8)).map (fun v => bitAt v p) := by
  rw [packedBits, getElem?_unpackall, List.getElem?_drop, Memory.window_get hdin hp]
  rfl

theorem decompress_dinWindow {s : State} (hdin : DinWritten s) (hlen : s.dlen ≠ 0) {h : Byte}
    (hread : s.din.read 0 = some h) (hlegal : h.toNat ≤ Config.hdrmax) :
    decompress (s.din.window s.dlen) s.tm = walkBits s.tm h.toNat s.packedBits 0 0 [] := by
  rw [window_eq_cons hdin hlen hread, decompress_of_header_le hlegal, State.packedBits]

/-! ### The walk -/

theorem walkBits_of_enough (tm : Memory TMEntry) (n : Nat) (bits : Bits) (node : NodeId) (out : List Sym) :
    walkBits tm n bits node n out = .ok out := by
  cases bits <;> exact if_pos rfl

theorem walkBits_of_emit {tm : Memory TMEntry} {node : NodeId} {b : Bool} {v : Sym}
    (hmove : walkMove tm node b = .emit v) {n cnt : Nat} (h : cnt ≠ n) (bits : Bits) (out : List Sym) :
    walkBits tm n (b :: bits) node cnt out = walkBits tm n bits 0 (cnt + 1) (out ++ [v]) := by
  rw [walkBits, if_neg h, hmove]

theorem walkBits_of_descend {tm : Memory TMEntry} {node c : NodeId} {b : Bool}
    (hmove : walkMove tm node b = .descend c) {n cnt : Nat} (h : cnt ≠ n) (bits : Bits) (out : List Sym) :
    walkBits tm n (b :: bits) node cnt out = walkBits tm n bits c cnt out := by
  rw [walkBits, if_neg h, hmove]

/-- The walk fails only for want of bits or of a child (R127, R128). -/
theorem walkBits_error {tm : Memory TMEntry} {n cnt i : Nat} {bits : Bits} {node : NodeId} {out : List Sym}
    {e : ErrCode} (h : walkBits tm n bits node cnt out = .error e i) : e = .truncatedPayload ∨ e = .noChild := by
  induction bits generalizing node cnt out with
  | nil =>
    rw [walkBits] at h
    split at h
    · cases h
    · cases h; exact .inl rfl
  | cons b bits ih =>
    rw [walkBits] at h
    split at h
    · cases h
    · split at h
      · cases h
      · cases h; exact .inr rfl
      · exact ih h
      · exact ih h

/-- From an INTERNAL node that a walk reaches every bit has a meaning (R129). -/
theorem walkMove_ne_undef {p : Params} {tm : Memory TMEntry} (htm : wfTM p tm = true) {node : NodeId} {e : TMEntry}
    (hreach : Reach tm node) (he : tm.read node = some e) (hk : e.kind = .internal) (b : Bool) :
    walkMove tm node b ≠ .undef := by
  rw [walkMove, he]
  simp only [hk]
  cases hc : childOf e b with
  | none => simp
  | some c =>
    obtain ⟨f, hf⟩ := wfTM_reach htm (.child hreach he hk hc)
    simp only [hf]
    cases f.kind <;> simp

/-- What a move of the walk does to DEC's column (R132). -/
def Dec.move (d : Dec) : WalkMove → Dec
  | .emit v => { d with sout := d.sout.write d.dCnt.toNat v, dCnt := d.dCnt + 1, dNode := 0 }
  | .descend c => { d with dNode := c }
  | .noChild => { d with stat := .raise .noChild d.dCnt.toNat }
  | .undef => d

/-- DEC follows a bit as the walk of R121 moves along it. -/
theorem decFollow_eq {s : State} {b : Bool} (hroom : s.dec.dCnt.toNat < Config.soutcap)
    (hdef : walkMove s.tm s.dec.dNode b ≠ .undef) :
    decFollow b s = .next { s with dec := s.dec.move (walkMove s.tm s.dec.dNode b) } := by
  unfold decFollow
  unfold walkMove at hdef ⊢
  cases he : s.tm.read s.dec.dNode with
  | none => simp [he] at hdef
  | some e =>
    cases hk : e.kind with
    | leaf => simp [he, hk] at hdef
    | internal =>
      cases hc : childOf e b with
      | none => simp only [hk, hc]; rfl
      | some c =>
        cases hf : s.tm.read c with
        | none => simp [he, hk, hc, hf] at hdef
        | some f => cases hkf : f.kind <;> simp only [decArrive, hk, hc, hf, hkf, if_pos hroom] <;> rfl

/-! ### The column -/

/-- The column at the end of a call with the given result (R121). -/
def Dec.EndsIn (d : Dec) : CallResult (List Sym) → Prop
  | .ok out => d.stat = { state := .done, err := .none, info := 0 } ∧ d.slen.toNat = out.length ∧
      ∀ j < out.length, d.sout.read j = out[j]?
  | .error err info => d.stat = .raise err info ∧ d.slen = 0
  | .undef => False

theorem Dec.EndsIn.not_busy {d : Dec} {r : CallResult (List Sym)} (h : d.EndsIn r) : d.stat.isBusy = false := by
  cases r with
  | ok out => simp [h.1]
  | error err info => simp [h.1]
  | undef => exact h.elim

/-- The column at the start of a WALK step of a call launched in `s`. -/
structure DecMidCall (s : State) (d : Dec) : Prop where
  accepted : d.stat = .accept
  phase : d.dPh = .walk
  column : DecInv { s with dec := d }
  buffers : BuffersInv { s with dec := d }

section
variable {s : State} {d : Dec}

theorem DecMidCall.running (h : DecMidCall s d) : DecRunning { s with dec := d } :=
  h.column.running (congrArg UnitStatus.state h.accepted) h.phase

theorem DecMidCall.noLength (h : DecMidCall s d) : d.slen = 0 :=
  h.column.noLength (by simp [h.accepted])

theorem DecMidCall.count_lt (h : DecMidCall s d) (hcnt : d.dCnt ≠ d.dN) : d.dCnt.toNat < d.dN.toNat :=
  Nat.lt_of_le_of_ne h.running.countBound fun heq => hcnt (BitVec.eq_of_toNat_eq heq)

theorem DecMidCall.move_ne_undef (h : DecMidCall s d) (b : Bool) : walkMove s.tm d.dNode b ≠ .undef := by
  obtain ⟨e, he, hk⟩ := h.running.nodeInternal
  exact walkMove_ne_undef (h.column.busyTable (congrArg UnitStatus.state h.accepted)) h.running.nodeReached he hk b

/-- A step that neither ends the call nor is one of HDR keeps the column in its call. -/
theorem DecMidCall.next (h : DecMidCall s d) (ht : TablesInv s) {d' : Dec}
    (hstep : decStep { s with dec := d } = .next { s with dec := d' }) (hstat : d'.stat = d.stat)
    (hphase : d'.dPh = d.dPh) : DecMidCall s d' := by
  obtain ⟨t, hnext, hcolumn, hbuffers⟩ := decStep_inv (s := { s with dec := d }) { ht with } h.buffers h.column
    (congrArg UnitStatus.state h.accepted)
  rw [hstep] at hnext
  cases hnext
  exact ⟨hstat.trans h.accepted, hphase.trans h.phase, hcolumn, hbuffers⟩

theorem DecMidCall.decStep_eq (h : DecMidCall s d) : decStep { s with dec := d } = decWalk { s with dec := d } := by
  simp only [decStep, h.accepted, h.phase]
  rfl

/-- Step WALK once the header's number of symbols is out: the call is DONE (R126, R132). -/
theorem DecMidCall.decStep_enough (h : DecMidCall s d) (hcnt : d.dCnt = d.dN) :
    ∃ d', decStep { s with dec := d } = .next { s with dec := d' } ∧ d'.EndsIn (.ok (d.sout.window d.dCnt.toNat)) := by
  have hw : d.sout.written d.dCnt.toNat = true := h.running.soutWritten
  have hlt := d.dN.isLt
  refine ⟨_, h.decStep_eq.trans (if_pos hcnt), ?_, ?_, fun j hj => ?_⟩
  · simp only [h.accepted]
    rfl
  · rw [Memory.window_length hw, hcnt]
    show (d.dN.setWidth 8).toNat = d.dN.toNat
    rw [BitVec.toNat_setWidth]
    omega
  · rw [Memory.window_length hw] at hj
    exact (Memory.window_get hw hj).symm

/-- Step WALK with symbols missing and no bit left (R127, R132). -/
theorem DecMidCall.decStep_exhausted (h : DecMidCall s d) (hcnt : d.dCnt ≠ d.dN) (hbits : d.dBp = 8 * (s.dlen - 1)) :
    decStep { s with dec := d } =
      .next { s with dec := { d with stat := .raise .truncatedPayload d.dCnt.toNat } } := by
  rw [h.decStep_eq, decWalk, if_neg hcnt, if_pos hbits]
  rfl

/-- Step WALK with symbols missing takes the next bit and follows it (R128, R132). -/
theorem DecMidCall.decStep_bit (h : DecMidCall s d) (hdin : DinWritten s) (hcnt : d.dCnt ≠ d.dN) {b : Bool}
    (hb : s.packedBits[d.dBp]? = some b) :
    decStep { s with dec := d } =
      .next { s with dec := { d with dBp := d.dBp + 1 }.move (walkMove s.tm d.dNode b) } := by
  have hbound : d.dBp < 8 * (s.dlen - 1) :=
    State.length_packedBits hdin ▸ (List.getElem?_eq_some_iff.mp hb).1
  have hindex : 1 + d.dBp / 8 < s.dlen := by omega
  have hspace : 1 + d.dBp / 8 < s.params.dincap := Nat.lt_of_lt_of_le hindex h.buffers.dlenFits
  rw [State.getElem?_packedBits hdin hindex] at hb
  obtain ⟨v, hv, hbit⟩ := Option.map_eq_some_iff.mp hb
  have hroom : d.dCnt.toNat < Config.soutcap := Nat.lt_of_lt_of_le (h.count_lt hcnt) (Nat.le_of_lt_succ d.dN.isLt)
  have hread : State.decDin { s with dec := d } (1 + d.dBp / 8) = (v, { s with dec := d }) :=
    State.decDin_written _ hv
  rw [h.decStep_eq, decWalk, if_neg hcnt, if_neg hbound.ne, State.dinIndex, if_pos hspace, hread, decConsume]
  simp only [hbit]
  exact decFollow_eq (s := { s with dec := { d with dBp := d.dBp + 1 } }) hroom (h.move_ne_undef b)

/-- The run from a WALK step on with nothing missing. -/
theorem DecMidCall.run_enough (h : DecMidCall s d) (hcnt : d.dCnt = d.dN) (rest : Bits) :
    ∃ k d', runUnit decStep k { s with dec := d } = .next { s with dec := d' } ∧ k ≤ rest.length + 1 ∧
      d'.EndsIn (walkBits s.tm d.dN.toNat rest d.dNode d.dCnt.toNat (d.sout.window d.dCnt.toNat)) := by
  obtain ⟨d', hstep, hends⟩ := h.decStep_enough hcnt
  refine ⟨1, d', by rw [runUnit_succ hstep, runUnit], Nat.le_add_left _ _, ?_⟩
  rwa [← hcnt, walkBits_of_enough]

/-- The run from a WALK step on, by the bits that are left: a step each, as `walkBits` takes them, and one at the
end. -/
theorem DecMidCall.run_bits (h : DecMidCall s d) (ht : TablesInv s) (hdin : DinWritten s) {rest : Bits}
    (hrest : s.packedBits.drop d.dBp = rest) :
    ∃ k d', runUnit decStep k { s with dec := d } = .next { s with dec := d' } ∧ k ≤ rest.length + 1 ∧
      d'.EndsIn (walkBits s.tm d.dN.toNat rest d.dNode d.dCnt.toNat (d.sout.window d.dCnt.toNat)) := by
  induction rest generalizing d with
  | nil =>
    by_cases hcnt : d.dCnt = d.dN
    · exact h.run_enough hcnt []
    have hge : 8 * (s.dlen - 1) ≤ d.dBp := State.length_packedBits hdin ▸ List.drop_eq_nil_iff.mp hrest
    have hbits : d.dBp = 8 * (s.dlen - 1) := Nat.le_antisymm h.running.bitBound hge
    refine ⟨1, _, by rw [runUnit_succ (h.decStep_exhausted hcnt hbits), runUnit], Nat.le_refl _, ?_⟩
    rw [walkBits_exhausted _ (h.count_lt hcnt).ne]
    exact ⟨rfl, h.noLength⟩
  | cons b rest ih =>
    by_cases hcnt : d.dCnt = d.dN
    · exact h.run_enough hcnt (b :: rest)
    have hbit : s.packedBits[d.dBp]? = some b := by rw [← List.head?_drop, hrest, List.head?_cons]
    have hrest' : s.packedBits.drop (d.dBp + 1) = rest := by
      rw [← List.drop_drop, hrest, List.drop_one, List.tail_cons]
    have hstep := h.decStep_bit hdin hcnt hbit
    have hcount := h.count_lt hcnt
    cases hmove : walkMove s.tm d.dNode b with
    | undef => exact absurd hmove (h.move_ne_undef b)
    | noChild =>
      rw [hmove] at hstep
      refine ⟨1, _, by rw [runUnit_succ hstep, runUnit], by simp, ?_⟩
      rw [walkBits_of_noChild hmove hcount.ne]
      exact ⟨rfl, h.noLength⟩
    | descend c =>
      rw [hmove] at hstep
      obtain ⟨k, d', hrun, hk, hends⟩ := ih (h.next ht hstep rfl rfl) hrest'
      refine ⟨k + 1, d', by rw [runUnit_succ hstep, hrun], Nat.succ_le_succ hk, ?_⟩
      rwa [walkBits_of_descend hmove hcount.ne]
    | emit v =>
      rw [hmove] at hstep
      obtain ⟨k, d', hrun, hk, hends⟩ := ih (h.next ht hstep rfl rfl) hrest'
      refine ⟨k + 1, d', by rw [runUnit_succ hstep, hrun], Nat.succ_le_succ hk, ?_⟩
      have hsucc : (d.dCnt + 1).toNat = d.dCnt.toNat + 1 := by
        have hlt := d.dN.isLt
        simp only [BitVec.toNat_add, BitVec.ofNat_eq_ofNat, BitVec.toNat_ofNat]
        omega
      rw [walkBits_of_emit hmove hcount.ne, ← Memory.window_write_end, ← hsucc]
      exact hends

end

/-! ### The call -/

theorem decStart_decInv {s : State} (h : DecInv s) (hlock : s.gstat.lock = true) (htm : wfTM s.params s.tm = true) :
    DecInv s.decStart :=
  ⟨fun _ => hlock, fun _ => htm, by simp, by simp, by simp, by simp, h.bpFits, h.nodeFits, by simp⟩

theorem decStep_decStart (s : State) : decStep s.decStart = decHdr s.decStart := rfl

theorem decStep_hdr_empty {s : State} (hlen : s.dlen = 0) :
    decStep s.decStart = .next (s.decStart.decRaise .emptyPayload 0) :=
  if_pos hlen

theorem decStep_hdr_read {s : State} (hlen : s.dlen ≠ 0) {h : Byte} (hread : s.din.read 0 = some h) :
    decStep s.decStart = decHeader h s.decStart := by
  have hdin : s.decStart.decDin 0 = (h, s.decStart) := State.decDin_written _ hread
  have hne : s.decStart.dlen ≠ 0 := hlen
  rw [decStep_decStart, decHdr, if_neg hne, hdin]

theorem decStep_hdr_tooLong {s : State} (hlen : s.dlen ≠ 0) {h : Byte} (hread : s.din.read 0 = some h)
    (hlong : Config.hdrmax < h.toNat) : decStep s.decStart = .next (s.decStart.decRaise .headerRange h.toNat) := by
  rw [decStep_hdr_read hlen hread, decHeader, if_pos hlong]

/-- Step HDR of a legal header: the walk stands at the root and nothing is out yet (R125, R131). -/
theorem decStep_hdr {s : State} (hinv : s.Inv) (hlock : s.gstat.lock = true) (htm : wfTM s.params s.tm = true)
    (hlen : s.dlen ≠ 0) {h : Byte} (hread : s.din.read 0 = some h) (hlegal : h.toNat ≤ Config.hdrmax) :
    ∃ d, decStep s.decStart = .next { s with dec := d } ∧ DecMidCall s d ∧ d.dN.toNat = h.toNat ∧ d.dCnt.toNat = 0 ∧
      d.dBp = 0 ∧ d.dNode = 0 := by
  obtain ⟨t, hnext, hcolumn, hbuffers⟩ := decStep_inv (s := s.decStart)
    { hinv.tables with } { hinv.buffers with } (decStart_decInv hinv.dec hlock htm) rfl
  have hstep := decStep_hdr_read hlen hread
  rw [decHeader, if_neg (Nat.not_lt.mpr hlegal)] at hstep
  rw [hstep] at hnext
  cases hnext
  refine ⟨_, hstep, ⟨rfl, rfl, hcolumn, hbuffers⟩, ?_, rfl, rfl, rfl⟩
  show (h.extractLsb' 0 7).toNat = h.toNat
  rw [BitVec.extractLsb'_toNat, Nat.shiftRight_zero]
  exact Nat.mod_eq_of_lt (Nat.lt_succ_of_le hlegal)

/-- The run of an accepted call from its start (R121, R134). -/
theorem decStart_run {s : State} (hinv : s.Inv) (hlock : s.gstat.lock = true) (htm : wfTM s.params s.tm = true)
    (hdin : DinWritten s) :
    ∃ k d, runUnit decStep k s.decStart = .next { s with dec := d } ∧ k ≤ 8 * (s.dlen - 1) + 2 ∧
      d.EndsIn (decompress (s.din.window s.dlen) s.tm) ∧
      ∀ e i, decompress (s.din.window s.dlen) s.tm = .error e i → e = .emptyPayload ∨ e = .headerRange → k = 1 := by
  by_cases hlen : s.dlen = 0
  · refine ⟨1, _, by rw [runUnit_succ (decStep_hdr_empty hlen), runUnit]; rfl, by omega, ?_, fun _ _ _ _ => rfl⟩
    rw [hlen]
    exact ⟨rfl, rfl⟩
  obtain ⟨h, hread⟩ := (Memory.written_iff _ _).mp hdin 0 (Nat.pos_of_ne_zero hlen)
  by_cases hlong : Config.hdrmax < h.toNat
  · refine ⟨1, _, by rw [runUnit_succ (decStep_hdr_tooLong hlen hread hlong), runUnit]; rfl, by omega, ?_,
      fun _ _ _ _ => rfl⟩
    rw [window_eq_cons hdin hlen hread, decompress, if_pos hlong]
    exact ⟨rfl, rfl⟩
  · have hlegal : h.toNat ≤ Config.hdrmax := Nat.le_of_not_lt hlong
    obtain ⟨d, hstep, hmid, hN, hcnt, hbp, hnode⟩ := decStep_hdr hinv hlock htm hlen hread hlegal
    obtain ⟨k, d', hrun, hk, hends⟩ := hmid.run_bits hinv.tables hdin (by rw [hbp, List.drop_zero])
    rw [State.length_packedBits hdin] at hk
    rw [hN, hcnt, hnode, Memory.window_zero] at hends
    refine ⟨k + 1, d', by rw [runUnit_succ hstep, hrun], Nat.succ_le_succ hk, ?_, ?_⟩
    · rwa [decompress_dinWindow hdin hlen hread hlegal]
    · rw [decompress_dinWindow hdin hlen hread hlegal]
      rintro e i herror hheader
      rcases walkBits_error herror with rfl | rfl <;> simp at hheader

/-- Settles O45: the call starts DEC, whose run follows `decompress`, and in its end state DEC is not BUSY. -/
theorem decompressCallEndsInTheBigStepResult : Obligations.DecompressCallEndsInTheBigStepResult := by
  intro s hinv hlock hidle htm hdin
  have hcheck : wfTM s.params s.tm = true := wfTM_of_WfTM htm
  obtain ⟨k, d, hrun, hk, hends, hheader⟩ := decStart_run hinv hlock hcheck hdin
  refine ⟨s.decStart, k, { s with dec := d }, execDecompress_accepted hlock hidle hcheck, hrun, hk, rfl,
    hends.not_busy, ?_⟩
  cases hresult : decompress (s.din.window s.dlen) s.tm with
  | ok out => rw [hresult] at hends; exact hends
  | error e info =>
    rw [hresult] at hends
    exact ⟨hends.1, hends.2, hheader e info hresult⟩
  | undef => rw [hresult] at hends; exact hends

end Sys2Proof.Machine
end

section
/-! The round-trip law on the machine (spec 42_decompress.md R136). On consistent tables the code bits of a message are
root-to-leaf paths (`decodes_of_consistent`), so a walk over them, whatever follows, gives the message
(`walkBits_of_decodes`). The payload of the COMPRESS call and DIN hold the same code bits. -/

namespace Sys2Proof.Machine

/-! ### The end of a call -/

theorem runUnit_add {unitStep : State → Host.Outcome State Fault Refusal} {k : Nat} {u v : State}
    (h : runUnit unitStep k u = .next v) (j : Nat) : runUnit unitStep (k + j) u = runUnit unitStep j v := by
  induction k generalizing u with
  | zero => cases h; rw [Nat.zero_add]
  | succ k ih =>
    rw [runUnit] at h
    split at h
    · next w hw => rw [Nat.add_right_comm, runUnit_succ hw, ih h]
    · cases h
    · cases h

theorem runUnit_of_idle {unitStep : State → Host.Outcome State Fault Refusal} {u : State} (h : unitStep u = .next u)
    (k : Nat) : runUnit unitStep k u = .next u := by
  induction k with
  | zero => rfl
  | succ k ih => rw [runUnit_succ h, ih]

/-- Two runs from one state that both end with the unit idle end in one state. -/
theorem runUnit_idle_unique {unitStep : State → Host.Outcome State Fault Refusal} {k j : Nat} {u v w : State}
    (hv : runUnit unitStep k u = .next v) (hvIdle : unitStep v = .next v)
    (hw : runUnit unitStep j u = .next w) (hwIdle : unitStep w = .next w) : v = w := by
  have hlong : runUnit unitStep (k + j) u = .next v := by rw [runUnit_add hv, runUnit_of_idle hvIdle]
  rw [Nat.add_comm, runUnit_add hw, runUnit_of_idle hwIdle] at hlong
  cases hlong
  rfl

theorem encStep_of_not_busy {s : State} (h : s.enc.stat.isBusy = false) : encStep s = .next s :=
  if_neg (by rw [h]; exact Bool.false_ne_true)

/-! ### The code bits of a message -/

/-- The code words of a message, one after the other (R105). -/
def messageBits (cw : Sym → Option Bits) (msg : List Sym) : Bits := msg.flatMap (fun v => (cw v).getD [])

theorem messageBits_cons {cw : Sym → Option Bits} {v : Sym} {c : Bits} (h : cw v = some c) (msg : List Sym) :
    messageBits cw (v :: msg) = c ++ messageBits cw msg := by
  rw [messageBits, List.flatMap_cons, h, Option.getD_some, messageBits]

/-- The loop over the symbols ends well only where each has a code word, and then it appends them (R104, R105). -/
theorem codeBits_ok {cw : Sym → Option Bits} {msg : List Sym} {i : Nat} {q r : Bits}
    (h : codeBits cw msg i q = .ok r) : (∀ v ∈ msg, ∃ c, cw v = some c) ∧ r = q ++ messageBits cw msg := by
  induction msg generalizing i q with
  | nil => cases h; exact ⟨by simp, (List.append_nil _).symm⟩
  | cons v msg ih =>
    cases hv : cw v with
    | none => rw [codeBits_of_unknown hv] at h; cases h
    | some c =>
      rw [codeBits_of_known hv] at h
      obtain ⟨hknown, hr⟩ := ih h
      refine ⟨List.forall_mem_cons.mpr ⟨⟨c, hv⟩, hknown⟩, ?_⟩
      rw [hr, messageBits_cons hv, List.append_assoc]

theorem compress_ok {n : Nat} {msg : List Sym} {cw : Sym → Option Bits} {payload : List Byte}
    (h : compress n msg cw = .ok payload) :
    n ≤ Config.hdrmax ∧ (∀ v ∈ msg, ∃ c, cw v = some c) ∧ payload = payloadOf n (messageBits cw msg) := by
  by_cases hlong : n > Config.hdrmax
  · rw [compress, if_pos hlong] at h
    cases h
  · have hlegal : n ≤ Config.hdrmax := Nat.le_of_not_lt hlong
    rw [compress_of_legal hlegal] at h
    cases hbits : codeBits cw msg 0 [] with
    | ok q =>
      rw [hbits] at h
      cases h
      obtain ⟨hknown, hq⟩ := codeBits_ok hbits
      exact ⟨hlegal, hknown, by rw [hq, List.nil_append]⟩
    | error e i => rw [hbits] at h; cases h
    | undef => rw [hbits] at h; cases h

theorem decodes_of_consistent {ct : Memory CTEntry} {tm : Memory TMEntry} (h : Consistent ct tm) {msg : List Sym}
    (hknown : ∀ v ∈ msg, ∃ c, codeWord ct v = some c) : Decodes tm (messageBits (codeWord ct) msg) msg := by
  induction msg with
  | nil => exact ⟨[], .nil, rfl⟩
  | cons v msg ih =>
    obtain ⟨⟨c, hc⟩, hrest⟩ := List.forall_mem_cons.mp hknown
    obtain ⟨paths, hpaths, hflat⟩ := ih hrest
    refine ⟨c :: paths, .cons ((h v c).mp hc) hpaths, ?_⟩
    rw [List.flatten_cons, hflat, messageBits_cons hc]

/-! ### The walk along paths -/

theorem leafAt_of_edge {tm : Memory TMEntry} {node c : NodeId} {b : Bool} (h : nodeAt tm node [b] = some c)
    (path : Bits) : leafAt tm node (b :: path) = leafAt tm c path := by
  rw [leafAt, nodeAt_cons, h, Option.bind_some, leafAt]

/-- A path that is not empty begins with an edge. -/
theorem edge_of_leafAt {tm : Memory TMEntry} {node : NodeId} {b : Bool} {path : Bits} {v : Sym}
    (h : leafAt tm node (b :: path) = some v) : ∃ c, nodeAt tm node [b] = some c := by
  cases hedge : nodeAt tm node [b] with
  | none => rw [leafAt, nodeAt_cons, hedge] at h; cases h
  | some c => exact ⟨c, rfl⟩

/-- A path to a leaf is one edge to that leaf, or one edge to an INTERNAL node and a path from there. -/
theorem walkMove_of_leafAt {tm : Memory TMEntry} {node : NodeId} {b : Bool} {path : Bits} {v : Sym}
    (h : leafAt tm node (b :: path) = some v) :
    (path = [] ∧ walkMove tm node b = .emit v) ∨
      (path ≠ [] ∧ ∃ c, walkMove tm node b = .descend c ∧ leafAt tm c path = some v) := by
  cases path with
  | nil => exact .inl ⟨rfl, walkMove_emit.mpr h⟩
  | cons b' path =>
    obtain ⟨c, hc⟩ := edge_of_leafAt h
    rw [leafAt_of_edge hc] at h
    obtain ⟨_, hc'⟩ := edge_of_leafAt h
    obtain ⟨e, he, hk, -⟩ := nodeAt_edge.mp hc'
    exact .inr ⟨List.cons_ne_nil _ _, c, walkMove_descend.mpr ⟨hc, e, he, hk⟩, h⟩

/-- A walk along a path to a leaf gives the leaf's symbol and is back at the root (R126). -/
theorem walkBits_of_path {tm : Memory TMEntry} {n cnt : Nat} (hcnt : cnt ≠ n) {node : NodeId} {path : Bits} {v : Sym}
    (hne : path ≠ []) (hpath : leafAt tm node path = some v) (rest : Bits) (out : List Sym) :
    walkBits tm n (path ++ rest) node cnt out = walkBits tm n rest 0 (cnt + 1) (out ++ [v]) := by
  induction path generalizing node with
  | nil => exact absurd rfl hne
  | cons b path ih =>
    rw [List.cons_append]
    rcases walkMove_of_leafAt hpath with ⟨rfl, hmove⟩ | ⟨hne', c, hmove, hpath'⟩
    · rw [walkBits_of_emit hmove hcnt, List.nil_append]
    · rw [walkBits_of_descend hmove hcnt, ih hne' hpath']

/-- No path to a leaf is empty where the root is INTERNAL. -/
theorem path_ne_nil {tm : Memory TMEntry} {e : TMEntry} (he : tm.read 0 = some e) (hk : e.kind = .internal)
    {path : Bits} {v : Sym} (h : leafAt tm 0 path = some v) : path ≠ [] := by
  rintro rfl
  simp [leafAt, he, hk] at h

/-- The walk over root-to-leaf paths gives the leaves' symbols, whatever bits follow (R126, R136). -/
theorem walkBits_of_decodes {p : Params} {tm : Memory TMEntry} (htm : wfTM p tm = true) {q : Bits} {msg : List Sym}
    (h : Decodes tm q msg) (rest : Bits) : walkBits tm msg.length (q ++ rest) 0 0 [] = .ok msg := by
  obtain ⟨e, he, hk⟩ := wfTM_root htm
  obtain ⟨paths, hpaths, rfl⟩ := h
  suffices hgen : ∀ (cnt : Nat) (out : List Sym),
      walkBits tm (cnt + msg.length) (paths.flatten ++ rest) 0 cnt out = .ok (out ++ msg) by
    simpa using hgen 0 []
  induction hpaths with
  | nil => intro cnt out; rw [List.append_nil]; exact walkBits_of_enough tm cnt _ 0 out
  | @cons path v paths msg hpath _ ih =>
    intro cnt out
    have hcnt : cnt + (msg.length + 1) = cnt + 1 + msg.length := by omega
    rw [List.flatten_cons, List.append_assoc, List.length_cons,
      walkBits_of_path (by omega) (path_ne_nil he hk hpath) hpath, hcnt, ih, List.append_assoc, List.singleton_append]

/-! ### The law -/

theorem decompress_of_message {d : State} {q : Bits} {msg : List Sym} (htm : wfTM d.params d.tm = true)
    (hdin : DinWritten d) (hlen : d.dlen ≠ 0) (hlegal : msg.length ≤ Config.hdrmax)
    (hheader : d.din.read 0 = some (BitVec.ofNat 8 msg.length)) (hdecodes : Decodes d.tm q msg)
    (hbits : q <+: d.packedBits) : decompress (d.din.window d.dlen) d.tm = .ok msg := by
  obtain ⟨rest, hrest⟩ := hbits
  have hvalue : (BitVec.ofNat 8 msg.length).toNat = msg.length := by
    rw [Config.hdrmax] at hlegal
    rw [BitVec.toNat_ofNat, Nat.mod_eq_of_lt (by omega)]
  rw [decompress_dinWindow hdin hlen hheader (by rwa [hvalue]), hvalue, ← hrest, walkBits_of_decodes htm hdecodes]

/-- DIN begins with the code bits where its bits agree with those of a payload, as far as these are code bits. -/
theorem isPrefix_packedBits {d : State} (hdin : DinWritten d) {pay : Memory Byte} {n : Nat} {q : Bits}
    (hpay : ∀ j < (payloadOf n q).length, pay.read j = (payloadOf n q)[j]?) (hlen : (payloadOf n q).length ≤ d.dlen)
    (hagree : ∀ p < q.length, ∃ a b, d.din.read (1 + p / 8) = some a ∧ pay.read (1 + p / 8) = some b ∧
      bitAt a p = bitAt b p) : q <+: d.packedBits := by
  refine List.prefix_iff_getElem?.mpr fun p hp => ?_
  obtain ⟨a, b, ha, hb, hab⟩ := hagree p hp
  obtain ⟨v, hv, hbit⟩ := codeBitsStandWhereTheFormatSays n q p q[p] (List.getElem?_eq_getElem hp)
  have hindex : 1 + p / 8 < (payloadOf n q).length := (List.getElem?_eq_some_iff.mp hv).1
  obtain rfl : b = v := by rw [hpay _ hindex, hv] at hb; exact (Option.some.inj hb).symm
  rw [State.getElem?_packedBits hdin (Nat.lt_of_lt_of_le hindex hlen), ha, Option.map_some, hab]
  exact congrArg some hbit

/-- A COMPRESS call that ends DONE: the message was legal and known, and PAY holds the payload of its code bits. -/
theorem compressCall_done {s u t : State} {k : Nat} (hinv : s.Inv) (hlock : s.gstat.lock = true)
    (hidle : s.enc.stat.state ≠ .busy) (hct : WfCT s.params s.ct) (hmsg : MsgWritten s)
    (hexec : exec .compress s = .next u) (hrun : runUnit encStep k u = .next t) (hdone : t.enc.stat.state = .done) :
    s.mlen ≤ Config.hdrmax ∧ (∀ v ∈ s.msg.window s.mlen, ∃ c, codeWord s.ct v = some c) ∧
      t.enc.EndsIn (.ok (payloadOf s.mlen (messageBits (codeWord s.ct) (s.msg.window s.mlen)))) := by
  have hcheck : wfCT s.params s.ct = true := (wfCT_iff hinv.tables.ctWf).mpr hct
  obtain rfl : u = s.encStart := by
    rw [execCompress_accepted hlock hidle hcheck] at hexec
    cases hexec
    rfl
  obtain ⟨j, e, hrun', -, -, hends⟩ := encStart_run hcheck hmsg
  have hidleEnd : t.enc.stat.isBusy = false := by simp [hdone]
  obtain rfl : t = { s with enc := e } :=
    runUnit_idle_unique hrun (encStep_of_not_busy hidleEnd) hrun' (encStep_of_not_busy hends.not_busy)
  cases hresult : compress s.mlen (s.msg.window s.mlen) (codeWord s.ct) with
  | ok payload =>
    obtain ⟨hlegal, hknown, rfl⟩ := compress_ok hresult
    rw [hresult] at hends
    exact ⟨hlegal, hknown, hends⟩
  | error err info =>
    rw [hresult] at hends
    obtain ⟨hstat, -⟩ := hends
    simp [hstat] at hdone
  | undef => rw [hresult] at hends; exact hends.elim

/-- Settles O46: DIN begins with the header and the code bits of the message, and these are the paths to its symbols. -/
theorem decompressInvertsCompress : Obligations.DecompressInvertsCompress := by
  intro s u t d k hinv hlock hidle hct htm hcons hmsg hexec hrun hdone hdinv hparams htmEq hdlock hdidle hdin hdlen
    hheader hagree
  obtain ⟨hlegal, hknown, -, hplen, hpay⟩ := compressCall_done hinv hlock hidle hct hmsg hexec hrun hdone
  have hwritten : s.msg.written s.mlen = true := hmsg hlegal
  have hmlen : (s.msg.window s.mlen).length = s.mlen := Memory.window_length hwritten
  have hcheck : wfTM d.params d.tm = true := by rw [hparams, htmEq]; exact wfTM_of_WfTM htm
  have hlen := Nat.le_trans (Nat.le_of_eq hplen.symm) hdlen
  have hpos : 0 < (payloadOf s.mlen (messageBits (codeWord s.ct) (s.msg.window s.mlen))).length := Nat.succ_pos _
  have hresult : decompress (d.din.window d.dlen) d.tm = .ok (s.msg.window s.mlen) := by
    refine decompress_of_message hcheck hdin (by omega) (by rwa [hmlen]) ?_
      (htmEq ▸ decodes_of_consistent hcons hknown) (isPrefix_packedBits hdin hpay hlen hagree)
    rw [hheader, hpay 0 hpos, hmlen]
    rfl
  obtain ⟨j, e, hrun', -, hends, -⟩ := decStart_run hdinv hdlock hcheck hdin
  rw [hresult] at hends
  obtain ⟨hstat, hslen, hsout⟩ := hends
  rw [hmlen] at hslen hsout
  refine ⟨d.decStart, j, { d with dec := e }, execDecompress_accepted hdlock hdidle hcheck, hrun', hstat, hslen,
    fun i hi => ?_⟩
  rw [hsout i hi, Memory.window_get hwritten hi]

end Sys2Proof.Machine
end

section
/-! What the machine's check of a trie shows (spec 10_state.md R17). The nodes a successful check meets can be listed
without repetition (`TreeListing`). Each of them stood on the work list once, as one of the nodes it began with or as a
child of a node met before, so the list is the first work list and all children together. No child has two parents,
then, and no parent holds a child twice. With `wfTM_of_WfTM` the check decides `WF_TM`. -/

namespace Sys2Proof.Machine

/-- The children a node puts on the check's work list. -/
def nodeChildren (tm : Memory TMEntry) (n : NodeId) : List NodeId :=
  match tm.read n with
  | none => []
  | some e =>
    match e.kind with
    | .leaf => []
    | .internal => [e.left, e.right]

/-- The symbol of a LEAF. -/
def nodeSymbols (tm : Memory TMEntry) (n : NodeId) : List Sym :=
  match tm.read n with
  | none => []
  | some e =>
    match e.kind with
    | .leaf => [e.sym]
    | .internal => []

section
variable {p : Params} {tm : Memory TMEntry} {n : NodeId} {todo seen visited : List NodeId} {syms : List Sym}
  {e : TMEntry}

theorem nodeChildren_leaf (he : tm.read n = some e) (hk : e.kind = .leaf) : nodeChildren tm n = [] := by
  simp [nodeChildren, he, hk]

theorem nodeChildren_internal (he : tm.read n = some e) (hk : e.kind = .internal) :
    nodeChildren tm n = [e.left, e.right] := by
  simp [nodeChildren, he, hk]

theorem nodeSymbols_leaf (he : tm.read n = some e) (hk : e.kind = .leaf) : nodeSymbols tm n = [e.sym] := by
  simp [nodeSymbols, he, hk]

theorem nodeSymbols_internal (he : tm.read n = some e) (hk : e.kind = .internal) : nodeSymbols tm n = [] := by
  simp [nodeSymbols, he, hk]

theorem childOf_eq {b : Bool} {c : NodeId} (h : childOf e b = some c) : c = if b then e.right else e.left := by
  cases b <;> simp_all [childOf]

theorem mem_nodeChildren (he : tm.read n = some e) (hk : e.kind = .internal) {b : Bool} {c : NodeId}
    (hc : childOf e b = some c) : c ∈ nodeChildren tm n := by
  rw [nodeChildren_internal he hk, childOf_eq hc]
  cases b <;> simp

/-- R17's demand on one node: it is below `NNODE` and written, and where it is INTERNAL it has both children. -/
def NodeOk (p : Params) (tm : Memory TMEntry) (n : NodeId) : Prop :=
  n < p.nnode ∧ ∃ e, tm.read n = some e ∧ (e.kind = .internal → e.lv = true ∧ e.rv = true)

/-- The nodes a check meets from a work list on, where it has seen `seen` and leaves with `syms` before. -/
structure TreeListing (p : Params) (tm : Memory TMEntry) (todo seen : List NodeId) (syms : List Sym)
    (visited : List NodeId) : Prop where
  nodes : ∀ n ∈ visited, NodeOk p tm n
  nodup : visited.Nodup
  unseen : ∀ n ∈ visited, n ∉ seen
  entries : visited.Perm (todo ++ visited.flatMap (nodeChildren tm))
  symbolsNodup : (visited.flatMap (nodeSymbols tm)).Nodup
  symbolsNew : ∀ v ∈ visited.flatMap (nodeSymbols tm), v ∉ syms

theorem TreeListing.nil (p : Params) (tm : Memory TMEntry) (seen : List NodeId) (syms : List Sym) :
    TreeListing p tm [] seen syms [] :=
  ⟨by simp, .nil, by simp, .nil, .nil, by simp⟩

/-- The next node of the work list, and then what is met with its children in its place. -/
theorem TreeListing.cons (hn : NodeOk p tm n) (hseen : n ∉ seen) (hsyms : ∀ v ∈ nodeSymbols tm n, v ∉ syms)
    (hone : (nodeSymbols tm n).Nodup)
    (h : TreeListing p tm (nodeChildren tm n ++ todo) (n :: seen) (nodeSymbols tm n ++ syms) visited) :
    TreeListing p tm (n :: todo) seen syms (n :: visited) where
  nodes := by simpa using ⟨hn, h.nodes⟩
  nodup := List.nodup_cons.mpr ⟨fun hmem => h.unseen n hmem (List.mem_cons_self ..), h.nodup⟩
  unseen := by
    simp only [List.forall_mem_cons]
    exact ⟨hseen, fun m hm hmem => h.unseen m hm (List.mem_cons_of_mem n hmem)⟩
  entries := by
    have hswap : (nodeChildren tm n ++ todo ++ visited.flatMap (nodeChildren tm)).Perm
        (todo ++ (nodeChildren tm n ++ visited.flatMap (nodeChildren tm))) := by
      rw [← List.append_assoc]
      exact List.perm_append_comm.append_right _
    exact (h.entries.trans hswap).cons n
  symbolsNodup := by
    refine List.nodup_append.mpr ⟨hone, h.symbolsNodup, fun v hv w hw heq => ?_⟩
    exact h.symbolsNew w hw (heq ▸ List.mem_append_left syms hv)
  symbolsNew := by
    simp only [List.flatMap_cons, List.forall_mem_append]
    exact ⟨hsyms, fun v hv hmem => h.symbolsNew v hv (List.mem_append_right _ hmem)⟩

/-- One round of a successful check of a work list that is not empty: the next node passes, and the check of its
children and the rest of the work list succeeds. -/
theorem treeCheck_cons {fuel : Nat} (h : treeCheck p tm (fuel + 1) (n :: todo) seen syms = true) :
    NodeOk p tm n ∧ n ∉ seen ∧ (∀ v ∈ nodeSymbols tm n, v ∉ syms) ∧ (nodeSymbols tm n).Nodup ∧
      treeCheck p tm fuel (nodeChildren tm n ++ todo) (n :: seen) (nodeSymbols tm n ++ syms) = true := by
  rw [treeCheck] at h
  split at h
  · next hmet =>
    obtain ⟨hbound, hseen⟩ : n < p.nnode ∧ n ∉ seen := by simpa using hmet
    cases he : tm.read n with
    | none => simp [he] at h
    | some e =>
      cases hk : e.kind with
      | leaf =>
        obtain ⟨hnew, hrest⟩ : e.sym ∉ syms ∧ treeCheck p tm fuel todo (n :: seen) (e.sym :: syms) = true := by
          simpa [he, hk] using h
        rw [nodeSymbols_leaf he hk, nodeChildren_leaf he hk]
        exact ⟨⟨hbound, e, he, by simp [hk]⟩, hseen, by simpa using hnew, List.nodup_singleton _, hrest⟩
      | internal =>
        obtain ⟨hlv, hrv, hrest⟩ : e.lv = true ∧ e.rv = true ∧
            treeCheck p tm fuel (e.left :: e.right :: todo) (n :: seen) syms = true := by
          simpa [he, hk] using h
        rw [nodeSymbols_internal he hk, nodeChildren_internal he hk]
        exact ⟨⟨hbound, e, he, fun _ => ⟨hlv, hrv⟩⟩, hseen, by simp, List.nodup_nil, hrest⟩
  · cases h

/-- The nodes that a successful check meets. -/
theorem treeListing_of_treeCheck {fuel : Nat} (h : treeCheck p tm fuel todo seen syms = true) :
    ∃ visited, TreeListing p tm todo seen syms visited := by
  induction fuel generalizing todo seen syms with
  | zero => simp [treeCheck] at h
  | succ fuel ih =>
    cases todo with
    | nil => exact ⟨[], .nil p tm seen syms⟩
    | cons n todo =>
      obtain ⟨hn, hseen, hsyms, hone, hrest⟩ := treeCheck_cons h
      obtain ⟨visited, hvisited⟩ := ih hrest
      exact ⟨n :: visited, .cons hn hseen hsyms hone hvisited⟩

/-- In a list of lists without repetition an element tells its list. -/
theorem eq_of_mem_of_nodup_flatMap {α β : Type} {l : List α} {f : α → List β} (h : (l.flatMap f).Nodup) {a b : α}
    (ha : a ∈ l) (hb : b ∈ l) {c : β} (hca : c ∈ f a) (hcb : c ∈ f b) : a = b := by
  by_contra hne
  have : Std.Symm (Function.onFun List.Disjoint f) := ⟨fun _ _ => List.Disjoint.symm⟩
  exact (List.nodup_flatMap.mp h).2.forall ha hb hne hca hcb

section
variable (h : TreeListing p tm [0] [] [] visited)
include h

theorem TreeListing.entries_nodup : (0 :: visited.flatMap (nodeChildren tm)).Nodup :=
  h.entries.nodup_iff.mp h.nodup

theorem TreeListing.mem_of_reach (hr : Reach tm n) : n ∈ visited := by
  induction hr with
  | root => exact h.entries.mem_iff.mpr (List.mem_cons_self ..)
  | child _ he hk hc ih =>
    have hchild := List.mem_flatMap.mpr ⟨_, ih, mem_nodeChildren he hk hc⟩
    exact h.entries.mem_iff.mpr (List.mem_cons_of_mem 0 hchild)

/-- A listing from the root on is a tree of R17's shape (c). -/
theorem TreeListing.generalTree (hroot : ∃ e, tm.read 0 = some e ∧ e.kind = .internal) : GeneralTree p tm where
  root := hroot
  nodes n hr := h.nodes n (h.mem_of_reach hr)
  rootIsNoChild n e b hr he hk hc :=
    (List.nodup_cons.mp h.entries_nodup).1 (List.mem_flatMap.mpr ⟨n, h.mem_of_reach hr, mem_nodeChildren he hk hc⟩)
  oneParentOneSide m n e f b d c hm hn he hf hke hkf hc hd := by
    have hchildren := (List.nodup_cons.mp h.entries_nodup).2
    obtain rfl : m = n := eq_of_mem_of_nodup_flatMap hchildren (h.mem_of_reach hm) (h.mem_of_reach hn)
      (mem_nodeChildren he hke hc) (mem_nodeChildren hf hkf hd)
    obtain rfl : e = f := Option.some.inj (he.symm.trans hf)
    have hsides : e.left ≠ e.right := by
      have hown := (List.nodup_flatMap.mp hchildren).1 m (h.mem_of_reach hm)
      simpa [nodeChildren_internal he hke] using hown
    have hc := childOf_eq hc
    have hd := childOf_eq hd
    refine ⟨rfl, ?_⟩
    cases b <;> cases d <;> simp_all
  symbolsDistinct m n e f hm hn he hf hke hkf hsym :=
    eq_of_mem_of_nodup_flatMap h.symbolsNodup (h.mem_of_reach hm) (h.mem_of_reach hn)
      (c := e.sym) (by simp [nodeSymbols_leaf he hke]) (by simp [nodeSymbols_leaf hf hkf, hsym])

end

end

/-- The machine's check accepts R17's three shapes only. -/
theorem WfTM_of_wfTM {p : Params} {tm : Memory TMEntry} (h : wfTM p tm = true) : WfTM p tm := by
  obtain ⟨e, he, hk⟩ := wfTM_root h
  cases hlv : e.lv <;> cases hrv : e.rv <;> simp only [wfTM, he, hk, hlv, hrv] at h
  · exact .inl ⟨e, he, hk, hlv, hrv⟩
  · cases h
  · cases hc : tm.read e.left with
    | none => simp [hc] at h
    | some c =>
      obtain ⟨hne, hbound, hleaf⟩ : e.left ≠ 0 ∧ e.left < p.nnode ∧ c.kind = .leaf := by simpa [hc] using h
      exact .inr (.inl ⟨e, c, he, hk, hlv, hrv, hne, hbound, hc, hleaf⟩)
  · obtain ⟨visited, hvisited⟩ := treeListing_of_treeCheck h
    exact .inr (.inr (hvisited.generalTree ⟨e, he, hk⟩))

theorem wfTM_iff {p : Params} {tm : Memory TMEntry} : wfTM p tm = true ↔ WfTM p tm := ⟨WfTM_of_wfTM, wfTM_of_WfTM⟩

end Sys2Proof.Machine
end

section
/-! The system commands (spec 43_system.md R140, R142). A refusal `illFormedLock` has one origin: it comes from
`execLock`, which a step reaches by a write of LOCK's word to CMD only. -/

namespace Sys2Proof.Machine

/-! ### NOP -/

theorem writeCmd_nop (s : State) : writeCmd 0x00#8 s = exec .nop s := rfl

/-- Settles O5: the word of NOP decodes to it, its meaning is the state itself, and a write of the word is NOP. -/
theorem nopChangesNothing : Obligations.NopChangesNothing := by
  have hexec (s : State) : exec .nop s = .next s := rfl
  refine ⟨rfl, fun s => ⟨hexec s, ?_⟩⟩
  rw [hostTxn_writeCmd (by decide), writeCmd_nop, hexec]

/-! ### The commands -/

/-- On a canonical code table R142's check is its two predicates. -/
theorem State.lockTables_iff {s : State} (hwf : s.ct.wf = true) :
    s.lockTables = true ↔ WfCT s.params s.ct ∧ WfTM s.params s.tm := by
  rw [State.lockTables, Bool.and_eq_true, wfCT_iff hwf, wfTM_iff]

/-- Each command has refusals of its own, and this one is LOCK's. -/
theorem exec_illFormedLock_iff {i : Instr} {s : State} :
    exec i s = .refused .illFormedLock ↔ i = .lock ∧ s.gstat.lock = false ∧ s.lockTables = false := by
  cases i with
  | nop => simp [exec, execNop]
  | lock =>
    cases hlock : s.gstat.lock with
    | true => simp [exec, execLock, lockEffect, illegalCommand, hlock]
    | false => simp [exec, execLock, lockEffect, hlock]
  | compress =>
    simp only [exec, execCompress, illegalCommand]
    split
    · split <;> simp
    · simp
  | decompress =>
    simp only [exec, execDecompress, illegalCommand]
    split
    · split <;> simp
    · simp

theorem opcodeTable_encode : ∀ r ∈ opcodeTable, r.mask = 0xFF#8 ∧ r.matchBits = encode r.instr := by decide

theorem eq_encode_of_decode {w : Byte} {i : Instr} (h : decode w = .command i) : w = encode i := by
  unfold decode at h
  split at h
  · next r hfind =>
    obtain ⟨hmask, hmatch⟩ := opcodeTable_encode r (List.mem_of_find?_eq_some hfind)
    have hw : w &&& BitVec.allOnes 8 = r.matchBits := by simpa [hmask] using List.find?_some hfind
    rw [BitVec.and_allOnes] at hw
    cases h
    exact hw.trans hmatch
  · cases h

theorem writeCmd_lock (s : State) : writeCmd 0x01#8 s = exec .lock s := rfl

theorem writeCmd_illFormedLock_iff {w : Byte} {s : State} :
    writeCmd w s = .refused .illFormedLock ↔ w = 0x01#8 ∧ s.gstat.lock = false ∧ s.lockTables = false := by
  constructor
  · intro h
    cases hdecode : decode w with
    | command i =>
      rw [writeCmd, hdecode] at h
      obtain ⟨rfl, hill⟩ := exec_illFormedLock_iff.mp h
      exact ⟨eq_encode_of_decode hdecode, hill⟩
    | reserved v => simp [writeCmd, hdecode, illegalCommand] at h
  · rintro ⟨rfl, hill⟩
    rw [writeCmd_lock]
    exact exec_illFormedLock_iff.mpr ⟨rfl, hill⟩

/-! ### The transactions -/

/-- Every other transaction of the block goes on (R41). -/
theorem hostPerform_refused {t : HostTxn} {s : State} {r : Refusal} (h : hostPerform t s = .refused r) :
    ∃ w, t = .writeReg .cmd w ∧ writeCmd (BitVec.ofNat 8 w) s = .refused r := by
  cases t with
  | writeReg reg w =>
    cases reg with
    | cmd => exact ⟨w, rfl, h⟩
    | _ => simp [hostPerform, writeRegister] at h
  | _ => simp [hostPerform] at h

theorem hostTxn_illFormedLock_iff {t : HostTxn} {s : State} :
    hostTxn t s = .refused .illFormedLock ↔
      t = .writeReg .cmd 0x01 ∧ s.gstat.lock = false ∧ s.lockTables = false := by
  constructor
  · intro h
    rw [hostTxn] at h
    split at h
    · next hfits =>
      obtain ⟨w, rfl, hcmd⟩ := hostPerform_refused h
      obtain ⟨hword, hill⟩ := writeCmd_illFormedLock_iff.mp hcmd
      have hlt : w < 256 := of_decide_eq_true hfits
      have hmod : w % 256 = 1 := congrArg BitVec.toNat hword
      rw [Nat.mod_eq_of_lt hlt] at hmod
      exact ⟨hmod ▸ rfl, hill⟩
    · cases h
  · rintro ⟨rfl, hill⟩
    rw [hostTxn_writeCmd (by decide)]
    exact writeCmd_illFormedLock_iff.mpr ⟨rfl, hill⟩

/-! ### The steps -/

section
variable (s : State) (r : Refusal)

theorem encEmit_not_refused (q : Bits) : encEmit q s ≠ .refused r := by
  unfold encEmit
  split <;> simp

theorem encLookup_not_refused (v : Sym) : encLookup v s ≠ .refused r := by
  unfold encLookup
  split
  · simp
  · exact encEmit_not_refused s r _

theorem encSym_not_refused : encSym s ≠ .refused r := by
  unfold encSym
  split
  · simp
  · split
    · exact encLookup_not_refused _ r _
    · simp

theorem encFlush_not_refused : encFlush s ≠ .refused r := by
  unfold encFlush
  split
  · simp
  · split <;> simp

theorem encStep_not_refused : encStep s ≠ .refused r := by
  unfold encStep
  split
  · split
    · unfold encChk
      split <;> simp
    · exact encSym_not_refused s r
    · exact encFlush_not_refused s r
  · simp

theorem decArrive_not_refused (c : NodeId) : decArrive c s ≠ .refused r := by
  unfold decArrive
  split
  · simp
  · split
    · simp
    · split <;> simp

theorem decFollow_not_refused (b : Bool) : decFollow b s ≠ .refused r := by
  unfold decFollow
  split
  · simp
  · split
    · simp
    · split
      · simp
      · exact decArrive_not_refused s r _

theorem decHdr_not_refused : decHdr s ≠ .refused r := by
  unfold decHdr
  split
  · simp
  · unfold decHeader
    split <;> simp

theorem decWalk_not_refused : decWalk s ≠ .refused r := by
  unfold decWalk
  split
  · simp
  · split
    · simp
    · split
      · exact decFollow_not_refused _ r _
      · simp

theorem decStep_not_refused : decStep s ≠ .refused r := by
  unfold decStep
  split
  · split
    · exact decHdr_not_refused s r
    · exact decWalk_not_refused s r
  · simp

end

/-- On the HOST's turn a step is the transaction `nextTxn` names, with the schedule and the script moved on. -/
theorem step_of_hostTurn {s : State} {sched : List Agent} (hturn : s.nextAgent = some (.host, sched)) :
    ∃ txn script, s.nextTxn = some txn ∧ step s = hostTxn txn { s with sched := sched, script := script } := by
  have hen : s.enabled .host = true := State.nextAgent_enabled hturn
  cases hs : s.script with
  | nil => simp [State.enabled, hs] at hen
  | cons stmt rest =>
    have hstep : step s = hostStep { s with sched := sched } := by rw [step, hturn]
    simp only [hstep, hostStep, State.nextTxn, hturn, hs]
    cases stmt with
    | txn txn => exact ⟨txn, _, rfl, rfl⟩
    | waitE => exact ⟨.readReg .estat, _, rfl, rfl⟩
    | waitD => exact ⟨.readReg .dstat, _, rfl, rfl⟩

/-- Only a transaction is ever refused: the end of the run and the steps of the units are not. -/
theorem step_refusal_cases (s : State) :
    (∃ txn sched script, s.nextTxn = some txn ∧ step s = hostTxn txn { s with sched := sched, script := script }) ∨
      (s.nextTxn = none ∧ ∀ r, step s ≠ .refused r) := by
  obtain ⟨hover, hstep⟩ | ⟨a, sched, hturn, -, ⟨rfl, -⟩ | ⟨rfl, hstep⟩ | ⟨rfl, hstep⟩⟩ := step_cases s
  · exact .inr ⟨by simp [State.nextTxn, hover], fun r => by simp [hstep]⟩
  · obtain ⟨txn, script, htxn, hstep⟩ := step_of_hostTurn hturn
    exact .inl ⟨txn, sched, script, htxn, hstep⟩
  · exact .inr ⟨by simp [State.nextTxn, hturn], fun r => hstep ▸ encStep_not_refused _ r⟩
  · exact .inr ⟨by simp [State.nextTxn, hturn], fun r => hstep ▸ decStep_not_refused _ r⟩

theorem step_illFormedLock_iff {s : State} :
    step s = .refused .illFormedLock ↔
      s.nextTxn = some (.writeReg .cmd 0x01) ∧ s.gstat.lock = false ∧ s.lockTables = false := by
  obtain ⟨txn, sched, script, htxn, hstep⟩ | ⟨hnone, hstep⟩ := step_refusal_cases s
  · rw [hstep, htxn, hostTxn_illFormedLock_iff, Option.some.injEq]
    rfl
  · simp [hstep, hnone]

/-! ### LOCK after reset -/

theorem nsym_pos (p : Params) : 0 < p.nsym := Nat.two_pow_pos p.symw

/-- A write of an empty INTERNAL node at the root is a transaction of every block (R42). -/
theorem writeTM_placeholder_reset (p : Params) :
    let root : TMEntry := { kind := .internal, sym := 0, lv := false, left := 0, rv := false, right := 0 }
    hostTxn (.writeTM 0 root) (State.resetWith p) = .next { State.resetWith p with tm := [(0, root)] } := by
  have hnode : 0 < p.nnode := by
    have := nsym_pos p
    unfold Params.nnode
    omega
  refine if_pos ?_
  simp [txnFits, tmEntryFits, State.resetWith, hnode, nsym_pos p]

/-- Settles O56: a step's refusal is the check's, no table is written at reset, and the placeholder passes the check. -/
theorem lockRefusedExactlyOnIllFormedTables : Obligations.LockRefusedExactlyOnIllFormedTables := by
  refine ⟨fun s hwf => ?_, fun p => ⟨?_, _, _, writeTM_placeholder_reset p, rfl, rfl⟩⟩
  · rw [step_illFormedLock_iff, ← State.lockTables_iff hwf, Bool.not_eq_true]
  · exact exec_illFormedLock_iff.mpr ⟨rfl, rfl, rfl⟩

end Sys2Proof.Machine
end

section
/-! Errors (spec 60_exceptions.md R154, R160). What one step does to its unit's status is said once (`StatusMove`): it
keeps it, completes the call, or raises one of the unit's own errors. So an error after a step of a BUSY unit is one that
the step raised. -/

namespace Sys2Proof.Machine

/-- Settles O14: each raise is the record update, its state is ERROR, and a BUSY unit has length 0 under its invariant. -/
theorem raiseWritesOnlyTheUnitsStatus : Obligations.RaiseWritesOnlyTheUnitsStatus := by
  intro s e info
  refine ⟨rfl, rfl, rfl, rfl, fun hinv hbusy => ?_, fun hinv hbusy => ?_⟩
  · exact hinv.noLength (by simp [hbusy])
  · exact hinv.noLength (by simp [hbusy])

/-! ### What a step does to its unit's status -/

/-- R154's errors of ENC. -/
def EncError (e : ErrCode) : Prop := e = .unknownSymbol ∨ e = .messageTooLarge

/-- R154's errors of DEC. -/
def DecError (e : ErrCode) : Prop := e = .emptyPayload ∨ e = .truncatedPayload ∨ e = .headerRange ∨ e = .noChild

/-- From status `u` a step goes on, ends its call (R113, R132), or raises an error that the unit owns (R160). -/
inductive StatusMove (own : ErrCode → Prop) (u : UnitStatus) : UnitStatus → Prop where
  | keep : StatusMove own u u
  | complete : StatusMove own u u.complete
  | raise {e : ErrCode} (he : own e) (info : Nat) : StatusMove own u (.raise e info)

theorem StatusMove.error_own {own : ErrCode → Prop} {u v : UnitStatus} (h : StatusMove own u v) (hbusy : u.state = .busy)
    (herr : v.state = .error) : own v.err := by
  cases h with
  | keep => simp [hbusy] at herr
  | complete => simp at herr
  | raise he info => exact he

/-! ### ENC -/

section
variable {s t : State}

theorem encChk_statusMove (h : encChk s = .next t) : StatusMove EncError s.enc.stat t.enc.stat := by
  unfold encChk at h
  split at h
  · cases h
    exact .raise (.inr rfl) _
  · cases h
    exact .keep

theorem encEmit_statusMove {q : Bits} (h : encEmit q s = .next t) : StatusMove EncError s.enc.stat t.enc.stat := by
  unfold encEmit at h
  split at h
  · cases h
    rw [encPushAll_stat]
    exact .keep
  · cases h

theorem encLookup_statusMove {v : Sym} (h : encLookup v s = .next t) : StatusMove EncError s.enc.stat t.enc.stat := by
  unfold encLookup at h
  split at h
  · cases h
    exact .raise (.inl rfl) _
  · exact encEmit_statusMove h

theorem encSym_statusMove (h : encSym s = .next t) : StatusMove EncError s.enc.stat t.enc.stat := by
  unfold encSym at h
  split at h
  · cases h
    exact .keep
  · split at h
    · rw [← State.encMsg_enc_stat]
      exact encLookup_statusMove h
    · cases h

theorem encFlush_statusMove (h : encFlush s = .next t) : StatusMove EncError s.enc.stat t.enc.stat := by
  unfold encFlush at h
  split at h
  · cases h
    exact .complete
  · split at h
    · cases h
      exact .complete
    · cases h

theorem encStep_statusMove (h : encStep s = .next t) : StatusMove EncError s.enc.stat t.enc.stat := by
  unfold encStep at h
  split at h
  · split at h
    · exact encChk_statusMove h
    · exact encSym_statusMove h
    · exact encFlush_statusMove h
  · cases h
    exact .keep

/-! ### DEC -/

theorem decHeader_statusMove {v : Byte} (h : decHeader v s = .next t) : StatusMove DecError s.dec.stat t.dec.stat := by
  unfold decHeader at h
  split at h
  · cases h
    exact .raise (.inr (.inr (.inl rfl))) _
  · cases h
    exact .keep

theorem decHdr_statusMove (h : decHdr s = .next t) : StatusMove DecError s.dec.stat t.dec.stat := by
  unfold decHdr at h
  split at h
  · cases h
    exact .raise (.inl rfl) _
  · rw [← State.decDin_dec_stat]
    exact decHeader_statusMove h

theorem decArrive_statusMove {c : NodeId} (h : decArrive c s = .next t) : StatusMove DecError s.dec.stat t.dec.stat := by
  unfold decArrive at h
  split at h
  · cases h
  · split at h
    · cases h
      exact .keep
    · split at h
      · cases h
        exact .keep
      · cases h

theorem decFollow_statusMove {b : Bool} (h : decFollow b s = .next t) : StatusMove DecError s.dec.stat t.dec.stat := by
  unfold decFollow at h
  split at h
  · cases h
  · split at h
    · cases h
    · split at h
      · cases h
        exact .raise (.inr (.inr (.inr rfl))) _
      · exact decArrive_statusMove h

theorem decConsume_statusMove {v : Byte} (h : decConsume v s = .next t) : StatusMove DecError s.dec.stat t.dec.stat := by
  have hmove := decFollow_statusMove h
  exact hmove

theorem decWalk_statusMove (h : decWalk s = .next t) : StatusMove DecError s.dec.stat t.dec.stat := by
  unfold decWalk at h
  split at h
  · cases h
    exact .complete
  · split at h
    · cases h
      exact .raise (.inr (.inl rfl)) _
    · split at h
      · rw [← State.decDin_dec_stat]
        exact decConsume_statusMove h
      · cases h

theorem decStep_statusMove (h : decStep s = .next t) : StatusMove DecError s.dec.stat t.dec.stat := by
  unfold decStep at h
  split at h
  · split at h
    · exact decHdr_statusMove h
    · exact decWalk_statusMove h
  · cases h
    exact .keep

end

/-- A command touches a unit's column only to start that unit. -/
theorem exec_stat {i : Instr} {s t : State} (h : exec i s = .next t) :
    (i ≠ .compress → t.enc.stat = s.enc.stat) ∧ (i ≠ .decompress → t.dec.stat = s.dec.stat) := by
  obtain rfl | ⟨-, rfl⟩ | ⟨-, -, -, rfl⟩ | ⟨rfl, -, -, -, rfl⟩ | ⟨rfl, -, -, -, rfl⟩ := exec_next h
  · exact ⟨fun _ => rfl, fun _ => rfl⟩
  · exact ⟨fun _ => rfl, fun _ => rfl⟩
  · exact ⟨fun _ => rfl, fun _ => rfl⟩
  · exact ⟨fun hne => absurd rfl hne, fun _ => rfl⟩
  · exact ⟨fun _ => rfl, fun hne => absurd rfl hne⟩

/-- Settles O15: a unit's step writes its own column and moves its status by its own errors, and of the commands only
COMPRESS and DECOMPRESS touch a status. -/
theorem eachUnitRaisesOnlyItsOwnErrors : Obligations.EachUnitRaisesOnlyItsOwnErrors := by
  refine ⟨fun s t hbusy h => ⟨?_, ?_⟩, fun s t hbusy h => ⟨?_, ?_⟩, fun s t h => ?_⟩
  · rw [encStep_frame h]
  · exact (encStep_statusMove h).error_own hbusy
  · rw [decStep_frame h]
  · exact (decStep_statusMove h).error_own hbusy
  · obtain hnop | hlock := h
    · exact ⟨(exec_stat hnop).1 (by decide), (exec_stat hnop).2 (by decide)⟩
    · exact ⟨(exec_stat hlock).1 (by decide), (exec_stat hlock).2 (by decide)⟩

end Sys2Proof.Machine
end

section
/-! The sticky flags (spec 60_exceptions.md R163, R164). A command word that goes on sets ILLCMD exactly where R163 lists
it (`writeCmd_illcmd`), and any other transaction sets ILLACC exactly where R164 lists it (`hostPerform_gstat`). So what a
step does to the flags is one of four cases (`FlagStep`), and only a reset clears one. -/

namespace Sys2Proof.Machine

/-! ### Illegal commands -/

section
variable (s : State)

theorem illegalWord_nop : s.illegalWord (encode .nop).toNat = false := rfl

theorem illegalWord_lock : s.illegalWord (encode .lock).toNat = s.gstat.lock := by
  simp [State.illegalWord, encode]

/-- The list has `RUN mode, unit not BUSY` negated, the machine tests it as it stands. -/
theorem illegalWord_compress :
    s.illegalWord (encode .compress).toNat = !(s.gstat.lock && !s.enc.stat.isBusy) := by
  simp [State.illegalWord, encode, Bool.not_and]

theorem illegalWord_decompress :
    s.illegalWord (encode .decompress).toNat = !(s.gstat.lock && !s.dec.stat.isBusy) := by
  simp [State.illegalWord, encode, Bool.not_and]

end

theorem exec_of_illegalWord {i : Instr} {s : State} (hill : s.illegalWord (encode i).toNat = true) :
    exec i s = .next s.setIllCmd := by
  cases i with
  | nop => simp [illegalWord_nop] at hill
  | lock =>
    rw [illegalWord_lock] at hill
    simp [exec, execLock, lockEffect, illegalCommand, hill]
  | compress =>
    rw [illegalWord_compress, Bool.not_eq_true'] at hill
    simp only [exec, execCompress, illegalCommand, hill, Bool.false_eq_true, if_false]
  | decompress =>
    rw [illegalWord_decompress, Bool.not_eq_true'] at hill
    simp only [exec, execDecompress, illegalCommand, hill, Bool.false_eq_true, if_false]

theorem exec_illcmd_of_legalWord {i : Instr} {s t : State} (hlegal : s.illegalWord (encode i).toNat = false)
    (h : exec i s = .next t) : t.gstat.illcmd = s.gstat.illcmd := by
  cases i with
  | nop =>
    cases h
    rfl
  | lock =>
    rw [illegalWord_lock] at hlegal
    simp only [exec, execLock, lockEffect, hlegal, Bool.false_or, Bool.false_eq_true, if_false] at h
    split at h
    · cases h
      rfl
    · cases h
  | compress =>
    rw [illegalWord_compress, Bool.not_eq_false'] at hlegal
    simp only [exec, execCompress, hlegal, if_true] at h
    split at h
    · cases h
      rfl
    · cases h
  | decompress =>
    rw [illegalWord_decompress, Bool.not_eq_false'] at hlegal
    simp only [exec, execDecompress, hlegal, if_true] at h
    split at h
    · cases h
      rfl
    · cases h

theorem illegalWord_of_reserved {w : Byte} (s : State) (h : 4 ≤ w.toNat) : s.illegalWord w.toNat = true := by
  simp [State.illegalWord, h]

theorem decode_cases (w : Byte) : (∃ i, decode w = .command i ∧ w = encode i) ∨ 4 ≤ w.toNat := by
  by_cases h : w.toNat < 4
  · obtain ⟨i, hi⟩ := decode_command_of_lt h
    rw [BitVec.ofNat_toNat, BitVec.setWidth_eq] at hi
    exact .inl ⟨i, hi, eq_encode_of_decode hi⟩
  · exact .inr (Nat.le_of_not_lt h)

theorem writeCmd_of_illegalWord {w : Byte} {s : State} (hill : s.illegalWord w.toNat = true) :
    writeCmd w s = .next s.setIllCmd := by
  obtain ⟨i, hdecode, rfl⟩ | hreserved := decode_cases w
  · rw [writeCmd, hdecode]
    exact exec_of_illegalWord hill
  · exact writeCmd_reserved hreserved s

/-- A command word that goes on sets ILLCMD where it is illegal and leaves the flag where it is not. -/
theorem writeCmd_illcmd {w : Byte} {s t : State} (h : writeCmd w s = .next t) :
    t.gstat.illcmd = (s.gstat.illcmd || s.illegalWord w.toNat) := by
  cases hill : s.illegalWord w.toNat with
  | true =>
    rw [writeCmd_of_illegalWord hill] at h
    cases h
    exact (Bool.or_true _).symm
  | false =>
    rw [Bool.or_false]
    obtain ⟨i, hdecode, rfl⟩ | hreserved := decode_cases w
    · rw [writeCmd, hdecode] at h
      exact exec_illcmd_of_legalWord hill h
    · simp [illegalWord_of_reserved s hreserved] at hill

theorem writeCmd_illacc {w : Byte} {s t : State} (h : writeCmd w s = .next t) : t.gstat.illacc = s.gstat.illacc := by
  obtain ⟨i, hexec⟩ | rfl := writeCmd_next h
  · obtain rfl | ⟨-, rfl⟩ | ⟨-, -, -, rfl⟩ | ⟨-, -, -, -, rfl⟩ | ⟨-, -, -, -, rfl⟩ := exec_next hexec
    all_goals rfl
  · rfl

/-! ### Illegal accesses -/

theorem hostPerform_of_illegalAccess {txn : HostTxn} {s : State} (hill : s.illegalAccess txn = true) :
    hostPerform txn s = .next s.setIllAcc := by
  cases txn with
  | writeCT v e =>
    have hlock : s.gstat.lock = true := hill
    simp [hostPerform, writeCT, hlock]
  | writeTM n e =>
    have hlock : s.gstat.lock = true := hill
    simp [hostPerform, writeTM, hlock]
  | writeBuf b i v =>
    cases b with
    | msg =>
      have hbusy : s.enc.stat.isBusy = true := hill
      simp only [hostPerform, writeBuffer, hbusy, if_true]
    | din =>
      have hbusy : s.dec.stat.isBusy = true := hill
      simp only [hostPerform, writeBuffer, hbusy, if_true]
    | pay => rfl
    | sout => rfl
  | writeReg r v =>
    cases r with
    | cmd => cases hill
    | mlen =>
      have hbusy : s.enc.stat.isBusy = true := hill
      simp only [hostPerform, writeRegister, hbusy, if_true]
    | dlen =>
      have hbusy : s.dec.stat.isBusy = true := hill
      simp only [hostPerform, writeRegister, hbusy, if_true]
    | _ => rfl
  | _ => cases hill

theorem readElement_gstat (x : Space) (i : Nat) (s : State) : (readElement x i s).gstat = s.gstat := by
  obtain ⟨r, hr | hr⟩ := readElement_eq x i s
  · rw [hr, State.reply_gstat]
  · rw [hr, State.drawnReply_gstat]

theorem readRegister_gstat (r : Reg) (s : State) : (readRegister r s).gstat = s.gstat := by
  obtain ⟨v, hv | hv⟩ := readRegister_eq r s
  · rw [hv, State.reply_gstat]
  · rw [hv, State.drawnReply_gstat]

/-- GSTAT is written by commands, refused accesses and resets only. -/
theorem hostPerform_gstat_of_legalAccess {txn : HostTxn} {s t : State} (hcmd : ∀ w, txn ≠ .writeReg .cmd w)
    (hreset : txn ≠ .reset) (hlegal : s.illegalAccess txn = false) (h : hostPerform txn s = .next t) :
    t.gstat = s.gstat := by
  cases txn with
  | writeCT v e =>
    have hconfig : s.gstat.lock = false := hlegal
    cases h
    simp [writeCT, hconfig]
  | writeTM n e =>
    have hconfig : s.gstat.lock = false := hlegal
    cases h
    simp [writeTM, hconfig]
  | writeBuf b i v =>
    cases h
    cases b with
    | msg =>
      have hidle : s.enc.stat.isBusy = false := hlegal
      simp [writeBuffer, hidle]
    | din =>
      have hidle : s.dec.stat.isBusy = false := hlegal
      simp [writeBuffer, hidle]
    | _ => cases hlegal
  | read x i =>
    cases h
    exact readElement_gstat x i s
  | writeReg r v =>
    cases r with
    | cmd => exact absurd rfl (hcmd v)
    | mlen =>
      have hidle : s.enc.stat.isBusy = false := hlegal
      cases h
      simp [hidle]
    | dlen =>
      have hidle : s.dec.stat.isBusy = false := hlegal
      cases h
      simp [hidle]
    | _ => cases hlegal
  | readReg r =>
    cases h
    exact readRegister_gstat r s
  | reset => exact absurd rfl hreset

theorem hostPerform_gstat {txn : HostTxn} {s t : State} (hcmd : ∀ w, txn ≠ .writeReg .cmd w) (hreset : txn ≠ .reset)
    (h : hostPerform txn s = .next t) :
    t.gstat = { s.gstat with illacc := s.gstat.illacc || s.illegalAccess txn } := by
  cases hill : s.illegalAccess txn with
  | true =>
    rw [hostPerform_of_illegalAccess hill] at h
    cases h
    simp
  | false =>
    rw [Bool.or_false]
    exact hostPerform_gstat_of_legalAccess hcmd hreset hill h

/-! ### The flags over one step -/

/-- What a step from `s` to `t` does to the two flags. -/
inductive FlagStep (s t : State) : Prop where
  | kept (hgstat : t.gstat = s.gstat)
  | command {w : Nat} (hw : w < 256) (hnext : s.nextTxn = some (.writeReg .cmd w))
      (hillcmd : t.gstat.illcmd = (s.gstat.illcmd || s.illegalWord w)) (hillacc : t.gstat.illacc = s.gstat.illacc)
  | access {txn : HostTxn} (hnext : s.nextTxn = some txn)
      (hgstat : t.gstat = { s.gstat with illacc := s.gstat.illacc || s.illegalAccess txn })
  | reset (hnext : s.nextTxn = some .reset) (hillcmd : t.gstat.illcmd = false) (hillacc : t.gstat.illacc = false)

/-- The lists of R163 and R164 do not read the schedule and the script, which a step moves on first. -/
theorem flagStep_of_hostTxn {s t : State} {txn : HostTxn} {sched : List Agent} {script : List HostStmt}
    (hnext : s.nextTxn = some txn) (h : hostTxn txn { s with sched := sched, script := script } = .next t) :
    FlagStep s t := by
  obtain ⟨hfits, hrun⟩ := hostTxn_next h
  by_cases hcmd : ∃ w, txn = .writeReg .cmd w
  · obtain ⟨w, rfl⟩ := hcmd
    have hw : w < 256 := of_decide_eq_true hfits
    have hillcmd := writeCmd_illcmd hrun
    have hillacc := writeCmd_illacc hrun
    rw [BitVec.toNat_ofNat, Nat.mod_eq_of_lt hw] at hillcmd
    exact .command hw hnext hillcmd hillacc
  by_cases hreset : txn = .reset
  · subst hreset
    cases hrun
    exact .reset hnext rfl rfl
  have hgstat := hostPerform_gstat (fun w hw => hcmd ⟨w, hw⟩) hreset hrun
  exact .access hnext hgstat

theorem flagStep_of_step {s t : State} (h : step s = .next t) : FlagStep s t := by
  obtain ⟨-, rfl⟩ | ⟨txn, sched, script, hnext, hrun⟩ | ⟨sched, -, henc⟩ | ⟨sched, -, hdec⟩ := step_next h
  · exact .kept rfl
  · exact flagStep_of_hostTxn hnext hrun
  · exact .kept (by rw [encStep_frame henc])
  · exact .kept (by rw [decStep_frame hdec])

/-- Settles O11: an illegal word goes to `setIllCmd`, and over a step the flag is the old one or the word's legality. -/
theorem illCmdIsSetExactlyByIllegalCommands : Obligations.IllCmdIsSetExactlyByIllegalCommands := by
  refine ⟨fun s w hw hill => ?_, fun s t h => ?_⟩
  · rw [hostTxn_writeCmd hw]
    exact writeCmd_of_illegalWord (by rwa [BitVec.toNat_ofNat, Nat.mod_eq_of_lt hw])
  · cases flagStep_of_step h with
    | kept hgstat => simp +contextual [hgstat]
    | @command w hw hnext hillcmd _ =>
      refine ⟨fun hclear hset => ⟨w, hw, hnext, ?_⟩, fun hset => .inl ?_⟩
      · rwa [hillcmd, hclear, Bool.false_or] at hset
      · rw [hillcmd, hset, Bool.true_or]
    | access _ hgstat => simp +contextual [hgstat]
    | reset hnext hillcmd _ => exact ⟨fun _ hset => by simp [hillcmd] at hset, fun _ => .inr hnext⟩

/-- Settles O12: an illegal access goes to `setIllAcc`, and over a step the flag is the old one or the access's legality. -/
theorem illAccIsSetExactlyByIllegalAccesses : Obligations.IllAccIsSetExactlyByIllegalAccesses := by
  refine ⟨fun s txn hfits hill => ?_, fun s t h => ?_⟩
  · rw [hostTxn, if_pos hfits]
    exact hostPerform_of_illegalAccess hill
  · cases flagStep_of_step h with
    | kept hgstat => simp +contextual [hgstat]
    | command _ _ _ hillacc => simp +contextual [hillacc]
    | @access txn hnext hgstat =>
      refine ⟨fun hclear hset => ⟨txn, hnext, ?_⟩, fun hset => .inl ?_⟩
      · simpa [hgstat, hclear] using hset
      · simp [hgstat, hset]
    | reset hnext _ hillacc => exact ⟨fun _ hset => by simp [hillacc] at hset, fun _ => .inr hnext⟩

end Sys2Proof.Machine
end

section
/-! Reset (spec 70_reset_and_hazards.md R180, R181). A Reset event is `resetEvent`, whose fields the laws of the state
give. That no other step clears LOCK is R19's law (`step_tablesFrozen`), that none clears a flag is what R163 and R164
say of the flags over a step. -/

namespace Sys2Proof.Machine

theorem UnitStatus.word_reset : UnitStatus.reset.word = 0 := by decide

theorem GStat.word_clear : GStat.word { lock := false, illcmd := false, illacc := false } = 0 := by decide

theorem resetState_resetEvent (s : State) : ResetState s.resetEvent :=
  ⟨rfl, fun _ => rfl, rfl, rfl, rfl, rfl, rfl, rfl⟩

/-- Settles O17: the event's values stand in `resetEvent`, and LOCK and the flags are sticky by R19, R163 and R164. -/
theorem resetEventGivesTheStatedValues : Obligations.ResetEventGivesTheStatedValues := by
  refine ⟨fun s => ⟨s.resetEvent, rfl, resetState_resetEvent s, UnitStatus.word_reset, UnitStatus.word_reset,
      GStat.word_clear, rfl, rfl, fun a => ?_⟩,
    fun s t h hreset => ⟨fun hlock => ?_, fun hillcmd => ?_, fun hillacc => ?_⟩⟩
  · exact ⟨rfl, rfl, rfl, rfl, rfl, rfl⟩
  · exact (step_tablesFrozen hlock h hreset).locked
  · obtain ⟨-, hsticky⟩ := illCmdIsSetExactlyByIllegalCommands.2 s t h
    exact (hsticky hillcmd).resolve_right hreset
  · obtain ⟨-, hsticky⟩ := illAccIsSetExactlyByIllegalAccesses.2 s t h
    exact (hsticky hillacc).resolve_right hreset

end Sys2Proof.Machine
end

section
/-! The inputs of a running call (spec 70_reset_and_hazards.md R188). MSG, MLEN, DIN and DLEN are written by the HOST
only: no command and no step of a unit changes one (`InputsKept`), and a HOST write to one is honoured only while its
unit is not BUSY. -/

namespace Sys2Proof.Machine

/-- `t` has the input buffers and length registers of `s`. -/
structure InputsKept (s t : State) : Prop where
  msg : t.msg = s.msg
  mlen : t.mlen = s.mlen
  din : t.din = s.din
  dlen : t.dlen = s.dlen

/-- `t` has the input buffer and length register of every unit that is BUSY in `s`. -/
structure BusyInputsKept (s t : State) : Prop where
  enc : s.enc.stat.isBusy = true → t.mlen = s.mlen ∧ t.msg = s.msg
  dec : s.dec.stat.isBusy = true → t.dlen = s.dlen ∧ t.din = s.din

theorem InputsKept.busy {s t : State} (h : InputsKept s t) : BusyInputsKept s t :=
  ⟨fun _ => ⟨h.mlen, h.msg⟩, fun _ => ⟨h.dlen, h.din⟩⟩

theorem exec_inputsKept {i : Instr} {s t : State} (h : exec i s = .next t) : InputsKept s t := by
  obtain rfl | ⟨-, rfl⟩ | ⟨-, -, -, rfl⟩ | ⟨-, -, -, -, rfl⟩ | ⟨-, -, -, -, rfl⟩ := exec_next h
  all_goals exact ⟨rfl, rfl, rfl, rfl⟩

theorem writeCmd_inputsKept {w : Byte} {s t : State} (h : writeCmd w s = .next t) : InputsKept s t := by
  obtain ⟨i, hexec⟩ | rfl := writeCmd_next h
  · exact exec_inputsKept hexec
  · exact ⟨rfl, rfl, rfl, rfl⟩

/-- A write that is honoured goes to an input of a unit that is not BUSY, and changes no input of the other unit. -/
theorem hostPerform_busyInputsKept {txn : HostTxn} {s t : State} (hreset : txn ≠ .reset)
    (h : hostPerform txn s = .next t) : BusyInputsKept s t := by
  obtain ⟨r, rfl | rfl⟩ | rfl | ⟨w, hcmd⟩ | ⟨v, e, -, -, rfl⟩ | ⟨n, e, -, -, rfl⟩ | ⟨i, v, -, hidle, rfl⟩ |
    ⟨i, v, -, hidle, rfl⟩ | ⟨v, -, hidle, rfl⟩ | ⟨v, -, hidle, rfl⟩ | ⟨rfl, -⟩ := hostPerform_next h
  · exact InputsKept.busy ⟨rfl, rfl, rfl, rfl⟩
  · exact InputsKept.busy ⟨rfl, rfl, rfl, rfl⟩
  · exact InputsKept.busy ⟨rfl, rfl, rfl, rfl⟩
  · exact (writeCmd_inputsKept hcmd).busy
  · exact InputsKept.busy ⟨rfl, rfl, rfl, rfl⟩
  · exact InputsKept.busy ⟨rfl, rfl, rfl, rfl⟩
  · exact ⟨fun hbusy => absurd hbusy (Bool.eq_false_iff.mp hidle), fun _ => ⟨rfl, rfl⟩⟩
  · exact ⟨fun _ => ⟨rfl, rfl⟩, fun hbusy => absurd hbusy (Bool.eq_false_iff.mp hidle)⟩
  · exact ⟨fun hbusy => absurd hbusy (Bool.eq_false_iff.mp hidle), fun _ => ⟨rfl, rfl⟩⟩
  · exact ⟨fun _ => ⟨rfl, rfl⟩, fun hbusy => absurd hbusy (Bool.eq_false_iff.mp hidle)⟩
  · exact absurd rfl hreset

/-- The inputs and the units do not read the schedule and the script, which a step moves on first. -/
theorem step_busyInputsKept {s t : State} (h : step s = .next t) (hreset : s.nextTxn ≠ some .reset) :
    BusyInputsKept s t := by
  obtain ⟨-, rfl⟩ | ⟨txn, sched, script, htxn, hrun⟩ | ⟨sched, -, henc⟩ | ⟨sched, -, hdec⟩ := step_next h
  · exact InputsKept.busy ⟨rfl, rfl, rfl, rfl⟩
  · have hno : txn ≠ .reset := by rintro rfl; exact hreset htxn
    obtain ⟨hmsg, hdin⟩ : BusyInputsKept { s with sched := sched, script := script } t :=
      hostPerform_busyInputsKept hno (hostTxn_next hrun).2
    exact ⟨hmsg, hdin⟩
  · rw [encStep_frame henc]
    exact InputsKept.busy ⟨rfl, rfl, rfl, rfl⟩
  · rw [decStep_frame hdec]
    exact InputsKept.busy ⟨rfl, rfl, rfl, rfl⟩

/-- Settles O27: no step but a reset changes a BUSY unit's inputs, and R164 lists the HOST's writes to them. -/
theorem inputsAreProtectedWhileBusy : Obligations.InputsAreProtectedWhileBusy := by
  refine ⟨fun s t h hreset => ?_, fun s txn hfits => ?_⟩
  · obtain ⟨henc, hdec⟩ := step_busyInputsKept h hreset
    refine ⟨fun hbusy => ?_, fun hbusy => ?_⟩
    · obtain ⟨hmlen, hmsg⟩ := henc ((UnitStatus.isBusy_iff _).mpr hbusy)
      exact ⟨hmlen, fun a => by rw [hmsg]⟩
    · obtain ⟨hdlen, hdin⟩ := hdec ((UnitStatus.isBusy_iff _).mpr hbusy)
      exact ⟨hdlen, fun a => by rw [hdin]⟩
  · have hdropped := illAccIsSetExactlyByIllegalAccesses.1 s txn hfits
    refine ⟨fun hbusy htxn => hdropped ?_, fun hbusy htxn => hdropped ?_⟩
    · obtain ⟨i, v, rfl⟩ | ⟨v, rfl⟩ := htxn
      · exact (UnitStatus.isBusy_iff _).mpr hbusy
      · exact (UnitStatus.isBusy_iff _).mpr hbusy
    · obtain ⟨i, v, rfl⟩ | ⟨v, rfl⟩ := htxn
      · exact (UnitStatus.isBusy_iff _).mpr hbusy
      · exact (UnitStatus.isBusy_iff _).mpr hbusy

end Sys2Proof.Machine
end

section
/-! The invariant (spec 10_state.md sections 2 to 6). Each part of it reads a few fields of the state. So a change of the
HOST's side or of a flag keeps it (`Inv.ofHostSide`), the step of one unit keeps the other unit's part (`Inv.ofEnc`,
`Inv.ofDec`), and a HOST write is honoured only where no part about a BUSY unit reads the field it changes. -/

namespace Sys2Proof.Machine

/-! ### Reset -/

/-- A unit that is IDLE with length 0 and all registers 0 meets its part whatever its table holds. -/
theorem resetEvent_inv {s : State} (hparams : s.params.ok = true) : s.resetEvent.Inv where
  params := hparams
  tables := ⟨rfl, rfl, rfl, rfl⟩
  buffers := ⟨rfl, rfl, rfl, rfl, rfl, rfl, rfl, rfl, Nat.two_pow_pos _, Nat.zero_le _⟩
  enc := ⟨by simp [Enc.reset], by simp [Enc.reset], fun _ => ⟨rfl, rfl⟩, by simp [Enc.reset], fun _ => rfl,
    by simp [Enc.reset], Nat.zero_le _, by simp [Enc.reset]⟩
  dec := ⟨by simp [Dec.reset], by simp [Dec.reset], fun _ => ⟨rfl, rfl⟩, by simp [Dec.reset], fun _ => rfl,
    by simp [Dec.reset], Nat.two_pow_pos _, Nat.two_pow_pos _, by simp [Dec.reset]⟩

/-- Settles O19: the state after reset is what a Reset event makes of it. -/
theorem invariantHoldsAtReset : Obligations.InvariantHoldsAtReset := fun p hp =>
  ⟨resetEvent_inv (s := State.resetWith p) hp, resetState_resetEvent (State.resetWith p)⟩

section
variable {s : State} (h : s.Inv)
include h

/-! ### What the parts do not read -/

/-- No part reads the HOST's side or the flags, and LOCK is read only where it is set. -/
theorem State.Inv.ofHostSide (g : GStat) (hlock : s.gstat.lock = true → g.lock = true) (script : List HostStmt)
    (sched : List Agent) (replies : List Reply) (draws : Nat) :
    State.Inv { s with gstat := g, script := script, sched := sched, replies := replies, hostDraws := draws } where
  params := h.params
  tables := { h.tables with }
  buffers := { h.buffers with }
  enc := { h.enc with
    busyLocked := fun hbusy => hlock (h.enc.busyLocked hbusy)
    running := fun hbusy hph => { h.enc.running hbusy hph with } }
  dec := { h.dec with
    busyLocked := fun hbusy => hlock (h.dec.busyLocked hbusy)
    running := fun hbusy hph => { h.dec.running hbusy hph with } }

/-- DEC's part does not read ENC's column. -/
theorem State.Inv.ofEnc {e : Enc} (henc : EncInv { s with enc := e }) (hbuffers : BuffersInv { s with enc := e }) :
    State.Inv { s with enc := e } where
  params := h.params
  tables := { h.tables with }
  buffers := hbuffers
  enc := henc
  dec := { h.dec with running := fun hbusy hph => { h.dec.running hbusy hph with } }

/-- ENC's part does not read DEC's column. -/
theorem State.Inv.ofDec {d : Dec} (hdec : DecInv { s with dec := d }) (hbuffers : BuffersInv { s with dec := d }) :
    State.Inv { s with dec := d } where
  params := h.params
  tables := { h.tables with }
  buffers := hbuffers
  enc := { h.enc with running := fun hbusy hph => { h.enc.running hbusy hph with } }
  dec := hdec

/-! ### The steps of the units -/

theorem State.Inv.encStep {t : State} (hbusy : s.enc.stat.state = .busy) (hstep : encStep s = .next t) : t.Inv := by
  obtain ⟨u, hu, henc, hbuffers⟩ := encStep_inv h.buffers h.enc hbusy
  obtain rfl : u = t := by simpa [hu] using hstep
  rw [encStep_frame hu] at henc hbuffers ⊢
  exact h.ofEnc henc hbuffers

theorem State.Inv.decStep {t : State} (hbusy : s.dec.stat.state = .busy) (hstep : decStep s = .next t) : t.Inv := by
  obtain ⟨u, hu, hdec, hbuffers⟩ := decStep_inv h.tables h.buffers h.dec hbusy
  obtain rfl : u = t := by simpa [hu] using hstep
  rw [decStep_frame hu] at hdec hbuffers ⊢
  exact h.ofDec hdec hbuffers

/-! ### The commands -/

/-- An accepted COMPRESS starts on a locked table that the check has passed, with length 0 (R102, R110). -/
theorem State.Inv.encStart (hlock : s.gstat.lock = true) (hct : wfCT s.params s.ct = true) : s.encStart.Inv :=
  h.ofEnc ⟨fun _ => hlock, fun _ => hct, by simp, by simp, by simp, by simp, h.enc.wpFits, by simp⟩ { h.buffers with }

/-- An accepted DECOMPRESS starts on a locked trie that the check has passed, with length 0 (R129, R130). -/
theorem State.Inv.decStart (hlock : s.gstat.lock = true) (htm : wfTM s.params s.tm = true) : s.decStart.Inv :=
  h.ofDec (decStart_decInv h.dec hlock htm) { h.buffers with }

theorem State.Inv.setIllCmd : s.setIllCmd.Inv :=
  h.ofHostSide s.setIllCmd.gstat (fun hlock => hlock) s.script s.sched s.replies s.hostDraws

theorem State.Inv.setIllAcc : s.setIllAcc.Inv :=
  h.ofHostSide s.setIllAcc.gstat (fun hlock => hlock) s.script s.sched s.replies s.hostDraws

theorem State.Inv.exec {i : Instr} {t : State} (hexec : exec i s = .next t) : t.Inv := by
  obtain rfl | ⟨-, rfl⟩ | ⟨-, -, -, rfl⟩ | ⟨-, hlock, -, hct, rfl⟩ | ⟨-, hlock, -, htm, rfl⟩ := exec_next hexec
  · exact h.setIllCmd
  · exact h
  · exact h.ofHostSide _ (fun _ => rfl) _ _ _ _
  · exact h.encStart hlock hct
  · exact h.decStart hlock htm

theorem State.Inv.writeCmd {w : Byte} {t : State} (hcmd : writeCmd w s = .next t) : t.Inv := by
  obtain ⟨i, hexec⟩ | rfl := writeCmd_next hcmd
  · exact h.exec hexec
  · exact h.setIllCmd

/-! ### The HOST's writes -/

theorem State.Inv.enc_not_busy_of_config (hconfig : s.gstat.lock = false) : s.enc.stat.state ≠ .busy := fun hbusy => by
  simp [h.enc.busyLocked hbusy] at hconfig

theorem State.Inv.dec_not_busy_of_config (hconfig : s.gstat.lock = false) : s.dec.stat.state ≠ .busy := fun hbusy => by
  simp [h.dec.busyLocked hbusy] at hconfig

/-- In CONFIG mode ENC is not BUSY, so its part does not read CT. -/
theorem State.Inv.writeCT (hconfig : s.gstat.lock = false) {v : Sym} {e : CTEntry}
    (hfits : txnFits s.params (.writeCT v e) = true) : State.Inv { s with ct := s.ct.write v e } where
  params := h.params
  tables := { h.tables with
    ctWf := Memory.wf_write _ _ h.tables.ctWf
    ctFits := Memory.all_write h.tables.ctFits hfits }
  buffers := { h.buffers with }
  enc := { h.enc with
    busyTable := fun hbusy => absurd hbusy (h.enc_not_busy_of_config hconfig)
    running := fun hbusy => absurd hbusy (h.enc_not_busy_of_config hconfig) }
  dec := { h.dec with running := fun hbusy hph => { h.dec.running hbusy hph with } }

/-- In CONFIG mode DEC is not BUSY, so its part does not read TM. -/
theorem State.Inv.writeTM (hconfig : s.gstat.lock = false) {n : NodeId} {e : TMEntry}
    (hfits : txnFits s.params (.writeTM n e) = true) : State.Inv { s with tm := s.tm.write n e } where
  params := h.params
  tables := { h.tables with
    tmWf := Memory.wf_write _ _ h.tables.tmWf
    tmFits := Memory.all_write h.tables.tmFits hfits }
  buffers := { h.buffers with }
  enc := { h.enc with running := fun hbusy hph => { h.enc.running hbusy hph with } }
  dec := { h.dec with
    busyTable := fun hbusy => absurd hbusy (h.dec_not_busy_of_config hconfig)
    running := fun hbusy => absurd hbusy (h.dec_not_busy_of_config hconfig) }

/-- No part about a unit reads MSG. -/
theorem State.Inv.writeMsg {i v : Nat} (hfits : txnFits s.params (.writeBuf .msg i v) = true) :
    State.Inv { s with msg := s.msg.write i v } where
  params := h.params
  tables := { h.tables with }
  buffers := { h.buffers with
    msgWf := Memory.wf_write _ _ h.buffers.msgWf
    msgFits := Memory.all_write h.buffers.msgFits hfits }
  enc := { h.enc with running := fun hbusy hph => { h.enc.running hbusy hph with } }
  dec := { h.dec with running := fun hbusy hph => { h.dec.running hbusy hph with } }

/-- No part about a unit reads DIN. -/
theorem State.Inv.writeDin {i v : Nat} (hfits : txnFits s.params (.writeBuf .din i v) = true) :
    State.Inv { s with din := s.din.write i (BitVec.ofNat 8 v) } where
  params := h.params
  tables := { h.tables with }
  buffers := { h.buffers with
    dinWf := Memory.wf_write _ _ h.buffers.dinWf
    dinFits := Memory.all_write h.buffers.dinFits (Bool.and_eq_true_iff.mp hfits).1 }
  enc := { h.enc with running := fun hbusy hph => { h.enc.running hbusy hph with } }
  dec := { h.dec with running := fun hbusy hph => { h.dec.running hbusy hph with } }

/-- ENC's part reads MLEN only while ENC is BUSY. -/
theorem State.Inv.writeMlen (hidle : s.enc.stat.isBusy = false) {v : Nat}
    (hfits : txnFits s.params (.writeReg .mlen v) = true) : State.Inv { s with mlen := v } where
  params := h.params
  tables := { h.tables with }
  buffers := { h.buffers with mlenFits := of_decide_eq_true hfits }
  enc := { h.enc with running := fun hbusy => absurd hbusy ((UnitStatus.isBusy_false_iff _).mp hidle) }
  dec := { h.dec with running := fun hbusy hph => { h.dec.running hbusy hph with } }

/-- DEC's part reads DLEN only while DEC is BUSY. -/
theorem State.Inv.writeDlen (hidle : s.dec.stat.isBusy = false) {v : Nat}
    (hfits : txnFits s.params (.writeReg .dlen v) = true) : State.Inv { s with dlen := v } where
  params := h.params
  tables := { h.tables with }
  buffers := { h.buffers with dlenFits := Nat.le_sub_one_of_lt (of_decide_eq_true hfits) }
  enc := { h.enc with running := fun hbusy hph => { h.enc.running hbusy hph with } }
  dec := { h.dec with running := fun hbusy => absurd hbusy ((UnitStatus.isBusy_false_iff _).mp hidle) }

theorem State.Inv.hostTxn {txn : HostTxn} {t : State} (hrun : hostTxn txn s = .next t) : t.Inv := by
  obtain ⟨hfits, hperform⟩ := hostTxn_next hrun
  obtain ⟨r, rfl | rfl⟩ | rfl | ⟨w, hcmd⟩ | ⟨v, e, rfl, hconfig, rfl⟩ | ⟨n, e, rfl, hconfig, rfl⟩ |
    ⟨i, v, rfl, -, rfl⟩ | ⟨i, v, rfl, -, rfl⟩ | ⟨v, rfl, hidle, rfl⟩ | ⟨v, rfl, hidle, rfl⟩ | ⟨-, rfl⟩ :=
    hostPerform_next hperform
  · exact h.ofHostSide _ (fun hlock => hlock) _ _ _ _
  · exact h.ofHostSide _ (fun hlock => hlock) _ _ _ _
  · exact h.setIllAcc
  · exact h.writeCmd hcmd
  · exact h.writeCT hconfig hfits
  · exact h.writeTM hconfig hfits
  · exact h.writeMsg hfits
  · exact h.writeDin hfits
  · exact h.writeMlen hidle hfits
  · exact h.writeDlen hidle hfits
  · exact resetEvent_inv h.params

end

/-! ### Every step -/

/-- Settles O20: a step is a transaction or the step of a BUSY unit, with the schedule and the script moved on. -/
theorem everyStepKeepsTheInvariant : Obligations.EveryStepKeepsTheInvariant := by
  intro s t h hstep
  obtain ⟨-, rfl⟩ | ⟨txn, sched, script, -, hrun⟩ | ⟨sched, hturn, henc⟩ | ⟨sched, hturn, hdec⟩ := step_next hstep
  · exact h
  · have hmoved := h.ofHostSide s.gstat (fun hlock => hlock) script sched s.replies s.hostDraws
    exact hmoved.hostTxn hrun
  · have hmoved := h.ofHostSide s.gstat (fun hlock => hlock) s.script sched s.replies s.hostDraws
    exact hmoved.encStep ((UnitStatus.isBusy_iff _).mp (State.nextAgent_enabled hturn)) henc
  · have hmoved := h.ofHostSide s.gstat (fun hlock => hlock) s.script sched s.replies s.hostDraws
    exact hmoved.decStep ((UnitStatus.isBusy_iff _).mp (State.nextAgent_enabled hturn)) hdec

/-! ### No fault -/

theorem writeCmd_no_fault (w : Byte) (s : State) (f : Fault) : writeCmd w s ≠ .fault f := by
  unfold writeCmd
  split
  · exact exec_no_fault _ s f
  · simp [illegalCommand]

theorem hostTxn_no_fault (txn : HostTxn) (s : State) (f : Fault) : hostTxn txn s ≠ .fault f := by
  unfold hostTxn
  split
  · cases txn with
    | writeReg r v =>
      cases r with
      | cmd => exact writeCmd_no_fault _ s f
      | _ => simp [hostPerform, writeRegister]
    | _ => simp [hostPerform]
  · simp

/-- Settles O21: under the invariant the steps of BUSY units go on, and no transaction ends in a fault. -/
theorem noStepFaultsAndNoUnitIsStuck : Obligations.NoStepFaultsAndNoUnitIsStuck := by
  have henc {s : State} (h : s.Inv) (hbusy : s.enc.stat.state = .busy) : ∃ t, encStep s = .next t := by
    obtain ⟨t, ht, -⟩ := encStep_inv h.buffers h.enc hbusy
    exact ⟨t, ht⟩
  have hdec {s : State} (h : s.Inv) (hbusy : s.dec.stat.state = .busy) : ∃ t, decStep s = .next t := by
    obtain ⟨t, ht, -⟩ := decStep_inv h.tables h.buffers h.dec hbusy
    exact ⟨t, ht⟩
  refine fun s h => ⟨fun f => ?_, henc h, hdec h⟩
  obtain ⟨-, hstep⟩ | ⟨a, sched, hturn, hen, hagent⟩ := step_cases s
  · simp [hstep]
  have hmoved := h.ofHostSide s.gstat (fun hlock => hlock) s.script sched s.replies s.hostDraws
  obtain ⟨rfl, hstep⟩ | ⟨rfl, hstep⟩ | ⟨rfl, hstep⟩ := hagent
  · obtain ⟨txn, script, -, hrun⟩ := step_of_hostTurn hturn
    rw [hrun]
    exact hostTxn_no_fault txn _ f
  · obtain ⟨t, ht⟩ := henc hmoved ((UnitStatus.isBusy_iff _).mp hen)
    simp [hstep, ht]
  · obtain ⟨t, ht⟩ := hdec hmoved ((UnitStatus.isBusy_iff _).mp hen)
    simp [hstep, ht]

end Sys2Proof.Machine
end

section
/-! The four commands (spec 43_system.md R141 to R143, 41_compress.md R102, 42_decompress.md R129). A command stops only on
a refusal, and each refusal is a failed check of a table (`exec_refused_iff`). The checks decide `WF_CT` and `WF_TM`, so
tables that a LOCK has passed are well formed, and every step keeps them so (`LockedTablesWf`). -/

namespace Sys2Proof.Machine

/-- Settles O47: the check of the trie is settled by the visit of its nodes, that of the code table entry by entry. -/
theorem tableChecksDecideWellFormedness : Obligations.TableChecksDecideWellFormedness :=
  ⟨fun _ _ => wfTM_iff, fun _ _ => wfCT_iff⟩

theorem wfCT_eq_false_iff {p : Params} {ct : Memory CTEntry} (hwf : ct.wf = true) :
    wfCT p ct = false ↔ ¬ WfCT p ct := by
  rw [← wfCT_iff hwf, Bool.not_eq_true]

theorem wfTM_eq_false_iff {p : Params} {tm : Memory TMEntry} : wfTM p tm = false ↔ ¬ WfTM p tm := by
  rw [← wfTM_iff, Bool.not_eq_true]

/-! ### LOCK -/

theorem lockEffect_config {s : State} (hconfig : s.gstat.lock = false) : lockEffect s = .next s.setLock :=
  if_neg (by simp [hconfig])

theorem lockEffect_run {s : State} (hrun : s.gstat.lock = true) : lockEffect s = .next s.setIllCmd :=
  if_pos hrun

theorem execLock_of_passes {s : State} (h : s.gstat.lock = true ∨ s.lockTables = true) :
    exec .lock s = lockEffect s :=
  if_pos ((Bool.or_eq_true _ _).mpr h)

/-- Settles O6: in CONFIG mode LOCK is its effect where the check passes and a refusal where it fails, and in RUN mode
there is no check. -/
theorem lockEntersRunModeOnce : Obligations.LockEntersRunModeOnce := by
  intro s hwf
  refine ⟨fun hconfig hct htm => ?_, fun hrun => ?_, fun hconfig hill => ?_, lockEffect_config, lockEffect_run⟩
  · rw [execLock_of_passes (.inr ((State.lockTables_iff hwf).mpr ⟨hct, htm⟩))]
    exact lockEffect_config hconfig
  · rw [execLock_of_passes (.inl hrun)]
    exact lockEffect_run hrun
  · rw [← State.lockTables_iff hwf, Bool.not_eq_true] at hill
    exact exec_illFormedLock_iff.mpr ⟨rfl, hconfig, hill⟩

/-! ### Refusals -/

/-- A command is refused exactly on a failed check, and each check belongs to one command. -/
theorem exec_refused_iff {i : Instr} {s : State} {r : Refusal} : exec i s = .refused r ↔
    (i = .lock ∧ s.gstat.lock = false ∧ s.lockTables = false ∧ r = .illFormedLock) ∨
      (i = .compress ∧ s.gstat.lock = true ∧ s.enc.stat.isBusy = false ∧ wfCT s.params s.ct = false ∧
        r = .illFormedCodeTable) ∨
      (i = .decompress ∧ s.gstat.lock = true ∧ s.dec.stat.isBusy = false ∧ wfTM s.params s.tm = false ∧
        r = .illFormedTrie) := by
  cases i with
  | nop => simp [exec, execNop]
  | lock =>
    simp only [exec, execLock, lockEffect, illegalCommand]
    split
    · split <;> simp_all
    · simp_all [eq_comm (b := r)]
  | compress =>
    simp only [exec, execCompress, illegalCommand]
    split
    · split <;> simp_all [eq_comm (b := r)]
    · simp_all
  | decompress =>
    simp only [exec, execDecompress, illegalCommand]
    split
    · split <;> simp_all [eq_comm (b := r)]
    · simp_all

/-- Settles O9: a refusal is a failed check, and on a canonical table a failed check is a table that is not well
formed. -/
theorem commandsRefusedOnlyOnIllFormedTables : Obligations.CommandsRefusedOnlyOnIllFormedTables := by
  refine fun i s hwf => ⟨fun r => ?_, exec_no_fault i s⟩
  rw [exec_refused_iff, ← State.lockTables_iff hwf, Bool.not_eq_true, ← wfCT_eq_false_iff hwf, ← wfTM_eq_false_iff,
    UnitStatus.isBusy_false_iff, UnitStatus.isBusy_false_iff]

/-! ### The frame -/

/-- Settles O10: a command leaves the state, sets a flag or LOCK, or starts its unit. -/
theorem commandsLeaveTheRestUnchanged : Obligations.CommandsLeaveTheRestUnchanged := by
  intro i s t h
  obtain rfl | ⟨rfl, rfl⟩ | ⟨rfl, -, -, rfl⟩ | ⟨rfl, -, -, -, rfl⟩ | ⟨rfl, -, -, -, rfl⟩ := exec_next h
  case inl =>
    refine ⟨fun _ => ⟨rfl, rfl, rfl, rfl, rfl, rfl⟩, rfl, rfl, rfl, rfl, rfl, rfl, rfl, rfl, fun _ => rfl, ?_,
      fun _ => rfl, fun _ => rfl, rfl, rfl⟩
    rintro rfl
    exact congrArg State.gstat (Host.Outcome.next.inj h).symm
  all_goals simp

/-! ### Locked tables -/

/-- The tables that RUN mode freezes are well formed (R142). -/
def LockedTablesWf (s : State) : Prop := s.gstat.lock = true → WfCT s.params s.ct ∧ WfTM s.params s.tm

section
variable {s t : State} (h : LockedTablesWf s)
include h

/-- RUN mode is entered by a LOCK whose tables have passed the check. -/
theorem exec_lockedTablesWf (hwf : s.ct.wf = true) {i : Instr} (hexec : exec i s = .next t) : LockedTablesWf t := by
  obtain rfl | ⟨-, rfl⟩ | ⟨-, -, hpass, rfl⟩ | ⟨-, -, -, -, rfl⟩ | ⟨-, -, -, -, rfl⟩ := exec_next hexec
  · exact h
  · exact h
  · exact fun _ => (State.lockTables_iff hwf).mp hpass
  · exact h
  · exact h

theorem writeCmd_lockedTablesWf (hwf : s.ct.wf = true) {w : Byte} (hcmd : writeCmd w s = .next t) :
    LockedTablesWf t := by
  obtain ⟨i, hexec⟩ | rfl := writeCmd_next hcmd
  · exact exec_lockedTablesWf h hwf hexec
  · exact h

/-- A write to a table is honoured in CONFIG mode only, and a reset leads there. -/
theorem hostPerform_lockedTablesWf (hwf : s.ct.wf = true) {txn : HostTxn} (hrun : hostPerform txn s = .next t) :
    LockedTablesWf t := by
  obtain ⟨r, rfl | rfl⟩ | rfl | ⟨w, hcmd⟩ | ⟨v, e, -, hconfig, rfl⟩ | ⟨n, e, -, hconfig, rfl⟩ | ⟨i, v, -, -, rfl⟩ |
    ⟨i, v, -, -, rfl⟩ | ⟨v, -, -, rfl⟩ | ⟨v, -, -, rfl⟩ | ⟨-, rfl⟩ := hostPerform_next hrun
  · exact h
  · exact h
  · exact h
  · exact writeCmd_lockedTablesWf h hwf hcmd
  · exact fun hlock => absurd hlock (Bool.eq_false_iff.mp hconfig)
  · exact fun hlock => absurd hlock (Bool.eq_false_iff.mp hconfig)
  · exact h
  · exact h
  · exact h
  · exact h
  · exact fun hlock => absurd hlock Bool.false_ne_true

theorem step_lockedTablesWf (hwf : s.ct.wf = true) (hstep : step s = .next t) : LockedTablesWf t := by
  obtain ⟨-, rfl⟩ | ⟨txn, sched, script, -, hrun⟩ | ⟨sched, -, henc⟩ | ⟨sched, -, hdec⟩ := step_next hstep
  · exact h
  · exact hostPerform_lockedTablesWf (s := { s with sched := sched, script := script }) h hwf (hostTxn_next hrun).2
  · rw [encStep_frame henc]
    exact h
  · rw [decStep_frame hdec]
    exact h

/-- On well-formed locked tables the launch checks succeed. -/
theorem exec_goes_on_of_lockedTablesWf (hwf : s.ct.wf = true) {i : Instr} (hi : i ≠ .lock) : ∃ t, exec i s = .next t := by
  cases hexec : exec i s with
  | next t => exact ⟨t, rfl⟩
  | fault f => exact absurd hexec (exec_no_fault i s f)
  | refused r =>
    obtain ⟨rfl, -⟩ | ⟨-, hlock, -, hct, -⟩ | ⟨-, hlock, -, htm, -⟩ := exec_refused_iff.mp hexec
    · exact absurd rfl hi
    · exact absurd (h hlock).1 ((wfCT_eq_false_iff hwf).mp hct)
    · exact absurd (h hlock).2 (wfTM_eq_false_iff.mp htm)

end

/-- Settles O57: every step keeps locked tables well formed, and a refusal of another command than LOCK would be one of
a locked table that is not. -/
theorem stepsKeepLockedTablesWellFormed : Obligations.StepsKeepLockedTablesWellFormed := fun _ hwf h =>
  ⟨fun _ hstep => step_lockedTablesWf h hwf hstep, fun _ hi => exec_goes_on_of_lockedTablesWf h hwf hi⟩

end Sys2Proof.Machine
end

section
/-! What a unit reads (spec 00_scope.md R1, 20_memory.md R51). A step of ENC reads its column, CT, MSG, MLEN and the
parameters. Of everything else it does not depend: `encView` puts what ENC reads into any context, and the step commutes
with that (`encStep_encView`). The same holds of DEC. -/

namespace Sys2Proof.Machine

/-- What ENC reads of `s`, and everything else as in the context `c`. -/
def State.encView (c s : State) : State :=
  { c with params := s.params, ct := s.ct, msg := s.msg, mlen := s.mlen, enc := s.enc }

/-- What DEC reads of `s`, and everything else as in the context `c`. -/
def State.decView (c s : State) : State :=
  { c with params := s.params, tm := s.tm, din := s.din, dlen := s.dlen, dec := s.dec }

section
variable (c s : State)

@[simp] theorem State.encView_ct : (c.encView s).ct = s.ct := rfl
@[simp] theorem State.encView_msg : (c.encView s).msg = s.msg := rfl
@[simp] theorem State.encView_enc : (c.encView s).enc = s.enc := rfl

@[simp] theorem State.decView_tm : (c.decView s).tm = s.tm := rfl
@[simp] theorem State.decView_din : (c.decView s).din = s.din := rfl
@[simp] theorem State.decView_dec : (c.decView s).dec = s.dec := rfl

theorem State.encMsg_encView (i : Nat) : (c.encView s).encMsg i = ((s.encMsg i).1, c.encView (s.encMsg i).2) := by
  simp only [State.encMsg, State.encView_msg]
  split <;> rfl

theorem State.decDin_decView (j : Nat) : (c.decView s).decDin j = ((s.decDin j).1, c.decView (s.decDin j).2) := by
  simp only [State.decDin, State.decView_din]
  split <;> rfl

end

section
variable (c : State) {s t : State}

/-! ### ENC -/

theorem encChk_encView (h : encChk s = .next t) : encChk (c.encView s) = .next (c.encView t) := by
  unfold encChk at h
  split at h
  · next hlong => cases h; exact if_pos hlong
  · next hlegal => cases h; exact if_neg hlegal

theorem encEmit_encView {q : Bits} (h : encEmit q s = .next t) : encEmit q (c.encView s) = .next (c.encView t) := by
  unfold encEmit at h
  split at h
  · next hroom => cases h; exact if_pos hroom
  · cases h

theorem encLookup_encView {v : Sym} (h : encLookup v s = .next t) :
    encLookup v (c.encView s) = .next (c.encView t) := by
  unfold encLookup at h
  rw [encLookup, State.encView_ct]
  split at h
  · cases h; rfl
  · exact encEmit_encView c h

theorem encSym_encView (h : encSym s = .next t) : encSym (c.encView s) = .next (c.encView t) := by
  unfold encSym at h
  split at h
  · next hend => cases h; exact if_pos hend
  · next hmore =>
    split at h
    · next hroom =>
      refine (if_neg hmore).trans ((if_pos hroom).trans ?_)
      rw [State.encView_enc, State.encMsg_encView]
      exact encLookup_encView c h
    · cases h

theorem encFlush_encView (h : encFlush s = .next t) : encFlush (c.encView s) = .next (c.encView t) := by
  unfold encFlush at h
  split at h
  · next hwhole => cases h; exact if_pos hwhole
  · next hpart =>
    split at h
    · next hroom => cases h; exact (if_neg hpart).trans (if_pos hroom)
    · cases h

/-- A step of ENC that goes on does so in any context, with the same column. -/
theorem encStep_encView (h : encStep s = .next t) : encStep (c.encView s) = .next (c.encView t) := by
  unfold encStep at h
  split at h
  · next hbusy =>
    refine (if_pos hbusy).trans ?_
    rw [State.encView_enc]
    split at h
    · exact encChk_encView c h
    · exact encSym_encView c h
    · exact encFlush_encView c h
  · next hidle => cases h; exact if_neg hidle

/-! ### DEC -/

theorem decHeader_decView {v : Byte} (h : decHeader v s = .next t) :
    decHeader v (c.decView s) = .next (c.decView t) := by
  unfold decHeader at h
  split at h
  · next hlong => cases h; exact if_pos hlong
  · next hlegal => cases h; exact if_neg hlegal

theorem decHdr_decView (h : decHdr s = .next t) : decHdr (c.decView s) = .next (c.decView t) := by
  unfold decHdr at h
  split at h
  · next hempty => cases h; exact if_pos hempty
  · next hsome =>
    refine (if_neg hsome).trans ?_
    rw [State.decDin_decView]
    exact decHeader_decView c h

theorem decArrive_decView {n : NodeId} (h : decArrive n s = .next t) :
    decArrive n (c.decView s) = .next (c.decView t) := by
  unfold decArrive at h
  rw [decArrive, State.decView_tm]
  split at h
  · cases h
  · split at h
    · cases h; rfl
    · split at h
      · next hroom => cases h; exact if_pos hroom
      · cases h

theorem decFollow_decView {b : Bool} (h : decFollow b s = .next t) :
    decFollow b (c.decView s) = .next (c.decView t) := by
  unfold decFollow at h
  rw [decFollow, State.decView_tm, State.decView_dec]
  split at h
  · cases h
  · split at h
    · cases h
    · split at h
      · cases h; rfl
      · exact decArrive_decView c h

theorem decConsume_decView {v : Byte} (h : decConsume v s = .next t) :
    decConsume v (c.decView s) = .next (c.decView t) :=
  decFollow_decView c h

theorem decWalk_decView (h : decWalk s = .next t) : decWalk (c.decView s) = .next (c.decView t) := by
  unfold decWalk at h
  split at h
  · next henough => cases h; exact if_pos henough
  · next hmissing =>
    split at h
    · next hnone => cases h; exact (if_neg hmissing).trans (if_pos hnone)
    · next hbit =>
      split at h
      · next hroom =>
        refine (if_neg hmissing).trans ((if_neg hbit).trans ((if_pos hroom).trans ?_))
        rw [State.decDin_decView]
        exact decConsume_decView c h
      · cases h

/-- A step of DEC that goes on does so in any context, with the same column. -/
theorem decStep_decView (h : decStep s = .next t) : decStep (c.decView s) = .next (c.decView t) := by
  unfold decStep at h
  split at h
  · next hbusy =>
    refine (if_pos hbusy).trans ?_
    rw [State.decView_dec]
    split at h
    · exact decHdr_decView c h
    · exact decWalk_decView c h
  · next hidle => cases h; exact if_neg hidle

end

/-! ### Independence -/

/-- Settles O26: the state with other inputs, column and GSTAT is one more context. -/
theorem unitsReadOnlyTheirInputs : Obligations.UnitsReadOnlyTheirInputs := by
  refine ⟨fun s t tm din dlen dec g h => ?_, fun s t ct msg mlen enc g h => ?_⟩
  · have hstep := encStep_encView { s with tm := tm, din := din, dlen := dlen, dec := dec, gstat := g } h
    rw [encStep_frame h] at hstep ⊢
    exact hstep
  · have hstep := decStep_decView { s with ct := ct, msg := msg, mlen := mlen, enc := enc, gstat := g } h
    rw [decStep_frame h] at hstep ⊢
    exact hstep

/-- Settles O25: after ENC's step the state is a context of DEC's step and the other way round, and both orders end with
both columns. -/
theorem unitStepsCommute : Obligations.UnitStepsCommute := by
  intro s e d henc hdec
  have hdec' := decStep_decView e hdec
  have henc' := encStep_encView d henc
  rw [encStep_frame henc, decStep_frame hdec] at henc' hdec' ⊢
  exact ⟨{ s with enc := e.enc, dec := d.dec }, hdec', henc'⟩

end Sys2Proof.Machine
end

section
/-! Columns (spec 10_state.md R10). What a host transaction but Reset can write is said once (`HostWrites`), and so is what
a step can do to a unit's column (`EncColumnStep`, `DecColumnStep`): leave it, start it by an accepted command, or take
the unit's own step. -/

namespace Sys2Proof.Machine

/-! ### Honoured writes -/

section
variable {s : State}

theorem hostPerform_writeCT (hconfig : s.gstat.lock = false) (v : Sym) (e : CTEntry) :
    hostPerform (.writeCT v e) s = .next { s with ct := s.ct.write v e } := by
  simp [hostPerform, writeCT, hconfig]

theorem hostPerform_writeTM (hconfig : s.gstat.lock = false) (n : NodeId) (e : TMEntry) :
    hostPerform (.writeTM n e) s = .next { s with tm := s.tm.write n e } := by
  simp [hostPerform, writeTM, hconfig]

theorem hostPerform_writeMsg (hidle : s.enc.stat.isBusy = false) (i v : Nat) :
    hostPerform (.writeBuf .msg i v) s = .next { s with msg := s.msg.write i v } := by
  simp only [hostPerform, writeBuffer, hidle, Bool.false_eq_true, if_false]

theorem hostPerform_writeDin (hidle : s.dec.stat.isBusy = false) (i v : Nat) :
    hostPerform (.writeBuf .din i v) s = .next { s with din := s.din.write i (BitVec.ofNat 8 v) } := by
  simp only [hostPerform, writeBuffer, hidle, Bool.false_eq_true, if_false]

theorem hostPerform_writeMlen (hidle : s.enc.stat.isBusy = false) (v : Nat) :
    hostPerform (.writeReg .mlen v) s = .next { s with mlen := v } := by
  simp only [hostPerform, writeRegister, hidle, Bool.false_eq_true, if_false]

theorem hostPerform_writeDlen (hidle : s.dec.stat.isBusy = false) (v : Nat) :
    hostPerform (.writeReg .dlen v) s = .next { s with dlen := v } := by
  simp only [hostPerform, writeRegister, hidle, Bool.false_eq_true, if_false]

end

/-! ### What a transaction writes -/

/-- What the transaction `txn`, no Reset, writes between `s` and `t`: each field with the one access that writes it. -/
structure HostWrites (s : State) (txn : HostTxn) (t : State) : Prop where
  sched : t.sched = s.sched
  params : t.params = s.params
  enc : t.enc = s.enc ∨ (txn = .writeReg .cmd 0x02 ∧ s.gstat.lock = true ∧ s.enc.stat.isBusy = false ∧
    wfCT s.params s.ct = true ∧ t.enc = s.encStart.enc)
  dec : t.dec = s.dec ∨ (txn = .writeReg .cmd 0x03 ∧ s.gstat.lock = true ∧ s.dec.stat.isBusy = false ∧
    wfTM s.params s.tm = true ∧ t.dec = s.decStart.dec)
  ct : t.ct = s.ct ∨ (s.gstat.lock = false ∧ ∃ v e, txn = .writeCT v e)
  tm : t.tm = s.tm ∨ (s.gstat.lock = false ∧ ∃ n e, txn = .writeTM n e)
  msg : t.msg = s.msg ∨ (s.enc.stat.isBusy = false ∧ ∃ i v, txn = .writeBuf .msg i v)
  mlen : t.mlen = s.mlen ∨ (s.enc.stat.isBusy = false ∧ ∃ v, txn = .writeReg .mlen v)
  din : t.din = s.din ∨ (s.dec.stat.isBusy = false ∧ ∃ i v, txn = .writeBuf .din i v)
  dlen : t.dlen = s.dlen ∨ (s.dec.stat.isBusy = false ∧ ∃ v, txn = .writeReg .dlen v)
  lock : t.gstat.lock = s.gstat.lock ∨ txn = .writeReg .cmd 0x01

/-- Nothing of the list is written. -/
theorem HostWrites.none (s : State) (txn : HostTxn) : HostWrites s txn s :=
  ⟨rfl, rfl, .inl rfl, .inl rfl, .inl rfl, .inl rfl, .inl rfl, .inl rfl, .inl rfl, .inl rfl, .inl rfl⟩

theorem exec_hostWrites {i : Instr} {s t : State} (h : exec i s = .next t) :
    HostWrites s (.writeReg .cmd (encode i).toNat) t := by
  obtain rfl | ⟨-, rfl⟩ | ⟨rfl, -, -, rfl⟩ | ⟨rfl, hlock, hidle, hct, rfl⟩ | ⟨rfl, hlock, hidle, htm, rfl⟩ :=
    exec_next h
  · exact { HostWrites.none s _ with }
  · exact HostWrites.none _ _
  · exact { HostWrites.none s _ with lock := .inr rfl }
  · exact { HostWrites.none s _ with enc := .inr ⟨rfl, hlock, hidle, hct, rfl⟩ }
  · exact { HostWrites.none s _ with dec := .inr ⟨rfl, hlock, hidle, htm, rfl⟩ }

theorem writeCmd_hostWrites {w : Byte} {s t : State} (h : writeCmd w s = .next t) :
    HostWrites s (.writeReg .cmd w.toNat) t := by
  obtain ⟨i, hdecode, rfl⟩ | hreserved := decode_cases w
  · rw [writeCmd, hdecode] at h
    exact exec_hostWrites h
  · rw [writeCmd_reserved hreserved] at h
    cases h
    exact { HostWrites.none s _ with }

theorem readElement_hostWrites (x : Space) (i : Nat) (s : State) (txn : HostTxn) :
    HostWrites s txn (readElement x i s) := by
  obtain ⟨r, hr | hr⟩ := readElement_eq x i s
  · exact hr ▸ { HostWrites.none s txn with }
  · exact hr ▸ { HostWrites.none s txn with }

theorem readRegister_hostWrites (r : Reg) (s : State) (txn : HostTxn) : HostWrites s txn (readRegister r s) := by
  obtain ⟨v, hv | hv⟩ := readRegister_eq r s
  · exact hv ▸ { HostWrites.none s txn with }
  · exact hv ▸ { HostWrites.none s txn with }

/-- A write that R164 does not list is honoured (R12, R16, R20, R22, R26, R32). -/
theorem hostPerform_hostWrites_of_legalAccess {txn : HostTxn} {s t : State} (hcmd : ∀ w, txn ≠ .writeReg .cmd w)
    (hreset : txn ≠ .reset) (hlegal : s.illegalAccess txn = false) (h : hostPerform txn s = .next t) :
    HostWrites s txn t := by
  cases txn with
  | writeCT v e =>
    have hconfig : s.gstat.lock = false := hlegal
    rw [hostPerform_writeCT hconfig] at h
    cases h
    exact { HostWrites.none s _ with ct := .inr ⟨hconfig, v, e, rfl⟩ }
  | writeTM n e =>
    have hconfig : s.gstat.lock = false := hlegal
    rw [hostPerform_writeTM hconfig] at h
    cases h
    exact { HostWrites.none s _ with tm := .inr ⟨hconfig, n, e, rfl⟩ }
  | writeBuf b i v =>
    cases b with
    | msg =>
      have hidle : s.enc.stat.isBusy = false := hlegal
      rw [hostPerform_writeMsg hidle] at h
      cases h
      exact { HostWrites.none s _ with msg := .inr ⟨hidle, i, v, rfl⟩ }
    | din =>
      have hidle : s.dec.stat.isBusy = false := hlegal
      rw [hostPerform_writeDin hidle] at h
      cases h
      exact { HostWrites.none s _ with din := .inr ⟨hidle, i, v, rfl⟩ }
    | _ => cases hlegal
  | read x i =>
    cases h
    exact readElement_hostWrites x i s _
  | writeReg r v =>
    cases r with
    | cmd => exact absurd rfl (hcmd v)
    | mlen =>
      have hidle : s.enc.stat.isBusy = false := hlegal
      rw [hostPerform_writeMlen hidle] at h
      cases h
      exact { HostWrites.none s _ with mlen := .inr ⟨hidle, v, rfl⟩ }
    | dlen =>
      have hidle : s.dec.stat.isBusy = false := hlegal
      rw [hostPerform_writeDlen hidle] at h
      cases h
      exact { HostWrites.none s _ with dlen := .inr ⟨hidle, v, rfl⟩ }
    | _ => cases hlegal
  | readReg r =>
    cases h
    exact readRegister_hostWrites r s _
  | reset => exact absurd rfl hreset

theorem hostTxn_hostWrites {txn : HostTxn} {s t : State} (hreset : txn ≠ .reset) (h : hostTxn txn s = .next t) :
    HostWrites s txn t := by
  obtain ⟨hfits, hrun⟩ := hostTxn_next h
  by_cases hcmd : ∃ w, txn = .writeReg .cmd w
  · obtain ⟨w, rfl⟩ := hcmd
    have hw : w < 256 := of_decide_eq_true hfits
    have hwrites := writeCmd_hostWrites hrun
    rwa [BitVec.toNat_ofNat, Nat.mod_eq_of_lt hw] at hwrites
  cases hill : s.illegalAccess txn with
  | true =>
    rw [hostPerform_of_illegalAccess hill] at hrun
    cases hrun
    exact { HostWrites.none s _ with }
  | false => exact hostPerform_hostWrites_of_legalAccess (fun w hw => hcmd ⟨w, hw⟩) hreset hill hrun

/-- Settles O24: a unit's step has the frame of its column, and a transaction writes what `HostWrites` lists. -/
theorem agentsWriteOnlyTheirColumn : Obligations.AgentsWriteOnlyTheirColumn := by
  intro s t h
  refine ⟨fun rest hturn => ?_, fun rest hturn => ?_, fun rest hturn hreset => ?_⟩
  · rw [step, hturn] at h
    exact encStep_frame h
  · rw [step, hturn] at h
    exact decStep_frame h
  · obtain ⟨txn, script, htxn, hstep⟩ := step_of_hostTurn hturn
    have hno : txn ≠ .reset := by rintro rfl; exact hreset htxn
    have hw := hostTxn_hostWrites hno (hstep ▸ h)
    simp only [htxn, Option.some.injEq, ← UnitStatus.isBusy_false_iff]
    exact ⟨hw.sched, hw.params, hw.enc.imp_right fun ⟨hcmd, hlock, hidle, _, henc⟩ => ⟨hcmd, hlock, hidle, henc⟩,
      hw.dec.imp_right fun ⟨hcmd, hlock, hidle, _, hdec⟩ => ⟨hcmd, hlock, hidle, hdec⟩, hw.ct, hw.tm, hw.msg, hw.mlen,
      hw.din, hw.dlen, hw.lock⟩

/-! ### A unit's column over one step -/

/-- What a step from `s` to `t` does to ENC's column. -/
inductive EncColumnStep (s t : State) : Prop where
  | kept (henc : t.enc = s.enc)
  | started (hnext : s.nextTxn = some (.writeReg .cmd 0x02)) (hlock : s.gstat.lock = true)
      (hidle : s.enc.stat.isBusy = false) (hct : wfCT s.params s.ct = true)
  | own (hbusy : s.enc.stat.isBusy = true) (u : State) (hstep : encStep s = .next u) (henc : t.enc = u.enc)

/-- What a step from `s` to `t` does to DEC's column. -/
inductive DecColumnStep (s t : State) : Prop where
  | kept (hdec : t.dec = s.dec)
  | started (hnext : s.nextTxn = some (.writeReg .cmd 0x03)) (hlock : s.gstat.lock = true)
      (hidle : s.dec.stat.isBusy = false) (htm : wfTM s.params s.tm = true)
  | own (hbusy : s.dec.stat.isBusy = true) (u : State) (hstep : decStep s = .next u) (hdec : t.dec = u.dec)

section
variable {s t : State} (h : step s = .next t) (hreset : s.nextTxn ≠ some .reset)
include h hreset

/-- The units do not read the schedule and the script, which a step moves on first. -/
theorem encColumnStep_of_step : EncColumnStep s t := by
  obtain ⟨-, rfl⟩ | ⟨txn, sched, script, hnext, hrun⟩ | ⟨sched, hturn, henc⟩ | ⟨sched, -, hdec⟩ := step_next h
  · exact .kept rfl
  · have hno : txn ≠ .reset := by rintro rfl; exact hreset hnext
    obtain henc | ⟨rfl, hlock, hidle, hct, -⟩ := (hostTxn_hostWrites hno hrun).enc
    · exact .kept henc
    · exact .started hnext hlock hidle hct
  · have hstep := encStep_encView s henc
    exact .own (State.nextAgent_enabled hturn) _ hstep rfl
  · exact .kept (by rw [decStep_frame hdec])

theorem decColumnStep_of_step : DecColumnStep s t := by
  obtain ⟨-, rfl⟩ | ⟨txn, sched, script, hnext, hrun⟩ | ⟨sched, -, henc⟩ | ⟨sched, hturn, hdec⟩ := step_next h
  · exact .kept rfl
  · have hno : txn ≠ .reset := by rintro rfl; exact hreset hnext
    obtain hdec | ⟨rfl, hlock, hidle, htm, -⟩ := (hostTxn_hostWrites hno hrun).dec
    · exact .kept hdec
    · exact .started hnext hlock hidle htm
  · exact .kept (by rw [encStep_frame henc])
  · have hstep := decStep_decView s hdec
    exact .own (State.nextAgent_enabled hturn) _ hstep rfl

end

/-- Settles O28: a BUSY unit's column is left or takes its own step, since no command for it is accepted. -/
theorem nothingDisturbsARunningCall : Obligations.NothingDisturbsARunningCall := by
  refine fun s t h hreset => ⟨fun hbusy => ?_, fun hbusy => ?_⟩
  · cases encColumnStep_of_step h hreset with
    | kept henc => exact .inl henc
    | started _ _ hidle => exact absurd hbusy ((UnitStatus.isBusy_false_iff _).mp hidle)
    | own _ u hstep henc => exact .inr ⟨u, hstep, henc⟩
  · cases decColumnStep_of_step h hreset with
    | kept hdec => exact .inl hdec
    | started _ _ hidle => exact absurd hbusy ((UnitStatus.isBusy_false_iff _).mp hidle)
    | own _ u hstep hdec => exact .inr ⟨u, hstep, hdec⟩

/-- Settles O55: the column of a unit that is not BUSY is left, since it has no step of its own and is not started. -/
theorem finishedCallIsStable : Obligations.FinishedCallIsStable := by
  refine fun s t h hreset => ⟨fun hidle hno => ?_, fun hidle hno => ?_⟩
  · cases encColumnStep_of_step h hreset with
    | kept henc => exact henc
    | started hnext hlock => exact absurd ⟨hnext, hlock⟩ hno
    | own hbusy => exact absurd ((UnitStatus.isBusy_iff _).mp hbusy) hidle
  · cases decColumnStep_of_step h hreset with
    | kept hdec => exact hdec
    | started hnext hlock => exact absurd ⟨hnext, hlock⟩ hno
    | own hbusy => exact absurd ((UnitStatus.isBusy_iff _).mp hbusy) hidle

/-- Settles O58: a unit is started only where the launch check succeeds, so on a well-formed table. -/
theorem illFormedTablesNeverLaunchAUnit : Obligations.IllFormedTablesNeverLaunchAUnit := by
  refine fun s t hwf _ h hreset => ⟨fun hill hidle => ?_, fun hill hidle => ?_⟩
  · cases encColumnStep_of_step h hreset with
    | kept henc => exact henc
    | started _ _ _ hct => exact absurd ((wfCT_iff hwf).mp hct) hill
    | own hbusy => exact absurd ((UnitStatus.isBusy_iff _).mp hbusy) hidle
  · cases decColumnStep_of_step h hreset with
    | kept hdec => exact hdec
    | started _ _ _ htm => exact absurd (wfTM_iff.mp htm) hill
    | own hbusy => exact absurd ((UnitStatus.isBusy_iff _).mp hbusy) hidle

end Sys2Proof.Machine
end

section
/-! Whole calls on any inputs (spec 41_compress.md section 2, 42_decompress.md R126, 70_reset_and_hazards.md section 5).
The loop over the symbols fails exactly at the first one that is absent (`codeBits_error_iff`). A call ends because each
step of a BUSY unit ends it or leaves fewer steps to take, whatever was read from the input buffer. -/

namespace Sys2Proof.Machine

/-! ### One symbol -/

/-- Settles O37: R27's invariant under one push. -/
theorem pushAppendsOneBit : Obligations.PushAppendsOneBit := fun _ b hwp hpay _ => encPush_produced hwp hpay b

/-- Step SYM before the end of the message looks up the symbol that stands there (R104, R112). -/
theorem encStep_lookup {s : State} (hbusy : s.enc.stat.state = .busy) (hph : s.enc.ePh = .sym) (hr : EncRunning s)
    (hne : s.enc.eI.toNat ≠ s.mlen) {v : Sym} (hread : s.msg.read s.enc.eI.toNat = some v) :
    encStep s = encLookup v s := by
  have hroom : s.enc.eI.toNat < Config.msgcap := by
    have hle := hr.indexInMessage
    have hlegal : s.mlen ≤ 127 := hr.msgLegal
    rw [Config.msgcap]
    omega
  rw [encStep, if_pos ((UnitStatus.isBusy_iff _).mpr hbusy), hph]
  refine (if_neg hne).trans ((if_pos hroom).trans ?_)
  rw [State.encMsg_written s hread]

/-- Settles O38: the step is the output of the symbol's code word, which pushes its bits. -/
theorem symbolStepAppendsTheCodeWord : Obligations.SymbolStepAppendsTheCodeWord := by
  intro s v q hbusy hph hr hct hne hread hcw
  have hlt : s.enc.eI.toNat < s.mlen := Nat.lt_of_le_of_ne hr.indexInMessage hne
  obtain ⟨t, ht, hrun, -, hstat, -, hph', hI, hpay, hacc, hnb, hwp⟩ :=
    encEmit_inv hr hph hlt (codeWord_length hct hcw).2
  have hproduced : t.enc.produced = (encPushAll s.enc q).produced := by
    simp only [Enc.produced, hpay, hacc, hnb, hwp]
  refine ⟨t, ?_, ?_, hI, hstat, hph', hrun⟩
  · rw [encStep_lookup hbusy hph hr hne hread, encLookup, hcw]
    exact ht
  · rw [hproduced, encPushAll_produced hr.headerOut hr.payWritten]

/-! ### The result of COMPRESS -/

theorem codeBits_of_all_known {cw : Sym → Option Bits} {msg : List Sym} (h : ∀ v ∈ msg, ∃ c, cw v = some c) (i : Nat)
    (q : Bits) : codeBits cw msg i q = .ok (q ++ messageBits cw msg) := by
  induction msg generalizing i q with
  | nil => exact congrArg CallResult.ok (List.append_nil q).symm
  | cons v msg ih =>
    obtain ⟨⟨c, hc⟩, hrest⟩ := List.forall_mem_cons.mp h
    rw [codeBits_of_known hc, ih hrest, messageBits_cons hc, List.append_assoc]

/-- Position `j` holds the first symbol of the message that is absent (R104). -/
def FirstUnknown (cw : Sym → Option Bits) (msg : List Sym) (j : Nat) : Prop :=
  (∃ v, msg[j]? = some v ∧ cw v = none) ∧ ∀ k < j, ∃ v, msg[k]? = some v ∧ cw v ≠ none

theorem not_firstUnknown_nil (cw : Sym → Option Bits) (j : Nat) : ¬ FirstUnknown cw [] j := by
  simp [FirstUnknown]

theorem firstUnknown_cons_of_unknown {cw : Sym → Option Bits} {v : Sym} (h : cw v = none) {msg : List Sym} {j : Nat} :
    FirstUnknown cw (v :: msg) j ↔ j = 0 := by
  constructor
  · rintro ⟨-, hbefore⟩
    by_contra hj
    obtain ⟨w, hw, hknown⟩ := hbefore 0 (Nat.pos_of_ne_zero hj)
    cases hw
    exact hknown h
  · rintro rfl
    exact ⟨⟨v, rfl, h⟩, by simp⟩

theorem firstUnknown_cons_of_known {cw : Sym → Option Bits} {v : Sym} {c : Bits} (h : cw v = some c) {msg : List Sym}
    {j : Nat} : FirstUnknown cw (v :: msg) j ↔ ∃ k, j = k + 1 ∧ FirstUnknown cw msg k := by
  cases j with
  | zero => simp [FirstUnknown, h]
  | succ j =>
    rw [FirstUnknown, Nat.forall_lt_succ_left]
    simp [FirstUnknown, h]

/-- The loop fails exactly at the first symbol that is absent. -/
theorem codeBits_error_iff {cw : Sym → Option Bits} {msg : List Sym} {i k : Nat} {q : Bits} {e : ErrCode} :
    codeBits cw msg i q = .error e k ↔ e = .unknownSymbol ∧ ∃ j, k = i + j ∧ FirstUnknown cw msg j := by
  induction msg generalizing i q with
  | nil => simp [codeBits, not_firstUnknown_nil]
  | cons v msg ih =>
    cases hv : cw v with
    | none =>
      rw [codeBits_of_unknown hv]
      simp [firstUnknown_cons_of_unknown hv, eq_comm]
    | some c =>
      rw [codeBits_of_known hv, ih]
      simp [firstUnknown_cons_of_known hv, Nat.add_assoc, Nat.add_comm 1]

theorem payloadResult_error_iff {n : Nat} {r : CallResult Bits} {e : ErrCode} {i : Nat} :
    payloadResult n r = .error e i ↔ r = .error e i := by
  cases r <;> simp [payloadResult]

theorem compress_of_tooLong {n : Nat} (h : Config.hdrmax < n) (msg : List Sym) (cw : Sym → Option Bits) :
    compress n msg cw = .error .messageTooLarge (n % 2 ^ 16) :=
  if_pos h

theorem compress_tooLarge_iff {n i : Nat} {msg : List Sym} {cw : Sym → Option Bits} :
    compress n msg cw = .error .messageTooLarge i ↔ Config.hdrmax < n ∧ i = n % 2 ^ 16 := by
  by_cases hlong : Config.hdrmax < n
  · simp [compress_of_tooLong hlong, hlong, eq_comm]
  · simp [compress_of_legal (Nat.le_of_not_lt hlong), payloadResult_error_iff, codeBits_error_iff, hlong]

theorem compress_unknown_iff {n i : Nat} {msg : List Sym} {cw : Sym → Option Bits} :
    compress n msg cw = .error .unknownSymbol i ↔ n ≤ Config.hdrmax ∧ FirstUnknown cw msg i := by
  by_cases hlong : Config.hdrmax < n
  · simp [compress_of_tooLong hlong, hlong]
  · simp [compress_of_legal (Nat.le_of_not_lt hlong), payloadResult_error_iff, codeBits_error_iff,
      Nat.le_of_not_lt hlong]

theorem compress_ok_iff {n : Nat} {msg : List Sym} {cw : Sym → Option Bits} {payload : List Byte} :
    compress n msg cw = .ok payload ↔
      n ≤ Config.hdrmax ∧ (∀ v ∈ msg, ∃ c, cw v = some c) ∧ payload = payloadOf n (messageBits cw msg) := by
  refine ⟨compress_ok, fun ⟨hlegal, hknown, hpayload⟩ => ?_⟩
  rw [compress_of_legal hlegal, codeBits_of_all_known hknown, List.nil_append, hpayload, payloadResult]

/-- Settles O39: the three results of the loop over a legal message and the one of a message that is too long. -/
theorem compressResultIsCharacterised : Obligations.CompressResultIsCharacterised := by
  refine fun n msg cw _ => ⟨fun i => compress_tooLarge_iff, fun i => compress_unknown_iff, fun payload => ?_⟩
  simp only [compress_ok_iff, ne_eq, Option.ne_none_iff_exists', messageBits, Config.hdrmax]

/-- Settles O41: no symbol and no count leave the loop nothing to do. -/
theorem emptyMessageIsTheByteZero : Obligations.EmptyMessageIsTheByteZero :=
  ⟨fun cw => compress_of_legal (Nat.zero_le _) [] cw,
    fun tm => (decompress_of_header_le (Nat.zero_le _) [] tm).trans (walkBits_of_enough tm 0 [] 0 [])⟩

/-! ### Trailing bits -/

/-- A walk that has given its symbols gives them whatever bits follow (R126). -/
theorem walkBits_ok_append {tm : Memory TMEntry} {n cnt : Nat} {q : Bits} {node : NodeId} {out syms : List Sym}
    (h : walkBits tm n q node cnt out = .ok syms) (rest : Bits) :
    walkBits tm n (q ++ rest) node cnt out = .ok syms := by
  induction q generalizing node cnt out with
  | nil =>
    rw [walkBits] at h
    split at h
    · next hcnt => rw [List.nil_append, hcnt, walkBits_of_enough, h]
    · cases h
  | cons b q ih =>
    rw [List.cons_append, walkBits]
    rw [walkBits] at h
    split at h
    · next hcnt => rw [if_pos hcnt, h]
    · next hcnt =>
      rw [if_neg hcnt]
      split at h
      · cases h
      · cases h
      · exact ih h
      · exact ih h

/-- Settles O42: the call is the walk over the bits that gave the symbols and the bits behind them. -/
theorem trailingBitsAreNeverTraversed : Obligations.TrailingBitsAreNeverTraversed := by
  intro tm h packed q rest out hlegal hbits hwalk
  rw [decompress_of_header_le hlegal, hbits]
  exact walkBits_ok_append hwalk rest

/-! ### Every call ends -/

/-- The unit's call is over. -/
def UnitStatus.Ended (u : UnitStatus) : Prop := u.state = .done ∨ u.state = .error

/-- A unit whose steps end the call or leave fewer steps to take ends its call. -/
theorem runUnit_ends {unitStep : State → Host.Outcome State Fault Refusal} {status : State → UnitStatus}
    {stepsLeft : State → Nat}
    (hstep : ∀ s, s.Inv → (status s).state = .busy → ∃ t, unitStep s = .next t ∧ t.Inv ∧
      ((status t).Ended ∨ (status t).state = .busy ∧ stepsLeft t < stepsLeft s))
    {s : State} (hinv : s.Inv) (hbusy : (status s).state = .busy) :
    ∃ k t, runUnit unitStep k s = .next t ∧ k ≤ stepsLeft s + 1 ∧ (status t).Ended := by
  generalize hn : stepsLeft s = n
  induction n using Nat.strongRecOn generalizing s with
  | ind n ih =>
    obtain ⟨t, ht, hinv', hended | ⟨hbusy', hless⟩⟩ := hstep s hinv hbusy
    · exact ⟨1, t, by rw [runUnit_succ ht, runUnit], by omega, hended⟩
    · obtain ⟨k, u, hrun, hk, hended⟩ := ih (stepsLeft t) (hn ▸ hless) hinv' hbusy' rfl
      exact ⟨k + 1, u, by rw [runUnit_succ ht, hrun], by omega, hended⟩

section
variable {s t : State}

/-- How many steps of ENC can follow its next one: one a symbol, and those that end SYM and FLUSH. -/
def encStepsLeft (s : State) : Nat :=
  match s.enc.ePh with
  | .chk => s.mlen + 2
  | .sym => s.mlen - s.enc.eI.toNat + 1
  | .flush => 0

/-- What a step of ENC from `s` to `t` does for the end of the call. -/
def EncProgress (s t : State) : Prop :=
  t.enc.stat.Ended ∨ t.enc.stat.state = .busy ∧ encStepsLeft t < encStepsLeft s

theorem encChk_progress (hbusy : s.enc.stat.state = .busy) (hph : s.enc.ePh = .chk) (h : encChk s = .next t) :
    EncProgress s t := by
  unfold encChk at h
  split at h
  · cases h
    exact .inl (.inr rfl)
  · cases h
    exact .inr ⟨hbusy, by simp [encStepsLeft, hph]⟩

theorem encEmit_eI {q : Bits} (h : encEmit q s = .next t) :
    t.enc.stat = s.enc.stat ∧ t.enc.ePh = s.enc.ePh ∧ t.enc.eI = s.enc.eI + 1 := by
  unfold encEmit at h
  split at h
  · cases h
    exact ⟨encPushAll_stat _ _, encPushAll_ePh _ _, rfl⟩
  · cases h

/-- The call fails at the symbol that is looked up or moves on to the next one. -/
theorem encLookup_moves {v : Sym} (h : encLookup v s = .next t) :
    t.enc.stat.Ended ∨ t.enc.stat = s.enc.stat ∧ t.enc.ePh = s.enc.ePh ∧ t.enc.eI = s.enc.eI + 1 := by
  unfold encLookup at h
  split at h
  · cases h
    exact .inl (.inr rfl)
  · exact .inr (encEmit_eI h)

theorem encSym_progress (hbusy : s.enc.stat.state = .busy) (hph : s.enc.ePh = .sym)
    (hindex : s.enc.eI.toNat ≤ s.mlen) (h : encSym s = .next t) : EncProgress s t := by
  have hmlen : t.mlen = s.mlen := by
    have hstep : encStep s = .next t := by
      rw [encStep, if_pos ((UnitStatus.isBusy_iff _).mpr hbusy), hph]
      exact h
    rw [encStep_frame hstep]
  unfold encSym at h
  split at h
  · cases h
    exact .inr ⟨hbusy, by simp [encStepsLeft, hph]⟩
  · next hmore =>
    split at h
    · next hroom =>
      obtain hended | ⟨hstat, hph', hI⟩ := encLookup_moves h
      · exact .inl hended
      · simp only [State.encMsg_enc_stat, State.encMsg_enc_ePh, State.encMsg_enc_eI] at hstat hph' hI
        have hsucc : (s.enc.eI + 1).toNat = s.enc.eI.toNat + 1 := by
          rw [Config.msgcap] at hroom
          simp only [BitVec.toNat_add, BitVec.ofNat_eq_ofNat, BitVec.toNat_ofNat]
          omega
        refine .inr ⟨hstat ▸ hbusy, ?_⟩
        simp only [encStepsLeft, hph', hph, hI, hsucc, hmlen]
        omega
    · cases h

theorem encFlush_ends (h : encFlush s = .next t) : t.enc.stat.Ended := by
  unfold encFlush at h
  split at h
  · cases h
    exact .inl rfl
  · split at h
    · cases h
      exact .inl rfl
    · cases h

theorem encStep_progress (hinv : s.Inv) (hbusy : s.enc.stat.state = .busy) :
    ∃ t, encStep s = .next t ∧ t.Inv ∧ EncProgress s t := by
  obtain ⟨t, ht, -⟩ := encStep_inv hinv.buffers hinv.enc hbusy
  refine ⟨t, ht, hinv.encStep hbusy ht, ?_⟩
  rw [encStep, if_pos ((UnitStatus.isBusy_iff _).mpr hbusy)] at ht
  cases hph : s.enc.ePh with
  | chk => rw [hph] at ht; exact encChk_progress hbusy hph ht
  | sym =>
    rw [hph] at ht
    exact encSym_progress hbusy hph (hinv.enc.running hbusy (by simp [hph])).indexInMessage ht
  | flush => rw [hph] at ht; exact .inl (encFlush_ends ht)

/-- How many steps of DEC can follow its next one: one a bit, and the one that ends WALK. -/
def decStepsLeft (s : State) : Nat :=
  match s.dec.dPh with
  | .hdr => 8 * (s.dlen - 1) + 1
  | .walk => 8 * (s.dlen - 1) - s.dec.dBp

/-- What a step of DEC from `s` to `t` does for the end of the call. -/
def DecProgress (s t : State) : Prop :=
  t.dec.stat.Ended ∨ t.dec.stat.state = .busy ∧ decStepsLeft t < decStepsLeft s

theorem decHeader_progress {v : Byte} (hbusy : s.dec.stat.state = .busy) (hph : s.dec.dPh = .hdr)
    (h : decHeader v s = .next t) : DecProgress s t := by
  unfold decHeader at h
  split at h
  · cases h
    exact .inl (.inr rfl)
  · cases h
    exact .inr ⟨hbusy, by simp [decStepsLeft, hph]⟩

theorem decHdr_progress (hbusy : s.dec.stat.state = .busy) (hph : s.dec.dPh = .hdr) (h : decHdr s = .next t) :
    DecProgress s t := by
  unfold decHdr at h
  split at h
  · cases h
    exact .inl (.inr rfl)
  · have hprogress := decHeader_progress (by simpa using hbusy) (by simpa using hph) h
    simpa [DecProgress, decStepsLeft] using hprogress

theorem decArrive_moves {c : NodeId} (h : decArrive c s = .next t) :
    t.dec.stat = s.dec.stat ∧ t.dec.dPh = s.dec.dPh ∧ t.dec.dBp = s.dec.dBp ∧ t.dlen = s.dlen := by
  unfold decArrive at h
  split at h
  · cases h
  · split at h
    · cases h
      exact ⟨rfl, rfl, rfl, rfl⟩
    · split at h
      · cases h
        exact ⟨rfl, rfl, rfl, rfl⟩
      · cases h

/-- The call fails at the bit that is followed or goes on with the next one. -/
theorem decFollow_moves {b : Bool} (h : decFollow b s = .next t) :
    t.dec.stat.Ended ∨
      t.dec.stat = s.dec.stat ∧ t.dec.dPh = s.dec.dPh ∧ t.dec.dBp = s.dec.dBp ∧ t.dlen = s.dlen := by
  unfold decFollow at h
  split at h
  · cases h
  · split at h
    · cases h
    · split at h
      · cases h
        exact .inl (.inr rfl)
      · exact .inr (decArrive_moves h)

theorem decConsume_progress {v : Byte} (hbusy : s.dec.stat.state = .busy) (hph : s.dec.dPh = .walk)
    (hbit : s.dec.dBp < 8 * (s.dlen - 1)) (h : decConsume v s = .next t) : DecProgress s t := by
  obtain hended | ⟨hstat, hph', hbp, hdlen⟩ := decFollow_moves h
  · exact .inl hended
  · refine .inr ⟨hstat ▸ hbusy, ?_⟩
    simp only [decStepsLeft, hph', hph, hbp, hdlen]
    omega

theorem decWalk_progress (hbusy : s.dec.stat.state = .busy) (hph : s.dec.dPh = .walk)
    (hbound : s.dec.dBp ≤ 8 * (s.dlen - 1)) (h : decWalk s = .next t) : DecProgress s t := by
  unfold decWalk at h
  split at h
  · cases h
    exact .inl (.inl rfl)
  · split at h
    · cases h
      exact .inl (.inr rfl)
    · next hbit =>
      split at h
      · have hprogress := decConsume_progress (by simpa using hbusy) (by simpa using hph)
          (by simpa using Nat.lt_of_le_of_ne hbound hbit) h
        simpa [DecProgress, decStepsLeft] using hprogress
      · cases h

theorem decStep_progress (hinv : s.Inv) (hbusy : s.dec.stat.state = .busy) :
    ∃ t, decStep s = .next t ∧ t.Inv ∧ DecProgress s t := by
  obtain ⟨t, ht, -⟩ := decStep_inv hinv.tables hinv.buffers hinv.dec hbusy
  refine ⟨t, ht, hinv.decStep hbusy ht, ?_⟩
  rw [decStep, if_pos ((UnitStatus.isBusy_iff _).mpr hbusy)] at ht
  cases hph : s.dec.dPh with
  | hdr => rw [hph] at ht; exact decHdr_progress hbusy hph ht
  | walk =>
    rw [hph] at ht
    exact decWalk_progress hbusy hph (hinv.dec.running hbusy hph).bitBound ht

end

theorem encStart_ends {s : State} (hinv : s.encStart.Inv) :
    ∃ k t, runUnit encStep k s.encStart = .next t ∧ k ≤ s.mlen + 3 ∧ (127 < s.mlen → k = 1) ∧ t.enc.stat.Ended := by
  by_cases hlong : Config.hdrmax < s.mlen
  · exact ⟨1, _, by rw [runUnit_succ (encStep_chk_tooLong hlong), runUnit], by omega, fun _ => rfl, .inr rfl⟩
  · obtain ⟨k, t, hrun, hk, hended⟩ := runUnit_ends (status := fun s => s.enc.stat) (stepsLeft := encStepsLeft)
      (fun _ => encStep_progress) hinv rfl
    exact ⟨k, t, hrun, hk, fun h => absurd h hlong, hended⟩

theorem decStart_ends {s : State} (hinv : s.decStart.Inv) :
    ∃ k t, runUnit decStep k s.decStart = .next t ∧ k ≤ 8 * (s.dlen - 1) + 2 ∧ t.dec.stat.Ended :=
  runUnit_ends (status := fun s => s.dec.stat) (stepsLeft := decStepsLeft) (fun _ => decStep_progress) hinv rfl

/-- Settles O43: the command starts the unit, whose steps to take are bounded from its start on. -/
theorem everyAcceptedCallEnds : Obligations.EveryAcceptedCallEnds := by
  refine fun s hinv hlock => ⟨fun hidle hct => ?_, fun hidle htm => ?_⟩
  · have hcheck : wfCT s.params s.ct = true := (wfCT_iff hinv.tables.ctWf).mpr hct
    obtain ⟨k, t, hrun, hk, hone, hended⟩ := encStart_ends (hinv.encStart hlock hcheck)
    exact ⟨s.encStart, k, t, execCompress_accepted hlock hidle hcheck, hrun, hk, hone, hended⟩
  · have hcheck : wfTM s.params s.tm = true := wfTM_of_WfTM htm
    obtain ⟨k, t, hrun, hk, hended⟩ := decStart_ends (hinv.decStart hlock hcheck)
    exact ⟨s.decStart, k, t, execDecompress_accepted hlock hidle hcheck, hrun, hk, hended⟩

end Sys2Proof.Machine
end

section
/-! The result of DECOMPRESS, case by case (spec 42_decompress.md R121). What a walk can come to is read off the bits
(`WalkOutcome`): root-to-leaf paths and then a rest, bits that run out at an INTERNAL node, or a bit that selects no child.
Each of these forms of the bits has one outcome, since the walk follows its paths (`walkBits_along_paths`,
`walkBits_to_inner`). -/

namespace Sys2Proof.Machine

/-! ### Paths -/

theorem innerAt_iff {tm : Memory TMEntry} {q : Bits} {e : TMEntry} :
    innerAt tm q = some e ↔ ∃ m, nodeAt tm 0 q = some m ∧ tm.read m = some e ∧ e.kind = .internal := by
  unfold innerAt
  cases nodeAt tm 0 q with
  | none => simp
  | some m =>
    cases hread : tm.read m with
    | none => simp [hread]
    | some f =>
      cases hk : f.kind with
      | leaf =>
        simp only [hread, hk, Option.some.injEq, exists_eq_left']
        exact ⟨nofun, by rintro ⟨rfl, h⟩; simp [hk] at h⟩
      | internal =>
        simp only [hread, hk, Option.some.injEq, exists_eq_left', iff_self_and]
        rintro rfl
        exact hk

theorem nodeAt_snoc {tm : Memory TMEntry} {n m : NodeId} {q : Bits} (h : nodeAt tm n q = some m) (b : Bool) :
    nodeAt tm n (q ++ [b]) = nodeAt tm m [b] := by
  rw [nodeAt_append, h, Option.bind_some]

theorem leafAt_snoc {tm : Memory TMEntry} {n m : NodeId} {q : Bits} (h : nodeAt tm n q = some m) (b : Bool) :
    leafAt tm n (q ++ [b]) = leafAt tm m [b] := by
  rw [leafAt, nodeAt_snoc h, leafAt]

/-- R128's failure: the bit selects a child that the INTERNAL node lacks. -/
theorem walkMove_noChild_iff {tm : Memory TMEntry} {n : NodeId} {b : Bool} {e : TMEntry} (he : tm.read n = some e)
    (hk : e.kind = .internal) : walkMove tm n b = .noChild ↔ childOf e b = none := by
  simp only [walkMove, he, hk]
  cases childOf e b with
  | none => simp
  | some c =>
    cases hread : tm.read c with
    | none => simp [hread]
    | some f => cases hkf : f.kind <;> simp [hread, hkf]

theorem Decodes.nil (tm : Memory TMEntry) : Decodes tm [] [] := ⟨[], .nil, rfl⟩

theorem Decodes.cons {tm : Memory TMEntry} {path q : Bits} {v : Sym} {syms : List Sym}
    (hpath : leafAt tm 0 path = some v) (h : Decodes tm q syms) : Decodes tm (path ++ q) (v :: syms) := by
  obtain ⟨paths, hpaths, rfl⟩ := h
  exact ⟨path :: paths, .cons hpath hpaths, rfl⟩

/-! ### What a walk can come to -/

/-- The results of a walk over `bits` from the root on, with `cnt` symbols `out` given before. -/
inductive WalkOutcome (tm : Memory TMEntry) (n cnt : Nat) (out : List Sym) (bits : Bits) :
    CallResult (List Sym) → Prop where
  | enough {q rest : Bits} {syms : List Sym} (hbits : bits = q ++ rest) (hpaths : Decodes tm q syms)
      (hcount : cnt + syms.length = n) : WalkOutcome tm n cnt out bits (.ok (out ++ syms))
  | exhausted {q rest : Bits} {syms : List Sym} {e : TMEntry} (hbits : bits = q ++ rest) (hpaths : Decodes tm q syms)
      (hcount : cnt + syms.length < n) (hrest : innerAt tm rest = some e) :
      WalkOutcome tm n cnt out bits (.error .truncatedPayload (cnt + syms.length))
  | noChild {q part rest : Bits} {b : Bool} {syms : List Sym} {e : TMEntry} (hbits : bits = q ++ part ++ b :: rest)
      (hpaths : Decodes tm q syms) (hcount : cnt + syms.length < n) (hpart : innerAt tm part = some e)
      (hchild : childOf e b = none) : WalkOutcome tm n cnt out bits (.error .noChild (cnt + syms.length))

section
variable {p : Params} {tm : Memory TMEntry} {n cnt : Nat} {out : List Sym}

/-- One path more in front of the bits. -/
theorem WalkOutcome.cons {path bits : Bits} {v : Sym} {r : CallResult (List Sym)} (hpath : leafAt tm 0 path = some v)
    (h : WalkOutcome tm n (cnt + 1) (out ++ [v]) bits r) : WalkOutcome tm n cnt out (path ++ bits) r := by
  have hlen (syms : List Sym) : cnt + 1 + syms.length = cnt + (v :: syms).length := by
    rw [List.length_cons]
    omega
  cases h with
  | enough hbits hpaths hcount =>
    rw [List.append_assoc, List.singleton_append]
    rw [hlen] at hcount
    exact .enough (by rw [hbits, List.append_assoc]) (hpaths.cons hpath) hcount
  | exhausted hbits hpaths hcount hrest =>
    rw [hlen] at hcount ⊢
    exact .exhausted (by rw [hbits, List.append_assoc]) (hpaths.cons hpath) hcount hrest
  | @noChild q part rest b _ _ hbits hpaths hcount hpart hchild =>
    rw [hlen] at hcount ⊢
    have hmore : path ++ bits = path ++ q ++ part ++ b :: rest := by simp only [hbits, List.append_assoc]
    exact .noChild hmore (hpaths.cons hpath) hcount hpart hchild

/-- The count is reached: nothing more is taken (R126). -/
theorem WalkOutcome.nothing_missing (bits : Bits) : WalkOutcome tm n n out bits (.ok out) := by
  have h : WalkOutcome tm n n out bits (.ok (out ++ [])) := .enough (q := []) rfl (.nil tm) rfl
  rwa [List.append_nil] at h

/-- A walk that stands at an INTERNAL node, which the bits `pre` have led to from the root. -/
theorem walkBits_outcome (htm : wfTM p tm = true) {bits pre : Bits} {node : NodeId} {e : TMEntry}
    (hpre : nodeAt tm 0 pre = some node) (he : tm.read node = some e) (hk : e.kind = .internal) (hcnt : cnt ≤ n) :
    WalkOutcome tm n cnt out (pre ++ bits) (walkBits tm n bits node cnt out) := by
  induction bits generalizing pre node e cnt out with
  | nil =>
    by_cases henough : cnt = n
    · rw [henough, walkBits_of_enough]
      exact .nothing_missing _
    · rw [walkBits_exhausted _ henough]
      exact .exhausted (q := []) (List.append_nil pre) (.nil tm) (Nat.lt_of_le_of_ne hcnt henough)
        (innerAt_iff.mpr ⟨node, hpre, he, hk⟩)
  | cons b bits ih =>
    by_cases henough : cnt = n
    · rw [henough, walkBits_of_enough]
      exact .nothing_missing _
    have hmore : pre ++ b :: bits = pre ++ [b] ++ bits := by rw [List.append_assoc, List.singleton_append]
    cases hmove : walkMove tm node b with
    | undef => exact absurd hmove (walkMove_ne_undef htm (nodeAt_reach .root hpre) he hk b)
    | noChild =>
      rw [walkBits_of_noChild hmove henough]
      exact .noChild (q := []) rfl (.nil tm) (Nat.lt_of_le_of_ne hcnt henough)
        (innerAt_iff.mpr ⟨node, hpre, he, hk⟩) ((walkMove_noChild_iff he hk).mp hmove)
    | descend c =>
      obtain ⟨hedge, f, hf, hkf⟩ := walkMove_descend.mp hmove
      rw [walkBits_of_descend hmove henough, hmore]
      exact ih ((nodeAt_snoc hpre b).trans hedge) hf hkf hcnt
    | emit v =>
      obtain ⟨r, hr, hkr⟩ := wfTM_root htm
      have hpath : leafAt tm 0 (pre ++ [b]) = some v := (leafAt_snoc hpre b).trans (walkMove_emit.mp hmove)
      rw [walkBits_of_emit hmove henough, hmore]
      exact .cons hpath (ih (pre := []) (nodeAt_nil tm 0) hr hkr (Nat.lt_of_le_of_ne hcnt henough))

/-! ### The walk follows its paths -/

/-- Root-to-leaf paths give their symbols, as long as no more are given than the header asks for. -/
theorem walkBits_along_paths (htm : wfTM p tm = true) {q : Bits} {syms : List Sym} (h : Decodes tm q syms)
    (hcount : cnt + syms.length ≤ n) (rest : Bits) :
    walkBits tm n (q ++ rest) 0 cnt out = walkBits tm n rest 0 (cnt + syms.length) (out ++ syms) := by
  obtain ⟨e, he, hk⟩ := wfTM_root htm
  obtain ⟨paths, hpaths, rfl⟩ := h
  induction hpaths generalizing cnt out with
  | nil => rw [List.append_nil]; rfl
  | @cons path v paths syms hpath _ ih =>
    rw [List.length_cons] at hcount ⊢
    rw [List.flatten_cons, List.append_assoc, walkBits_of_path (by omega) (path_ne_nil he hk hpath) hpath,
      ih (by omega), List.append_assoc, List.singleton_append, Nat.add_assoc, Nat.add_comm 1]

/-- A path to an INTERNAL node gives no symbol. -/
theorem walkBits_to_inner {part : Bits} {node m : NodeId} {e : TMEntry} (hpart : nodeAt tm node part = some m)
    (he : tm.read m = some e) (hk : e.kind = .internal) (hcnt : cnt ≠ n) (rest : Bits) :
    walkBits tm n (part ++ rest) node cnt out = walkBits tm n rest m cnt out := by
  induction part generalizing node with
  | nil => cases hpart; rfl
  | cons b part ih =>
    rw [nodeAt_cons] at hpart
    obtain ⟨c, hedge, hpart⟩ := Option.bind_eq_some_iff.mp hpart
    have hinner : ∃ f, tm.read c = some f ∧ f.kind = .internal := by
      cases part with
      | nil => cases hpart; exact ⟨e, he, hk⟩
      | cons d part =>
        rw [nodeAt_cons] at hpart
        obtain ⟨_, hnext, -⟩ := Option.bind_eq_some_iff.mp hpart
        obtain ⟨f, hf, hkf, -⟩ := nodeAt_edge.mp hnext
        exact ⟨f, hf, hkf⟩
    rw [List.cons_append, walkBits_of_descend (walkMove_descend.mpr ⟨hedge, hinner⟩) hcnt, ih hpart]

/-! ### The cases -/

section
variable (htm : wfTM p tm = true) {bits : Bits} {i : Nat}
include htm

theorem walkBits_root_outcome (n : Nat) (bits : Bits) : WalkOutcome tm n 0 [] bits (walkBits tm n bits 0 0 []) := by
  obtain ⟨e, he, hk⟩ := wfTM_root htm
  exact walkBits_outcome htm (pre := []) (nodeAt_nil tm 0) he hk (Nat.zero_le n)

theorem walkBits_ok_iff : walkBits tm n bits 0 0 [] = .ok out ↔
    out.length = n ∧ ∃ q rest, bits = q ++ rest ∧ Decodes tm q out := by
  constructor
  · intro h
    have hcases := h ▸ walkBits_root_outcome htm n bits
    cases hcases with
    | enough hbits hpaths hcount => exact ⟨by rw [← hcount, Nat.zero_add]; rfl, _, _, hbits, hpaths⟩
  · rintro ⟨rfl, q, rest, rfl, hpaths⟩
    exact walkBits_of_decodes htm hpaths rest

theorem walkBits_truncated_iff : walkBits tm n bits 0 0 [] = .error .truncatedPayload i ↔
    i < n ∧ ∃ q out rest, bits = q ++ rest ∧ Decodes tm q out ∧ out.length = i ∧ ∃ e, innerAt tm rest = some e := by
  constructor
  · intro h
    have hcases := h ▸ walkBits_root_outcome htm n bits
    cases hcases with
    | exhausted hbits hpaths hcount hrest =>
      exact ⟨hcount, _, _, _, hbits, hpaths, (Nat.zero_add _).symm, _, hrest⟩
  · rintro ⟨hi, q, out, rest, rfl, hpaths, rfl, e, hrest⟩
    obtain ⟨m, hm, he, hk⟩ := innerAt_iff.mp hrest
    have hinner := walkBits_to_inner (out := out) hm he hk hi.ne []
    rw [List.append_nil] at hinner
    rw [walkBits_along_paths htm hpaths (by omega), Nat.zero_add, List.nil_append, hinner,
      walkBits_exhausted _ hi.ne]

theorem walkBits_noChild_iff : walkBits tm n bits 0 0 [] = .error .noChild i ↔
    i < n ∧ ∃ q out part b rest, bits = q ++ part ++ b :: rest ∧ Decodes tm q out ∧ out.length = i ∧
      ∃ e, innerAt tm part = some e ∧ childOf e b = none := by
  constructor
  · intro h
    have hcases := h ▸ walkBits_root_outcome htm n bits
    cases hcases with
    | noChild hbits hpaths hcount hpart hchild =>
      exact ⟨hcount, _, _, _, _, _, hbits, hpaths, (Nat.zero_add _).symm, _, hpart, hchild⟩
  · rintro ⟨hi, q, out, part, b, rest, rfl, hpaths, rfl, e, hpart, hchild⟩
    obtain ⟨m, hm, he, hk⟩ := innerAt_iff.mp hpart
    rw [List.append_assoc, walkBits_along_paths htm hpaths (by omega), Nat.zero_add, List.nil_append,
      walkBits_to_inner hm he hk hi.ne, walkBits_of_noChild ((walkMove_noChild_iff he hk).mpr hchild) hi.ne]

theorem walkBits_ne_undef : walkBits tm n bits 0 0 [] ≠ .undef := fun h => by
  have hcases := h ▸ walkBits_root_outcome htm n bits
  cases hcases

end

end

theorem decompress_of_header_gt {h : Byte} (hlong : Config.hdrmax < h.toNat) (packed : List Byte)
    (tm : Memory TMEntry) : decompress (h :: packed) tm = .error .headerRange h.toNat :=
  if_pos hlong

theorem decompress_empty_iff {bs : List Byte} {tm : Memory TMEntry} {i : Nat} :
    decompress bs tm = .error .emptyPayload i ↔ bs = [] ∧ i = 0 := by
  cases bs with
  | nil => simp [decompress, eq_comm]
  | cons h packed =>
    by_cases hlong : Config.hdrmax < h.toNat
    · simp [decompress_of_header_gt hlong]
    · rw [decompress_of_header_le (Nat.le_of_not_lt hlong)]
      refine ⟨fun herror => ?_, by simp⟩
      obtain hcode | hcode := walkBits_error herror <;> cases hcode

theorem decompress_headerRange_iff {bs : List Byte} {tm : Memory TMEntry} {i : Nat} :
    decompress bs tm = .error .headerRange i ↔
      ∃ h packed, bs = h :: packed ∧ Config.hdrmax < h.toNat ∧ i = h.toNat := by
  cases bs with
  | nil => simp [decompress]
  | cons h packed =>
    by_cases hlong : Config.hdrmax < h.toNat
    · simp [decompress_of_header_gt hlong, hlong, eq_comm]
    · rw [decompress_of_header_le (Nat.le_of_not_lt hlong)]
      refine ⟨fun herror => ?_, ?_⟩
      · obtain hcode | hcode := walkBits_error herror <;> cases hcode
      · rintro ⟨_, _, hbs, hlong', -⟩
        cases hbs
        exact absurd hlong' hlong

/-- A result that is no HeaderRangeError is one of the walk over the packed bits. -/
theorem decompress_eq_walk_iff {h : Byte} {packed : List Byte} {tm : Memory TMEntry} {r : CallResult (List Sym)}
    (hr : ∀ i, r ≠ .error .headerRange i) :
    decompress (h :: packed) tm = r ↔
      h.toNat ≤ Config.hdrmax ∧ walkBits tm h.toNat (unpackall packed) 0 0 [] = r := by
  by_cases hlong : Config.hdrmax < h.toNat
  · simp [decompress_of_header_gt hlong, Nat.not_le.mpr hlong, (hr h.toNat).symm]
  · simp [decompress_of_header_le (Nat.le_of_not_lt hlong), Nat.le_of_not_lt hlong]

/-- In the general shape every INTERNAL node has both children, so no bit selects an absent one (R17, R128). -/
theorem GeneralTree.child_present {p : Params} {tm : Memory TMEntry} (hg : GeneralTree p tm) {part : Bits}
    {e : TMEntry} (hpart : innerAt tm part = some e) (b : Bool) : childOf e b ≠ none := by
  obtain ⟨m, hm, he, hk⟩ := innerAt_iff.mp hpart
  obtain ⟨-, f, hf, hboth⟩ := hg.nodes m (nodeAt_reach .root hm)
  obtain rfl : e = f := Option.some.inj (he.symm.trans hf)
  obtain ⟨hlv, hrv⟩ := hboth hk
  cases b <;> simp [childOf, hlv, hrv]

/-- Settles O40: a result is the header's or one of the walk, whose three cases the forms of the bits tell apart. -/
theorem decompressResultIsCharacterised : Obligations.DecompressResultIsCharacterised := by
  intro p tm hwf
  have htm : wfTM p tm = true := wfTM_of_WfTM hwf
  have hnoChild (h : Byte) (packed : List Byte) (i : Nat) :=
    (decompress_eq_walk_iff (h := h) (packed := packed) (tm := tm) (r := .error .noChild i) (by simp)).trans
      (and_congr_right' (walkBits_noChild_iff htm))
  refine ⟨fun _ _ => decompress_empty_iff, fun _ _ => decompress_headerRange_iff,
    fun _ _ _ => (decompress_eq_walk_iff (by simp)).trans (and_congr_right' (walkBits_ok_iff htm)),
    fun _ _ _ => (decompress_eq_walk_iff (by simp)).trans (and_congr_right' (walkBits_truncated_iff htm)),
    hnoChild, fun h packed i hfail => ?_, fun bs hundef => ?_⟩
  · obtain ⟨-, -, _, _, part, b, _, -, -, -, e, hpart, hchild⟩ := (hnoChild h packed i).mp hfail
    obtain hplaceholder | hsynthetic | hgeneral := hwf
    · exact .inl hplaceholder
    · exact .inr hsynthetic
    · exact absurd hchild (hgeneral.child_present hpart b)
  · cases bs with
    | nil => cases hundef
    | cons h packed => exact walkBits_ne_undef htm ((decompress_eq_walk_iff (by simp)).mp hundef).2

end Sys2Proof.Machine
end

section
/-! Tries and their code words (spec 40_construct.md R82, R88 to R90). `triePath` follows a bit path through a trie. Where
the leaves hold distinct symbols, `derive` gives each symbol the path to its leaf (`read_derive_iff`). -/

namespace Sys2Proof.Machine

/-- The symbol of the leaf at the end of a bit path (R88). -/
def triePath : Trie → Bits → Option Sym
  | .leaf s _, [] => some s
  | .internal _ l _, false :: q => triePath l q
  | .internal _ _ r, true :: q => triePath r q
  | _, _ => none

/-- The symbols of the leaves, left to right. -/
def trieSymbols : Trie → List Sym
  | .absent => []
  | .leaf s _ => [s]
  | .internal _ l r => trieSymbols l ++ trieSymbols r

/-- Every INTERNAL node has both children, as R84's merges make it. -/
def FullTrie : Trie → Prop
  | .absent => False
  | .leaf _ _ => True
  | .internal _ l r => FullTrie l ∧ FullTrie r

@[simp] theorem triePath_absent (q : Bits) : triePath .absent q = none := by
  cases q <;> rfl
@[simp] theorem triePath_leaf_nil (s : Sym) (w : Nat) : triePath (.leaf s w) [] = some s := rfl
@[simp] theorem triePath_leaf_cons (s : Sym) (w : Nat) (b : Bool) (q : Bits) : triePath (.leaf s w) (b :: q) = none := rfl
@[simp] theorem triePath_internal_nil (w : Nat) (l r : Trie) : triePath (.internal w l r) [] = none := rfl
@[simp] theorem triePath_internal_cons (w : Nat) (l r : Trie) (b : Bool) (q : Bits) :
    triePath (.internal w l r) (b :: q) = triePath (if b then r else l) q := by
  cases b <;> rfl

@[simp] theorem trieSymbols_absent : trieSymbols .absent = [] := rfl
@[simp] theorem trieSymbols_leaf (s : Sym) (w : Nat) : trieSymbols (.leaf s w) = [s] := rfl
@[simp] theorem trieSymbols_internal (w : Nat) (l r : Trie) :
    trieSymbols (.internal w l r) = trieSymbols l ++ trieSymbols r := rfl

/-! ### Paths -/

theorem mem_trieSymbols_of_triePath {t : Trie} {q : Bits} {s : Sym} (h : triePath t q = some s) :
    s ∈ trieSymbols t := by
  induction t generalizing q with
  | absent => simp at h
  | leaf v w => cases q <;> simp_all
  | internal w l r ihl ihr =>
    cases q with
    | nil => simp at h
    | cons b q =>
      rw [triePath_internal_cons] at h
      cases b with
      | false => exact List.mem_append_left _ (ihl h)
      | true => exact List.mem_append_right _ (ihr h)

theorem exists_triePath_of_mem {t : Trie} {s : Sym} (h : s ∈ trieSymbols t) : ∃ q, triePath t q = some s := by
  induction t with
  | absent => simp at h
  | leaf v w => exact ⟨[], by simp_all⟩
  | internal w l r ihl ihr =>
    rcases List.mem_append.mp h with hl | hr
    · obtain ⟨q, hq⟩ := ihl hl
      exact ⟨false :: q, hq⟩
    · obtain ⟨q, hq⟩ := ihr hr
      exact ⟨true :: q, hq⟩

/-- No leaf lies below another (R90 (iii)). -/
theorem triePath_prefix {t : Trie} {p q : Bits} {a b : Sym} (hp : triePath t p = some a) (hq : triePath t q = some b)
    (hpq : p <+: q) : a = b := by
  induction t generalizing p q with
  | absent => simp at hp
  | leaf v w =>
    cases p <;> cases q <;> simp_all
  | internal w l r ihl ihr =>
    cases p with
    | nil => simp at hp
    | cons c p =>
      obtain ⟨rest, rfl⟩ := hpq
      rw [List.cons_append, triePath_internal_cons] at hq
      rw [triePath_internal_cons] at hp
      cases c with
      | false => exact ihl hp hq ⟨rest, rfl⟩
      | true => exact ihr hp hq ⟨rest, rfl⟩

theorem FullTrie.symbols_pos {t : Trie} (h : FullTrie t) : 0 < (trieSymbols t).length := by
  induction t with
  | absent => exact h.elim
  | leaf s w => exact Nat.one_pos
  | internal w l r ihl ihr =>
    rw [trieSymbols_internal, List.length_append]
    exact Nat.add_pos_left (ihl h.1) _

/-- At each node of a path at least one leaf lies aside (R90 (ii)). -/
theorem FullTrie.length_path {t : Trie} (h : FullTrie t) {q : Bits} {s : Sym} (hq : triePath t q = some s) :
    q.length + 1 ≤ (trieSymbols t).length := by
  induction t generalizing q with
  | absent => exact h.elim
  | leaf v w =>
    cases q with
    | nil => exact Nat.le_refl 1
    | cons b q => simp at hq
  | internal w l r ihl ihr =>
    obtain ⟨hl, hr⟩ := h
    have hlpos := hl.symbols_pos
    have hrpos := hr.symbols_pos
    cases q with
    | nil => simp at hq
    | cons b q =>
      rw [triePath_internal_cons] at hq
      rw [trieSymbols_internal, List.length_append, List.length_cons]
      cases b with
      | false => have := ihl hl hq; omega
      | true => have := ihr hr hq; omega

/-! ### `derive` -/

theorem read_deriveWalk_of_not_mem {t : Trie} {s : Sym} (h : s ∉ trieSymbols t) (path : Bits) (map : Memory Bits) :
    (deriveWalk t path map).read s = map.read s := by
  induction t generalizing path map with
  | absent => rfl
  | leaf v w => exact Memory.read_write_other map path (by simpa [eq_comm] using h)
  | internal w l r ihl ihr =>
    rw [trieSymbols_internal, List.mem_append, not_or] at h
    obtain ⟨hl, hr⟩ := h
    rw [deriveWalk, ihr hr, ihl hl]

theorem read_deriveWalk_of_triePath {t : Trie} (hnodup : (trieSymbols t).Nodup) {q : Bits} {s : Sym}
    (hq : triePath t q = some s) (path : Bits) (map : Memory Bits) :
    (deriveWalk t path map).read s = some (path ++ q) := by
  induction t generalizing q path map with
  | absent => simp at hq
  | leaf v w =>
    cases q with
    | nil => cases hq; rw [deriveWalk, Memory.read_write_same, List.append_nil]
    | cons b q => simp at hq
  | internal w l r ihl ihr =>
    obtain ⟨hl, hr, hdisjoint⟩ := List.nodup_append.mp hnodup
    cases q with
    | nil => simp at hq
    | cons b q =>
      rw [triePath_internal_cons] at hq
      cases b with
      | false =>
        have hnot : s ∉ trieSymbols r := fun hmem => hdisjoint s (mem_trieSymbols_of_triePath hq) s hmem rfl
        rw [deriveWalk, read_deriveWalk_of_not_mem hnot, ihl hl hq, List.append_assoc, List.singleton_append]
      | true => rw [deriveWalk, ihr hr hq, List.append_assoc, List.singleton_append]

/-- The code word of a symbol is the path to its leaf (R88). -/
theorem read_derive_iff {t : Trie} (hnodup : (trieSymbols t).Nodup) {s : Sym} {q : Bits} :
    (derive t).read s = some q ↔ triePath t q = some s := by
  refine ⟨fun h => ?_, fun h => read_deriveWalk_of_triePath hnodup h [] []⟩
  have hmem : s ∈ trieSymbols t := by
    by_contra hnot
    rw [derive, read_deriveWalk_of_not_mem hnot] at h
    cases h
  obtain ⟨p, hp⟩ := exists_triePath_of_mem hmem
  have hread := read_deriveWalk_of_triePath hnodup hp [] []
  rw [← derive, h, List.nil_append] at hread
  cases hread
  exact hp

theorem exists_read_derive_iff {t : Trie} (hnodup : (trieSymbols t).Nodup) {s : Sym} :
    (∃ q, (derive t).read s = some q) ↔ s ∈ trieSymbols t := by
  simp only [read_derive_iff hnodup]
  exact ⟨fun ⟨_, hq⟩ => mem_trieSymbols_of_triePath hq, exists_triePath_of_mem⟩

theorem wf_deriveWalk {t : Trie} {path : Bits} {map : Memory Bits} (h : map.wf = true) :
    (deriveWalk t path map).wf = true := by
  induction t generalizing path map with
  | absent => exact h
  | leaf s w => exact Memory.wf_write s path h
  | internal w l r ihl ihr => exact ihr (ihl h)

end Sys2Proof.Machine
end

section
/-! `build` (spec 40_construct.md R83 to R86). Inserting into the queue and merging keep three things of the queue's
trees, taken together (`Forest`): the symbols of their leaves, the sum of their weights, and that they are full. So the
last tree left has the symbols and the total weight of the table. -/

namespace Sys2Proof.Machine

/-- What a queue holds of a table: full trees with the table's symbols and its total weight. -/
structure Forest (table : Memory Nat) (q : List QueueItem) : Prop where
  weighed : ∀ a ∈ q, a.weight = trieWeight a.node
  full : ∀ a ∈ q, FullTrie a.node
  symbols : (q.flatMap (fun a => trieSymbols a.node)).Perm (table.map Prod.fst)
  total : (q.map QueueItem.weight).sum = (table.map Prod.snd).sum

theorem perm_queueInsert (a : QueueItem) (q : List QueueItem) : (queueInsert a q).Perm (a :: q) := by
  induction q with
  | nil => exact .refl _
  | cons b q ih =>
    rw [queueInsert]
    split
    · exact .refl _
    · exact (ih.cons b).trans (.swap a b q)

section
variable {table : Memory Nat} {a b : QueueItem} {q q' : List QueueItem}

theorem Forest.perm (h : Forest table q) (hperm : q'.Perm q) : Forest table q' where
  weighed a ha := h.weighed a (hperm.mem_iff.mp ha)
  full a ha := h.full a (hperm.mem_iff.mp ha)
  symbols := (hperm.flatMap_right _).trans h.symbols
  total := (hperm.map _).sum_eq.trans h.total

theorem Forest.nil : Forest [] [] := ⟨by simp, by simp, .nil, rfl⟩

theorem Forest.leaf (h : Forest table q) (s : Sym) (w seq : Nat) :
    Forest (table ++ [(s, w)]) (queueInsert { weight := w, seq := seq, node := .leaf s w } q) := by
  refine .perm ?_ (perm_queueInsert _ q)
  refine ⟨List.forall_mem_cons.mpr ⟨rfl, h.weighed⟩, List.forall_mem_cons.mpr ⟨trivial, h.full⟩, ?_, ?_⟩
  · rw [List.map_append]
    exact (h.symbols.cons s).trans (List.perm_append_singleton s _).symm
  · simp [h.total, Nat.add_comm]

/-- A merge gives the two subtrees and their weights together (R84). -/
theorem Forest.merge (h : Forest table (a :: b :: q)) (seq : Nat) :
    Forest table (queueInsert (mergeItems seq a b) q) := by
  obtain ⟨ha, hb, hq⟩ : FullTrie a.node ∧ FullTrie b.node ∧ ∀ c ∈ q, FullTrie c.node := by simpa using h.full
  refine .perm ?_ (perm_queueInsert _ q)
  refine ⟨List.forall_mem_cons.mpr ⟨rfl, fun c hc => h.weighed c (by simp [hc])⟩,
    List.forall_mem_cons.mpr ⟨⟨ha, hb⟩, hq⟩, ?_, ?_⟩
  · simpa [mergeItems] using h.symbols
  · simpa [mergeItems, Nat.add_assoc] using h.total

theorem Forest.queueLeaves {rest : Memory Nat} (h : Forest table q) (seq : Nat) :
    Forest (table ++ rest) (queueLeaves rest seq q) := by
  induction rest generalizing table seq q with
  | nil => rwa [List.append_nil]
  | cons x rest ih =>
    have hnext := ih (h.leaf x.1 x.2 seq) (seq + 1)
    rwa [List.append_assoc, List.singleton_append] at hnext

end

theorem length_queueInsert (a : QueueItem) (q : List QueueItem) : (queueInsert a q).length = q.length + 1 :=
  (perm_queueInsert a q).length_eq

theorem length_queueLeaves (table : Memory Nat) (seq : Nat) (q : List QueueItem) :
    (queueLeaves table seq q).length = table.length + q.length := by
  induction table generalizing seq q with
  | nil => exact (Nat.zero_add _).symm
  | cons x table ih => rw [queueLeaves, ih, length_queueInsert, List.length_cons]; omega

/-- One merge fewer than there are trees leaves one tree. -/
theorem Forest.mergeLoop {table : Memory Nat} {n seq : Nat} {q : List QueueItem} (h : Forest table q)
    (hlen : q.length = n + 1) : ∃ a, mergeLoop n seq q = [a] ∧ Forest table [a] := by
  induction n generalizing seq q with
  | zero =>
    obtain ⟨a, rfl⟩ := List.length_eq_one_iff.mp hlen
    exact ⟨a, rfl, h⟩
  | succ n ih =>
    match q, hlen with
    | a :: b :: q, hlen =>
      exact ih (h.merge seq) (by simpa [length_queueInsert] using hlen)

theorem buildGeneral_forest {table : Memory Nat} (hne : table ≠ []) :
    ∃ a, buildGeneral table = a.node ∧ Forest table [a] := by
  have hpos : 0 < table.length := List.length_pos_iff.mpr hne
  have hlen : (queueLeaves table 0 []).length = table.length - 1 + 1 := by
    rw [length_queueLeaves, List.length_nil]
    omega
  obtain ⟨a, hloop, ha⟩ := (Forest.nil.queueLeaves (rest := table) 0).mergeLoop (seq := table.length) hlen
  exact ⟨a, by rw [buildGeneral, hloop], ha⟩

/-- `build` by the shape of the table (R84 to R86). -/
theorem build_cases (table : Memory Nat) :
    (table = [] ∧ build table = .internal 0 .absent .absent) ∨
      (∃ s w, table = [(s, w)] ∧ build table = .internal w (.leaf s w) .absent) ∨
      (2 ≤ table.length ∧ ∃ a, build table = a.node ∧ Forest table [a]) := by
  match table with
  | [] => exact .inl ⟨rfl, rfl⟩
  | [(s, w)] => exact .inr (.inl ⟨s, w, rfl, rfl⟩)
  | x :: y :: rest =>
    exact .inr (.inr ⟨by simp, buildGeneral_forest (List.cons_ne_nil x _)⟩)

/-! ### Weights -/

theorem trieWeight_build (table : Memory Nat) : trieWeight (build table) = (table.map Prod.snd).sum := by
  obtain ⟨rfl, hbuild⟩ | ⟨s, w, rfl, hbuild⟩ | ⟨-, a, hbuild, hforest⟩ := build_cases table
  · rfl
  · simp [hbuild, trieWeight]
  · rw [hbuild, ← hforest.weighed a (List.mem_singleton_self a), ← hforest.total]
    simp

theorem Memory.read_of_lt_head {α : Type} {m : Memory α} {j i : Nat} {v : α} (h : Memory.wf ((j, v) :: m) = true)
    (hi : i < j) : Memory.read ((j, v) :: m) i = none := by
  cases hread : Memory.read ((j, v) :: m) i with
  | none => rfl
  | some w =>
    rcases List.mem_cons.mp (Memory.mem_of_read hread) with heq | hmem
    · cases heq; omega
    · have := ((Memory.wf_cons _ _).mp h).1 _ hmem
      simp only at this
      omega

/-- One occurrence more of a symbol adds 1 to the total. -/
theorem sum_write_succ {m : Memory Nat} (h : m.wf = true) (s : Sym) :
    ((m.write s ((m.read s).getD 0 + 1)).map Prod.snd).sum = (m.map Prod.snd).sum + 1 := by
  induction m with
  | nil => rfl
  | cons a m ih =>
    obtain ⟨j, w⟩ := a
    rw [Memory.write]
    split
    · next hlt => simp [Memory.read_of_lt_head h hlt]; omega
    · split
      · next heq => simp [Memory.read_cons, heq]; omega
      · next hne =>
        have hrest := ih ((Memory.wf_cons _ _).mp h).2
        simp only [Memory.read_cons, if_neg (Ne.symm hne), List.map_cons, List.sum_cons]
        omega

theorem sum_count (corpus : List Sym) : ((count corpus).map Prod.snd).sum = corpus.length := by
  induction corpus using List.reverseRecOn with
  | nil => rfl
  | append_singleton corpus s ih =>
    rw [count_append_singleton, sum_write_succ (wf_count corpus), ih, List.length_append, List.length_singleton]

/-- Settles O50: the root's weight is the table's total, and the counts of a corpus sum to its length. -/
theorem rootWeightIsTheCorpusLength : Obligations.RootWeightIsTheCorpusLength := fun corpus =>
  (trieWeight_build (count corpus)).trans (sum_count corpus)

/-! ### Symbols -/

theorem symbols_build (table : Memory Nat) : (trieSymbols (build table)).Perm (table.map Prod.fst) := by
  obtain ⟨rfl, hbuild⟩ | ⟨s, w, rfl, hbuild⟩ | ⟨-, a, hbuild, hforest⟩ := build_cases table
  · exact .nil
  · rw [hbuild]
    exact .refl _
  · rw [hbuild]
    simpa using hforest.symbols

theorem Memory.nodup_indices {α : Type} {m : Memory α} (h : m.wf = true) : (m.map Prod.fst).Nodup := by
  induction m with
  | nil => exact .nil
  | cons a m ih =>
    obtain ⟨hlow, hm⟩ := (Memory.wf_cons a m).mp h
    refine List.nodup_cons.mpr ⟨fun hmem => ?_, ih hm⟩
    obtain ⟨x, hx, heq⟩ := List.mem_map.mp hmem
    have := hlow x hx
    omega

theorem nodup_symbols_build {table : Memory Nat} (h : table.wf = true) : (trieSymbols (build table)).Nodup :=
  (symbols_build table).nodup_iff.mpr (Memory.nodup_indices h)

/-- Every entry of a table gets a code word. -/
theorem exists_code_of_read {table : Memory Nat} (h : table.wf = true) {s : Sym} {w : Nat}
    (hread : table.read s = some w) : ∃ q, (derive (build table)).read s = some q := by
  have hmem : s ∈ table.map Prod.fst := List.mem_map_of_mem (Memory.mem_of_read hread)
  exact (exists_read_derive_iff (nodup_symbols_build h)).mpr ((symbols_build table).mem_iff.mpr hmem)

/-- Settles O54: `build` does not look at the counts of a table to give its entries leaves. -/
theorem zeroCountEntryGetsALeaf : Obligations.ZeroCountEntryGetsALeaf :=
  ⟨fun s => ⟨build_singleton s 0, derive_build_singleton s 0⟩, fun _ _ hwf hread => exists_code_of_read hwf hread⟩

/-- The length of a code word (R90 (ii)): no path of `build` is empty, and none is longer than its leaves allow. -/
theorem length_path_build {table : Memory Nat} {q : Bits} {s : Sym} (h : triePath (build table) q = some s) :
    1 ≤ q.length ∧ q.length ≤ max 1 (table.length - 1) := by
  obtain ⟨rfl, hbuild⟩ | ⟨v, w, rfl, hbuild⟩ | ⟨htwo, a, hbuild, hforest⟩ := build_cases table
  · rw [hbuild] at h
    cases q <;> simp at h
  · rw [hbuild] at h
    match q, h with
    | [false], _ => exact ⟨Nat.le_refl 1, Nat.le_max_left ..⟩
  · have hfull : FullTrie (build table) := hbuild ▸ hforest.full a (List.mem_singleton_self a)
    have hsymbols : (trieSymbols (build table)).length = table.length := by
      rw [(symbols_build table).length_eq, List.length_map]
    have hlen := hfull.length_path h
    refine ⟨?_, by omega⟩
    cases q with
    | nil =>
      cases hshape : build table with
      | leaf v w => rw [hshape] at hsymbols; simp at hsymbols; omega
      | _ => rw [hshape] at h; simp at h
    | cons b q => exact Nat.succ_pos _

theorem construct_eq (corpus : List Sym) : construct corpus = (build (count corpus), derive (build (count corpus))) := rfl

theorem nodup_symbols_construct (corpus : List Sym) : (trieSymbols (construct corpus).1).Nodup :=
  nodup_symbols_build (wf_count corpus)

theorem mem_symbols_construct {corpus : List Sym} {s : Sym} : s ∈ trieSymbols (construct corpus).1 ↔ s ∈ corpus := by
  rw [construct_eq, (symbols_build _).mem_iff, List.mem_map]
  constructor
  · rintro ⟨⟨v, w⟩, hmem, rfl⟩
    have hread := Memory.read_of_mem (wf_count corpus) hmem
    by_contra hnot
    rw [read_count, if_neg hnot] at hread
    cases hread
  · intro hmem
    exact ⟨(s, corpus.count s), Memory.mem_of_read (by rw [read_count, if_pos hmem]), rfl⟩

/-- The code word of a symbol of a corpus is the path to its leaf. -/
theorem read_construct_iff {corpus : List Sym} {s : Sym} {q : Bits} :
    (construct corpus).2.read s = some q ↔ triePath (construct corpus).1 q = some s :=
  read_derive_iff (nodup_symbols_construct corpus)

/-- Settles O51: the code words are the paths to the leaves, which hold the symbols of the corpus. -/
theorem codeOfACorpusIsPrefixFree : Obligations.CodeOfACorpusIsPrefixFree := by
  refine fun corpus => ⟨fun s => ?_, fun s q hread => ?_, fun a b qa qb hne ha hb hprefix => hne ?_⟩
  · exact (exists_read_derive_iff (nodup_symbols_construct corpus)).trans mem_symbols_construct
  · exact length_path_build (read_construct_iff.mp hread)
  · exact triePath_prefix (read_construct_iff.mp ha) (read_construct_iff.mp hb) hprefix

end Sys2Proof.Machine
end

section
/-! The table image of a trie (spec 40_construct.md R91). `place` numbers the nodes in pre-order, so a subtree takes a range
of ids and its record stands where it begins (`PlacedAt`). The check of R17 visits a placed trie in the same order, so it
meets each id and each symbol for the first time (`treeCheck_placed`). -/

namespace Sys2Proof.Machine

/-- The number of nodes. -/
def trieSize : Trie → Nat
  | .absent => 0
  | .leaf _ _ => 1
  | .internal _ l r => 1 + trieSize l + trieSize r

/-- The record of a LEAF that R91 places. -/
def leafEntry (s : Sym) : TMEntry := { kind := .leaf, sym := s, lv := false, left := 0, rv := false, right := 0 }

/-- The record of an INTERNAL node that R91 places at `n`: its left subtree begins behind it, its right one behind that. -/
def innerEntry (l r : Trie) (n : Nat) : TMEntry :=
  { kind := .internal, sym := 0, lv := triePresent l, left := if triePresent l then n + 1 else 0,
    rv := triePresent r, right := if triePresent r then n + 1 + trieSize l else 0 }

/-- The trie lies in TM from `n` on, as R91 places it. -/
def PlacedAt (tm : Memory TMEntry) : Trie → Nat → Prop
  | .absent, _ => True
  | .leaf s _, n => tm.read n = some (leafEntry s)
  | .internal _ l r, n =>
    tm.read n = some (innerEntry l r n) ∧ PlacedAt tm l (n + 1) ∧ PlacedAt tm r (n + 1 + trieSize l)

/-! ### `place` -/

theorem place_fst (t : Trie) (n : Nat) (tm : Memory TMEntry) : (place t n tm).1 = n + trieSize t := by
  induction t generalizing n tm with
  | absent => rfl
  | leaf s w => rfl
  | internal w l r ihl ihr => rw [place, ihr, ihl, trieSize, ← Nat.add_assoc, ← Nat.add_assoc]

theorem place_leaf (s : Sym) (w : Nat) (n : Nat) (tm : Memory TMEntry) :
    (place (.leaf s w) n tm).2 = tm.write n (leafEntry s) := rfl

theorem place_internal (w : Nat) (l r : Trie) (n : Nat) (tm : Memory TMEntry) :
    (place (.internal w l r) n tm).2 =
      (place r (n + 1 + trieSize l) (place l (n + 1) tm).2).2.write n (innerEntry l r n) := by
  rw [← place_fst l (n + 1) tm]
  simp only [place, innerEntry, place_fst]

/-- Ids outside the range of the trie are left as they were. -/
theorem read_place_other (t : Trie) {n m : Nat} (hm : m < n ∨ n + trieSize t ≤ m) (tm : Memory TMEntry) :
    (place t n tm).2.read m = tm.read m := by
  induction t generalizing n tm with
  | absent => rfl
  | leaf s w =>
    rw [trieSize] at hm
    rw [place_leaf, Memory.read_write_other _ _ (by omega)]
  | internal w l r ihl ihr =>
    rw [trieSize] at hm
    rw [place_internal, Memory.read_write_other _ _ (by omega), ihr (by omega), ihl (by omega)]

/-- Whether a trie is placed is a matter of the ids of its range. -/
theorem PlacedAt.congr {tm tm' : Memory TMEntry} {t : Trie} {n : Nat} (h : PlacedAt tm t n)
    (heq : ∀ m, n ≤ m → m < n + trieSize t → tm'.read m = tm.read m) : PlacedAt tm' t n := by
  induction t generalizing n with
  | absent => trivial
  | leaf s w => exact (heq n (Nat.le_refl n) (Nat.lt_succ_self n)).trans h
  | internal w l r ihl ihr =>
    obtain ⟨hroot, hl, hr⟩ := h
    rw [trieSize] at heq
    exact ⟨(heq n (Nat.le_refl n) (by omega)).trans hroot, ihl hl fun m h1 h2 => heq m (by omega) (by omega),
      ihr hr fun m h1 h2 => heq m (by omega) (by omega)⟩

theorem placedAt_place (t : Trie) (n : Nat) (tm : Memory TMEntry) : PlacedAt (place t n tm).2 t n := by
  induction t generalizing n tm with
  | absent => trivial
  | leaf s w => exact Memory.read_write_same _ _ _
  | internal w l r ihl ihr =>
    rw [place_internal]
    refine ⟨Memory.read_write_same _ _ _, (ihl (n + 1) tm).congr fun m h1 h2 => ?_, ?_⟩
    · rw [Memory.read_write_other _ _ (by omega), read_place_other r (.inl h2)]
    · refine (ihr (n + 1 + trieSize l) (place l (n + 1) tm).2).congr fun m h1 h2 => ?_
      rw [Memory.read_write_other _ _ (by omega)]

theorem wf_place {t : Trie} {n : Nat} {tm : Memory TMEntry} (h : tm.wf = true) : (place t n tm).2.wf = true := by
  induction t generalizing n tm with
  | absent => exact h
  | leaf s w => exact Memory.wf_write _ _ h
  | internal w l r ihl ihr =>
    rw [place_internal]
    exact Memory.wf_write _ _ (ihr (ihl h))

/-! ### Paths of a placed trie -/

theorem childOf_innerEntry (l r : Trie) (n : Nat) (b : Bool) : childOf (innerEntry l r n) b =
    if triePresent (if b then r else l) then some (if b then n + 1 + trieSize l else n + 1) else none := by
  cases b with
  | false => cases hl : triePresent l <;> simp [childOf, innerEntry, hl]
  | true => cases hr : triePresent r <;> simp [childOf, innerEntry, hr]

/-- A placed trie has in TM the paths that it has as a trie (R18). -/
theorem leafAt_placed {tm : Memory TMEntry} {t : Trie} {n : Nat} (h : PlacedAt tm t n)
    (hpresent : triePresent t = true) (q : Bits) : leafAt tm n q = triePath t q := by
  induction q generalizing t n with
  | nil =>
    cases t with
    | absent => cases hpresent
    | leaf s w =>
      have hread : tm.read n = some (leafEntry s) := h
      simp [leafAt, hread, leafEntry]
    | internal w l r =>
      have hread : tm.read n = some (innerEntry l r n) := h.1
      simp [leafAt, hread, innerEntry]
  | cons b q ih =>
    cases t with
    | absent => cases hpresent
    | leaf s w =>
      have hread : tm.read n = some (leafEntry s) := h
      simp [leafAt, nodeAt, hread, leafEntry]
    | internal w l r =>
      obtain ⟨hread, hl, hr⟩ := h
      have hchild := childOf_innerEntry l r n b
      have hkind : (innerEntry l r n).kind = .internal := rfl
      rw [triePath_internal_cons]
      cases hsub : triePresent (if b then r else l) with
      | false =>
        have habsent : (if b then r else l) = .absent := by
          cases hshape : (if b then r else l) <;> simp_all [triePresent]
        rw [hsub] at hchild
        simp [leafAt, nodeAt, hread, hkind, hchild, habsent]
      | true =>
        rw [hsub, if_pos rfl] at hchild
        rw [leafAt_of_edge (nodeAt_edge.mpr ⟨_, hread, hkind, hchild⟩)]
        cases b with
        | false => exact ih hl hsub
        | true => exact ih hr hsub

/-! ### The check of a placed trie -/

theorem FullTrie.present {t : Trie} (h : FullTrie t) : triePresent t = true := by
  cases t with
  | absent => exact h.elim
  | _ => rfl

section
variable {p : Params} {tm : Memory TMEntry} {n fuel : Nat} {todo seen : List NodeId} {syms : List Sym}

/-- One round of the check at a placed leaf. -/
theorem treeCheck_leafEntry {s : Sym} (hread : tm.read n = some (leafEntry s)) (hbound : n < p.nnode) (hn : n ∉ seen)
    (hs : s ∉ syms) :
    treeCheck p tm (fuel + 1) (n :: todo) seen syms = treeCheck p tm fuel todo (n :: seen) (s :: syms) := by
  simp [treeCheck, hread, leafEntry, hbound, hn, hs]

/-- One round of the check at a placed INTERNAL node with both children. -/
theorem treeCheck_innerEntry {l r : Trie} (hl : triePresent l = true) (hr : triePresent r = true)
    (hread : tm.read n = some (innerEntry l r n)) (hbound : n < p.nnode) (hn : n ∉ seen) :
    treeCheck p tm (fuel + 1) (n :: todo) seen syms =
      treeCheck p tm fuel ((n + 1) :: (n + 1 + trieSize l) :: todo) (n :: seen) syms := by
  simp [treeCheck, hread, innerEntry, hl, hr, hbound, hn]

end

/-- What is known of the nodes and symbols the check has met once it is through a trie that lies below `m`. -/
structure CheckedBelow (t : Trie) (m : Nat) (syms : List Sym) (seen' : List NodeId) (syms' : List Sym) : Prop where
  ids : ∀ k ∈ seen', k < m
  symbols : ∀ v ∈ syms', v ∈ syms ∨ v ∈ trieSymbols t

/-- The check goes through a full placed trie whose ids lie above those it has seen and whose symbols are new. -/
theorem treeCheck_placed {p : Params} {tm : Memory TMEntry} {t : Trie} (hfull : FullTrie t) {n : Nat}
    (hplaced : PlacedAt tm t n) (hbound : n + trieSize t ≤ p.nnode) {seen : List NodeId} {syms : List Sym}
    (hseen : ∀ k ∈ seen, k < n) (hnodup : (trieSymbols t).Nodup) (hnew : ∀ v ∈ trieSymbols t, v ∉ syms) :
    ∃ seen' syms', CheckedBelow t (n + trieSize t) syms seen' syms' ∧
      ∀ fuel todo, treeCheck p tm (fuel + trieSize t) (n :: todo) seen syms = treeCheck p tm fuel todo seen' syms' := by
  induction t generalizing n seen syms with
  | absent => exact hfull.elim
  | leaf s w =>
    have hunseen : n ∉ seen := fun hmem => Nat.lt_irrefl n (hseen n hmem)
    have hids : ∀ k ∈ n :: seen, k < n + 1 :=
      List.forall_mem_cons.mpr ⟨Nat.lt_succ_self n, fun k hk => Nat.lt_succ_of_lt (hseen k hk)⟩
    exact ⟨n :: seen, s :: syms, ⟨hids, by simp +contextual⟩, fun fuel todo =>
      treeCheck_leafEntry hplaced hbound hunseen (hnew s (List.mem_singleton_self s))⟩
  | internal w l r ihl ihr =>
    obtain ⟨hl, hr⟩ := hfull
    obtain ⟨hread, hplacedL, hplacedR⟩ := hplaced
    obtain ⟨hnodupL, hnodupR, hdisjoint⟩ := List.nodup_append.mp hnodup
    rw [trieSymbols_internal, List.forall_mem_append] at hnew
    obtain ⟨hnewL, hnewR⟩ := hnew
    rw [trieSize] at hbound
    have hunseen : n ∉ seen := fun hmem => Nat.lt_irrefl n (hseen n hmem)
    have hids : ∀ k ∈ n :: seen, k < n + 1 :=
      List.forall_mem_cons.mpr ⟨Nat.lt_succ_self n, fun k hk => Nat.lt_succ_of_lt (hseen k hk)⟩
    obtain ⟨seenL, symsL, ⟨hidsL, hsymsL⟩, hrunL⟩ := ihl hl hplacedL (by omega) hids hnodupL hnewL
    have hnewR' : ∀ v ∈ trieSymbols r, v ∉ symsL := fun v hv hmem =>
      (hsymsL v hmem).elim (hnewR v hv) fun hleft => hdisjoint v hleft v hv rfl
    obtain ⟨seenR, symsR, ⟨hidsR, hsymsR⟩, hrunR⟩ := ihr hr hplacedR (by omega) hidsL hnodupR hnewR'
    refine ⟨seenR, symsR, ⟨fun k hk => ?_, fun v hv => ?_⟩, fun fuel todo => ?_⟩
    · exact Nat.lt_of_lt_of_eq (hidsR k hk) (by rw [trieSize]; omega)
    · rw [trieSymbols_internal, List.mem_append, ← or_assoc]
      exact (hsymsR v hv).imp_left (hsymsL v)
    · have hfuel : fuel + trieSize (.internal w l r) = fuel + trieSize r + trieSize l + 1 := by rw [trieSize]; omega
      rw [hfuel, treeCheck_innerEntry hl.present hr.present hread (by omega) hunseen, hrunL, hrunR]

/-- A full trie has one node fewer than twice its leaves. -/
theorem FullTrie.size {t : Trie} (h : FullTrie t) : trieSize t + 1 = 2 * (trieSymbols t).length := by
  induction t with
  | absent => exact h.elim
  | leaf s w => rfl
  | internal w l r ihl ihr =>
    have hsizeL := ihl h.1
    have hsizeR := ihr h.2
    rw [trieSize, trieSymbols_internal, List.length_append]
    omega

/-- Distinct symbols below `NSYM` are at most `NSYM`. -/
theorem length_le_nsym {p : Params} {l : List Sym} (hnodup : l.Nodup) (hfits : ∀ s ∈ l, s < p.nsym) :
    l.length ≤ p.nsym := by
  have hsub : l ⊆ List.range p.nsym := fun s hs => List.mem_range.mpr (hfits s hs)
  simpa using (hnodup.subperm hsub).length_le

/-- So a full trie has room in TM (R4, R91). -/
theorem FullTrie.size_le_nnode {p : Params} {t : Trie} (h : FullTrie t) (hnodup : (trieSymbols t).Nodup)
    (hfits : ∀ s ∈ trieSymbols t, s < p.nsym) : trieSize t ≤ p.nnode := by
  have hsize := h.size
  have hle := length_le_nsym hnodup hfits
  rw [Params.nnode]
  omega

/-- R17's check accepts the image of a full trie with an INTERNAL root and distinct symbols that fit. -/
theorem wfTM_imageTM_of_full {p : Params} {w : Nat} {l r : Trie} (hfull : FullTrie (.internal w l r))
    (hnodup : (trieSymbols (.internal w l r)).Nodup) (hfits : ∀ s ∈ trieSymbols (.internal w l r), s < p.nsym) :
    wfTM p (imageTM (.internal w l r)) = true := by
  have hplaced : PlacedAt (imageTM (.internal w l r)) (.internal w l r) 0 := placedAt_place _ 0 []
  have hsize := hfull.size_le_nnode hnodup hfits
  obtain ⟨seen', syms', -, hcheck⟩ := treeCheck_placed (p := p) hfull hplaced (by omega) (seen := []) (syms := [])
    (by simp) hnodup (by simp)
  obtain ⟨fuel, hfuel⟩ : ∃ fuel, p.nnode + 1 = fuel + 1 + trieSize (.internal w l r) :=
    ⟨p.nnode - trieSize (.internal w l r), by omega⟩
  have hgeneral : treeCheck p (imageTM (.internal w l r)) (p.nnode + 1) [0] [] [] = true := by
    rw [hfuel, hcheck (fuel + 1) []]
    rfl
  simp only [wfTM, hplaced.1, innerEntry, hfull.1.present, hfull.2.present, hgeneral]

end Sys2Proof.Machine
end

section
/-! The table image of a corpus (spec 40_construct.md R91). Its trie is the placeholder, the synthetic root, or full with an
INTERNAL root, and in each shape its image passes the check of R17. -/

namespace Sys2Proof.Machine

theorem two_le_nsym {p : Params} (hp : p.ok = true) : 2 ≤ p.nsym := by
  obtain ⟨hsymw, -⟩ : 1 ≤ p.symw ∧ 8 ≤ p.mlenw := by simpa [Params.ok] using hp
  exact Nat.pow_le_pow_right (n := 2) (by decide) hsymw

theorem wfTM_imageTM_singleton {p : Params} (hp : p.ok = true) (s : Sym) (w : Nat) :
    wfTM p (imageTM (.internal w (.leaf s w) .absent)) = true := by
  have hone : 1 < p.nnode := by
    have := two_le_nsym hp
    rw [Params.nnode]
    omega
  have hplaced : PlacedAt (imageTM (.internal w (.leaf s w) .absent)) (.internal w (.leaf s w) .absent) 0 :=
    placedAt_place _ 0 []
  obtain ⟨hroot, hleaf, -⟩ := hplaced
  have hleaf : (imageTM (.internal w (.leaf s w) .absent)).read 1 = some (leafEntry s) := hleaf
  simp [wfTM, hroot, innerEntry, triePresent, hleaf, leafEntry, hone]

/-- The image of a table whose symbols fit passes R17's check. -/
theorem wfTM_imageTM_build {p : Params} (hp : p.ok = true) {table : Memory Nat} (hwf : table.wf = true)
    (hfits : ∀ s ∈ trieSymbols (build table), s < p.nsym) : wfTM p (imageTM (build table)) = true := by
  obtain ⟨rfl, hbuild⟩ | ⟨s, w, rfl, hbuild⟩ | ⟨htwo, a, hbuild, hforest⟩ := build_cases table
  · rfl
  · exact wfTM_imageTM_singleton hp s w
  · have hfull : FullTrie (build table) := hbuild ▸ hforest.full a (List.mem_singleton_self a)
    have hnodup := nodup_symbols_build hwf
    have hlen : (trieSymbols (build table)).length = table.length := by
      rw [(symbols_build table).length_eq, List.length_map]
    cases hshape : build table with
    | absent => rw [hshape] at hfull; exact hfull.elim
    | leaf s w => rw [hshape, trieSymbols_leaf, List.length_singleton] at hlen; omega
    | internal w l r =>
      rw [hshape] at hfull hnodup hfits
      exact wfTM_imageTM_of_full hfull hnodup hfits

theorem triePresent_build (table : Memory Nat) : triePresent (build table) = true := by
  obtain ⟨rfl, hbuild⟩ | ⟨s, w, rfl, hbuild⟩ | ⟨-, a, hbuild, hforest⟩ := build_cases table
  · rfl
  · rfl
  · rw [hbuild]
    exact (hforest.full a (List.mem_singleton_self a)).present

/-! ### The code table -/

theorem read_imageCT (map : Memory Bits) (s : Sym) :
    (imageCT map).read s = (map.read s).map (fun q => { valid := true, code := q }) := by
  induction map with
  | nil => rfl
  | cons x map ih =>
    obtain ⟨v, q⟩ := x
    have hcons : imageCT ((v, q) :: map) = (v, { valid := true, code := q }) :: imageCT map := rfl
    rw [hcons, Memory.read_cons, Memory.read_cons]
    split
    · rfl
    · exact ih

theorem codeWord_imageCT (map : Memory Bits) (s : Sym) : codeWord (imageCT map) s = map.read s := by
  rw [codeWord, read_imageCT]
  cases map.read s <;> rfl

section
variable {p : Params} {corpus : List Sym} (hp : p.ok = true) (hfits : ∀ s ∈ corpus, s < p.nsym)

include hfits in
theorem symbols_construct_fit : ∀ s ∈ trieSymbols (construct corpus).1, s < p.nsym := fun s hs =>
  hfits s (mem_symbols_construct.mp hs)

include hfits in
/-- The code words of a corpus have 1 to `MAXLEN` bits (R14, R90 (ii)). -/
theorem length_code_construct {s : Sym} {q : Bits} (hread : (construct corpus).2.read s = some q) :
    1 ≤ q.length ∧ q.length ≤ p.maxlen := by
  have hcount : (count corpus).length ≤ p.nsym := by
    have hle := length_le_nsym (nodup_symbols_construct corpus) (symbols_construct_fit hfits)
    rwa [construct_eq, (symbols_build _).length_eq, List.length_map] at hle
  obtain ⟨hlow, hhigh⟩ := length_path_build (read_construct_iff.mp hread)
  refine ⟨hlow, Nat.le_trans hhigh ?_⟩
  rw [Params.maxlen]
  omega

include hfits in
theorem WfCT_imageCT_construct : WfCT p (imageCT (construct corpus).2) := by
  intro s e hread _
  rw [read_imageCT, Option.map_eq_some_iff] at hread
  obtain ⟨q, hq, rfl⟩ := hread
  exact length_code_construct hfits hq

include hp hfits in
theorem wfTM_imageTM_construct : wfTM p (imageTM (construct corpus).1) = true :=
  wfTM_imageTM_build hp (wf_count corpus) (symbols_construct_fit hfits)

end

/-- The code word of a symbol is the path to its leaf in TM as in the trie (R18). -/
theorem consistent_construct (corpus : List Sym) :
    Consistent (imageCT (construct corpus).2) (imageTM (construct corpus).1) := by
  intro s q
  have hpresent : triePresent (construct corpus).1 = true := triePresent_build (count corpus)
  rw [codeWord_imageCT, read_construct_iff, imageTM, leafAt_placed (placedAt_place _ 0 []) hpresent]

/-- Settles O52: the image of the trie passes the check of R17, and paths of the trie are paths in TM. -/
theorem tableImageIsWellFormedAndConsistent : Obligations.TableImageIsWellFormedAndConsistent := fun _ corpus hp hfits =>
  ⟨WfTM_of_wfTM (wfTM_imageTM_construct hp hfits), WfCT_imageCT_construct hfits, consistent_construct corpus⟩

end Sys2Proof.Machine
end

section
/-! The load sequence (spec 40_construct.md R92). In CONFIG mode with both units IDLE each pending write is one step, and
writes of a canonical list of entries into an empty space make that list (`loadTM_nil`, `loadCT_nil`). The image's entries
are transactions of the block, and LOCK finds well-formed tables. -/

namespace Sys2Proof.Machine

/-! ### Writing a list of entries -/

/-- The writes of a list of entries, first to last. -/
def Memory.load {α : Type} (m entries : Memory α) : Memory α := entries.foldl (fun m x => m.write x.1 x.2) m

theorem Memory.write_of_above {α : Type} {m : Memory α} {i : Nat} (h : ∀ x ∈ m, x.1 < i) (v : α) :
    Memory.write m i v = m ++ [(i, v)] := by
  induction m with
  | nil => rfl
  | cons a m ih =>
    obtain ⟨j, w⟩ := a
    obtain ⟨hj, hm⟩ := List.forall_mem_cons.mp h
    rw [Memory.write, if_neg (Nat.lt_asymm hj), if_neg (Nat.ne_of_gt hj), ih hm, List.cons_append]

theorem Memory.load_of_above {α : Type} {m entries : Memory α} (hwf : entries.wf = true)
    (habove : ∀ x ∈ m, ∀ y ∈ entries, x.1 < y.1) : Memory.load m entries = m ++ entries := by
  induction entries generalizing m with
  | nil => exact (List.append_nil m).symm
  | cons a entries ih =>
    obtain ⟨hlow, hrest⟩ := (Memory.wf_cons a entries).mp hwf
    have hwrite : Memory.write m a.1 a.2 = m ++ [a] :=
      Memory.write_of_above (fun x hx => habove x hx a (List.mem_cons_self ..)) a.2
    have hnext : ∀ x ∈ m ++ [a], ∀ y ∈ entries, x.1 < y.1 := by
      intro x hx y hy
      rcases List.mem_append.mp hx with hx | hx
      · exact habove x hx y (List.mem_cons_of_mem a hy)
      · exact List.mem_singleton.mp hx ▸ hlow y hy
    rw [Memory.load, List.foldl_cons, hwrite, ← Memory.load, ih hrest hnext, List.append_assoc, List.singleton_append]

theorem Memory.load_nil {α : Type} {entries : Memory α} (hwf : entries.wf = true) :
    Memory.load [] entries = entries :=
  Memory.load_of_above hwf (by simp)

/-! ### The steps -/

/-- The block while its tables are loaded from reset. -/
def loading (p : Params) (ct : Memory CTEntry) (tm : Memory TMEntry) (script : List HostStmt) : State :=
  { State.resetWith p with ct := ct, tm := tm, script := script }

section
variable {p : Params} {ct : Memory CTEntry} {tm : Memory TMEntry}

/-- No unit is BUSY, so the HOST issues its next transaction. -/
theorem step_loading (txn : HostTxn) (rest : List HostStmt) :
    step (loading p ct tm (.txn txn :: rest)) = hostTxn txn (loading p ct tm rest) := rfl

theorem step_loading_writeTM {x : Nat × TMEntry} (hfits : txnFits p (.writeTM x.1 x.2) = true)
    (rest : List HostStmt) :
    step (loading p ct tm (.txn (.writeTM x.1 x.2) :: rest)) = .next (loading p ct (tm.write x.1 x.2) rest) :=
  (step_loading _ rest).trans (if_pos hfits)

theorem step_loading_writeCT {x : Nat × CTEntry} (hfits : txnFits p (.writeCT x.1 x.2) = true)
    (rest : List HostStmt) :
    step (loading p ct tm (.txn (.writeCT x.1 x.2) :: rest)) = .next (loading p (ct.write x.1 x.2) tm rest) :=
  (step_loading _ rest).trans (if_pos hfits)

theorem run_loadTM {entries : Memory TMEntry} (hfits : ∀ x ∈ entries, txnFits p (.writeTM x.1 x.2) = true)
    (rest : List HostStmt) (k : Nat) :
    runUnit step (entries.length + k)
        (loading p ct tm (entries.map (fun x => .txn (.writeTM x.1 x.2)) ++ rest)) =
      runUnit step k (loading p ct (tm.load entries) rest) := by
  induction entries generalizing tm with
  | nil => rw [List.length_nil, Nat.zero_add]; rfl
  | cons x entries ih =>
    obtain ⟨hx, hrest⟩ := List.forall_mem_cons.mp hfits
    rw [List.length_cons, Nat.add_right_comm, List.map_cons, List.cons_append,
      runUnit_succ (step_loading_writeTM hx _), ih hrest]
    rfl

theorem run_loadCT {entries : Memory CTEntry} (hfits : ∀ x ∈ entries, txnFits p (.writeCT x.1 x.2) = true)
    (rest : List HostStmt) (k : Nat) :
    runUnit step (entries.length + k)
        (loading p ct tm (entries.map (fun x => .txn (.writeCT x.1 x.2)) ++ rest)) =
      runUnit step k (loading p (ct.load entries) tm rest) := by
  induction entries generalizing ct with
  | nil => rw [List.length_nil, Nat.zero_add]; rfl
  | cons x entries ih =>
    obtain ⟨hx, hrest⟩ := List.forall_mem_cons.mp hfits
    rw [List.length_cons, Nat.add_right_comm, List.map_cons, List.cons_append,
      runUnit_succ (step_loading_writeCT hx _), ih hrest]
    rfl

theorem step_loading_lock (hct : wfCT p ct = true) (htm : wfTM p tm = true) :
    step (loading p ct tm [stLock]) = .next (loading p ct tm []).setLock := by
  have htables : (loading p ct tm []).lockTables = true := Bool.and_eq_true_iff.mpr ⟨hct, htm⟩
  rw [stLock, stWrreg, step_loading, hostTxn_writeCmd (by decide), writeCmd_lock, execLock_of_passes (.inr htables)]
  exact lockEffect_config rfl

/-- The whole sequence for tables whose entries are transactions of the block and pass the check of R142. -/
theorem run_load_and_lock (hctFits : ∀ x ∈ ct, txnFits p (.writeCT x.1 x.2) = true)
    (htmFits : ∀ x ∈ tm, txnFits p (.writeTM x.1 x.2) = true) (hctWf : ct.wf = true) (htmWf : tm.wf = true)
    (hct : wfCT p ct = true) (htm : wfTM p tm = true) :
    runUnit step (stTables tm ct ++ [stLock]).length (loading p [] [] (stTables tm ct ++ [stLock])) =
      .next (loading p ct tm []).setLock := by
  have hlen : (stTables tm ct ++ [stLock]).length = tm.length + (ct.length + 1) := by
    simp [stTables]
  rw [hlen, stTables, List.append_assoc, run_loadTM htmFits, run_loadCT hctFits, Memory.load_nil hctWf,
    Memory.load_nil htmWf, runUnit_succ (step_loading_lock hct htm), runUnit]

end

/-! ### The entries of an image -/

theorem nnode_lt (p : Params) : p.nnode < 2 ^ p.nidw := by
  have hpos := nsym_pos p
  rw [Params.nnode, Params.nidw, Nat.pow_succ, ← Params.nsym]
  omega

theorem leafEntry_fits {p : Params} {s : Sym} (hs : s < p.nsym) : tmEntryFits p (leafEntry s) = true := by
  simp [tmEntryFits, leafEntry, hs]

theorem innerEntry_fits {p : Params} {l r : Trie} {n : Nat} (hbound : n + 1 + trieSize l ≤ p.nnode) :
    tmEntryFits p (innerEntry l r n) = true := by
  have hlt := nnode_lt p
  have hleft : (if triePresent l then n + 1 else 0) < 2 ^ p.nidw := by split <;> omega
  have hright : (if triePresent r then n + 1 + trieSize l else 0) < 2 ^ p.nidw := by split <;> omega
  simp [tmEntryFits, innerEntry, nsym_pos, hleft, hright]

/-- Every record that R91 places in TM is a transaction of the block. -/
theorem place_fits {p : Params} {t : Trie} {n : Nat} (hbound : n + trieSize t ≤ p.nnode)
    (hsymbols : ∀ s ∈ trieSymbols t, s < p.nsym) {tm : Memory TMEntry}
    (htm : tm.all (fun x => txnFits p (.writeTM x.1 x.2)) = true) :
    (place t n tm).2.all (fun x => txnFits p (.writeTM x.1 x.2)) = true := by
  induction t generalizing n tm with
  | absent => exact htm
  | leaf s w =>
    have hn : n < p.nnode := hbound
    rw [place_leaf]
    exact Memory.all_write htm (by simp [txnFits, hn, leafEntry_fits (hsymbols s (List.mem_singleton_self s))])
  | internal w l r ihl ihr =>
    rw [trieSize] at hbound
    rw [trieSymbols_internal, List.forall_mem_append] at hsymbols
    have hn : n < p.nnode := by omega
    rw [place_internal]
    exact Memory.all_write (ihr (by omega) hsymbols.2 (ihl (by omega) hsymbols.1 htm))
      (by simp [txnFits, hn, innerEntry_fits (show n + 1 + trieSize l ≤ p.nnode by omega)])

theorem trieSize_build_le {p : Params} (hp : p.ok = true) {table : Memory Nat} (hwf : table.wf = true)
    (hfits : ∀ s ∈ trieSymbols (build table), s < p.nsym) : trieSize (build table) ≤ p.nnode := by
  have htwo := two_le_nsym hp
  have hsmall : 2 ≤ p.nnode := by rw [Params.nnode]; omega
  obtain ⟨rfl, hbuild⟩ | ⟨s, w, rfl, hbuild⟩ | ⟨-, a, hbuild, hforest⟩ := build_cases table
  · exact Nat.le_trans (Nat.le_succ 1) hsmall
  · exact hsmall
  · have hfull : FullTrie (build table) := hbuild ▸ hforest.full a (List.mem_singleton_self a)
    exact hfull.size_le_nnode (nodup_symbols_build hwf) hfits

theorem imageTM_construct_fits {p : Params} {corpus : List Sym} (hp : p.ok = true) (hfits : ∀ s ∈ corpus, s < p.nsym) :
    ∀ x ∈ imageTM (construct corpus).1, txnFits p (.writeTM x.1 x.2) = true := by
  have hsymbols := symbols_construct_fit hfits
  have hsize : 0 + trieSize (construct corpus).1 ≤ p.nnode :=
    Nat.zero_add _ ▸ trieSize_build_le hp (wf_count corpus) hsymbols
  exact List.all_eq_true.mp (place_fits hsize hsymbols (tm := []) rfl)

theorem wf_imageCT {map : Memory Bits} (h : map.wf = true) : (imageCT map).wf = true := by
  induction map with
  | nil => rfl
  | cons x map ih =>
    obtain ⟨hlow, hmap⟩ := (Memory.wf_cons x map).mp h
    refine (Memory.wf_cons _ _).mpr ⟨fun y hy => ?_, ih hmap⟩
    obtain ⟨z, hz, rfl⟩ := List.mem_map.mp hy
    exact hlow z hz

theorem wf_imageCT_construct (corpus : List Sym) : (imageCT (construct corpus).2).wf = true :=
  wf_imageCT (wf_deriveWalk rfl)

theorem imageCT_construct_fits {p : Params} {corpus : List Sym} (hfits : ∀ s ∈ corpus, s < p.nsym) :
    ∀ x ∈ imageCT (construct corpus).2, txnFits p (.writeCT x.1 x.2) = true := by
  rintro ⟨s, e⟩ hmem
  have hread := Memory.read_of_mem (wf_imageCT_construct corpus) hmem
  rw [read_imageCT, Option.map_eq_some_iff] at hread
  obtain ⟨q, hq, rfl⟩ := hread
  have hs : s < p.nsym :=
    symbols_construct_fit hfits s (mem_trieSymbols_of_triePath (read_construct_iff.mp hq))
  simp [txnFits, hs, ctEntryFits, CTEntry.len, (length_code_construct hfits hq).2]

theorem SameNode.refl (e : TMEntry) : SameNode e e := ⟨rfl, fun _ => rfl, fun _ _ => rfl⟩

/-- Settles O53: the sequence writes the image entry by entry and locks it. -/
theorem loadSequenceMakesTheCodecOfTheCorpus : Obligations.LoadSequenceMakesTheCodecOfTheCorpus := by
  intro p corpus hp hfits
  have hctWf := wf_imageCT_construct corpus
  have hrun := run_load_and_lock (imageCT_construct_fits hfits) (imageTM_construct_fits hp hfits) hctWf
    (wf_place rfl) ((wfCT_iff hctWf).mpr (WfCT_imageCT_construct hfits)) (wfTM_imageTM_construct hp hfits)
  exact ⟨_, hrun, rfl, ⟨fun n e he => ⟨e, he, .refl e⟩, codeWord_imageCT _⟩, rfl, rfl⟩

end Sys2Proof.Machine
end

section
/-! Words (spec 30_encoding.md R60, R72, 10_state.md R24, R25, R29). Every row of R60's table compares the whole byte, so a
word decodes to a command exactly when it is that command's word. The status words are concatenations of their fields. -/

namespace Sys2Proof.Machine

/-! ### Command words -/

theorem decode_encode (i : Instr) : decode (encode i) = .command i := by
  cases i <;> rfl

theorem decode_command_iff {w : Byte} {i : Instr} : decode w = .command i ↔ w = encode i :=
  ⟨eq_encode_of_decode, fun h => h ▸ decode_encode i⟩

/-- Settles O2: the decoder compares the whole word with the word of each command. -/
theorem decodeInvertsEncode : Obligations.DecodeInvertsEncode := fun _ _ => decode_command_iff

theorem mask_eq (w : Byte) : w &&& 0xFF#8 = w := BitVec.and_allOnes

theorem decode_command_iff_mask {w : Byte} {i : Instr} : decode w = .command i ↔ w &&& 0xFF#8 = encode i := by
  rw [mask_eq, decode_command_iff]

/-- The commands' words are the numbers below 4 (R60, R61). -/
theorem decode_isCommand_iff_lt {w : Byte} : (∃ i, decode w = .command i) ↔ w.toNat < 4 := by
  constructor
  · rintro ⟨i, hi⟩
    obtain rfl := decode_command_iff.mp hi
    cases i <;> decide
  · intro hlt
    have hcommand := decode_command_of_lt hlt
    rwa [BitVec.ofNat_toNat, BitVec.setWidth_eq] at hcommand

/-- These are the words whose field `zero` is 000000. -/
theorem zeroField_iff_lt {w : Byte} : w.extractLsb' 2 6 = 0b000000#6 ↔ w.toNat < 4 := by
  have hlt := w.isLt
  rw [← BitVec.toNat_inj, BitVec.extractLsb'_toNat, Nat.shiftRight_eq_div_pow, BitVec.toNat_ofNat]
  omega

/-- Settles O1: the rows of the table hold the commands' words, with a mask that leaves no bit out. -/
theorem opcodeWordsSelectCommands : Obligations.OpcodeWordsSelectCommands := by
  refine ⟨⟨rfl, rfl, rfl, rfl⟩, fun w => ?_⟩
  exact ⟨decode_command_iff_mask, decode_command_iff_mask, decode_command_iff_mask, decode_command_iff_mask,
    decode_isCommand_iff_lt.trans zeroField_iff_lt.symm⟩

/-! ### Status words -/

theorem UnitStatus.word_state (u : UnitStatus) : u.word.extractLsb' 0 2 = u.state.code :=
  BitVec.extractLsb'_append_eq_right

theorem UnitStatus.word_err (u : UnitStatus) : u.word.extractLsb' 2 3 = u.err.code := by
  rw [UnitStatus.word, BitVec.extractLsb'_append_eq_ite]
  exact BitVec.extractLsb'_append_eq_right

theorem UnitStatus.word_reserved (u : UnitStatus) : u.word.extractLsb' 5 3 = 0 := by
  rw [UnitStatus.word, BitVec.extractLsb'_append_eq_ite]
  exact BitVec.extractLsb'_append_eq_left

theorem GStat.word_lock (g : GStat) : g.word.getLsbD 0 = g.lock := by
  rw [GStat.word, BitVec.getLsbD_append]
  simp

theorem GStat.word_illcmd (g : GStat) : g.word.getLsbD 1 = g.illcmd := by
  rw [GStat.word, BitVec.getLsbD_append, BitVec.getLsbD_append]
  simp

theorem GStat.word_illacc (g : GStat) : g.word.getLsbD 2 = g.illacc := by
  rw [GStat.word, BitVec.getLsbD_append, BitVec.getLsbD_append, BitVec.getLsbD_append]
  simp

theorem GStat.word_reserved (g : GStat) : g.word.extractLsb' 3 5 = 0 := by
  rw [GStat.word, BitVec.extractLsb'_append_eq_ite, BitVec.extractLsb'_append_eq_ite]
  exact BitVec.extractLsb'_append_eq_left

/-- Settles O13: each field is a part of the concatenation. -/
theorem statusWordsHaveTheStatedLayout : Obligations.StatusWordsHaveTheStatedLayout :=
  ⟨fun u => ⟨u.word_state, u.word_err, u.word_reserved⟩,
    fun g => ⟨g.word_lock, g.word_illcmd, g.word_illacc, g.word_reserved⟩,
    ⟨rfl, rfl, rfl, rfl⟩, rfl, rfl, rfl, rfl, rfl, rfl, rfl, rfl⟩

end Sys2Proof.Machine
end

section
/-! Turns (spec 20_memory.md R50, 70_reset_and_hazards.md R182, R194). A schedule that names an enabled agent gives it the
turn, and on the HOST's turn its next statement is performed. -/

namespace Sys2Proof.Machine

/-- Settles O23: the agent named first is enabled, so it has the turn. -/
theorem anyEnabledAgentMayMoveNext : Obligations.AnyEnabledAgentMayMoveNext := by
  intro s rest
  have hturn (a : Agent) (hen : s.enabled a = true) :
      State.nextAgent { s with sched := a :: rest } = some (a, rest) :=
    State.nextAgent_head (s := { s with sched := a :: rest }) rfl (by cases a <;> exact hen)
  refine ⟨fun hscript => ?_, fun hbusy => ?_, fun hbusy => ?_⟩
  · rw [step, hturn .host (by simp [State.enabled, hscript])]
  · rw [step, hturn .enc ((UnitStatus.isBusy_iff _).mpr hbusy)]
  · rw [step, hturn .dec ((UnitStatus.isBusy_iff _).mpr hbusy)]

theorem step_of_over {s : State} (hover : s.nextAgent = none) : step s = .next s := by
  rw [step, hover]

/-- Settles O22: no agent has a step exactly when the script is over and neither unit is BUSY. -/
theorem runIsOverExactlyWhenQuiescent : Obligations.RunIsOverExactlyWhenQuiescent := by
  refine fun s => ⟨?_, step_of_over⟩
  rw [State.nextAgent_none]
  constructor
  · intro hnone
    exact ⟨by simpa [State.enabled] using hnone .host, hnone .enc, hnone .dec⟩
  · rintro ⟨hscript, henc, hdec⟩ a
    cases a with
    | host => simp [State.enabled, hscript]
    | enc => exact henc
    | dec => exact hdec

theorem hostTxn_command {w : Nat} {i : Instr} (hw : w < 256) (hi : decode (BitVec.ofNat 8 w) = .command i)
    (s : State) : hostTxn (.writeReg .cmd w) s = exec i s := by
  rw [hostTxn_writeCmd hw, writeCmd, hi]

/-- Settles O4: the HOST's step performs the write of the word, which is the command; the loaded word is such a write. -/
theorem stepRunsTheDecodedCommand : Obligations.StepRunsTheDecodedCommand := by
  intro s w i hw hi
  have hrun (s : State) (rest : List Agent) (script : List HostStmt) (hturn : s.nextAgent = some (.host, rest))
      (hscript : s.script = .txn (.writeReg .cmd w) :: script) :
      step s = exec i { s with sched := rest, script := script } := by
    simp only [step, hturn, hostStep, hscript]
    exact hostTxn_command hw hi _
  refine ⟨hrun s, fun n => ?_⟩
  refine hrun (s.withFetchWord n w) s.sched s.script (State.nextAgent_head rfl rfl) ?_
  rw [State.withFetchWord, Nat.mod_eq_of_lt hw]

end Sys2Proof.Machine
end

section
/-! Host transactions (spec 20_memory.md R42 to R47, 10_state.md R20 to R23, 43_system.md R144). -/

namespace Sys2Proof.Machine

/-- Settles O18: the event's values stand in `resetEvent`. -/
theorem resetEventKeepsTheHostSide : Obligations.ResetEventKeepsTheHostSide := by
  intro s t h
  obtain rfl : s.resetEvent = t := Host.Outcome.next.inj h
  exact ⟨rfl, rfl, rfl, rfl, rfl, rfl, rfl⟩

/-! ### Transactions that do not fit -/

theorem hostTxn_of_not_fits {txn : HostTxn} {s : State} (h : txnFits s.params txn = false) :
    hostTxn txn s = .refused .notATransaction :=
  if_neg (Bool.eq_false_iff.mp h)

/-- Settles O29: an index outside the space or a value wider than the element fails the check. -/
theorem transactionsOutsideTheBlockAreRefused : Obligations.TransactionsOutsideTheBlockAreRefused := by
  intro s i v e n b x r
  refine ⟨fun h => ?_, fun h => ?_, fun h => ?_, fun h => ?_, fun h => ?_⟩
  all_goals
    refine hostTxn_of_not_fits ?_
    simp only [txnFits, ctEntryFits, tmEntryFits, Bool.and_eq_false_iff, decide_eq_false_iff_not,
      Nat.not_lt, Nat.not_le] at h ⊢
    exact h

/-! ### Honoured writes -/

theorem hostTxn_of_fits {txn : HostTxn} {s : State} (h : txnFits s.params txn = true) :
    hostTxn txn s = hostPerform txn s :=
  if_pos h

/-- Settles O30: an honoured write is one write of the memory it goes to. -/
theorem honouredWritesStoreOneElement : Obligations.HonouredWritesStoreOneElement := by
  intro s i v e n
  simp only [← UnitStatus.isBusy_false_iff]
  refine ⟨fun hconfig hfits => ⟨_, (hostTxn_of_fits hfits).trans (hostPerform_writeCT hconfig i e), ?_⟩,
    fun hconfig hfits => ⟨_, (hostTxn_of_fits hfits).trans (hostPerform_writeTM hconfig i n), ?_⟩,
    fun hidle hfits => ⟨_, (hostTxn_of_fits hfits).trans (hostPerform_writeMsg hidle i v), ?_⟩,
    fun hidle hfits => ⟨_, (hostTxn_of_fits hfits).trans (hostPerform_writeDin hidle i v),
      ⟨_, Memory.read_write_same _ _ _, ?_⟩, fun a ha => Memory.read_write_other _ _ ha.symm⟩,
    fun hidle hv => (hostTxn_of_fits (s := s) (txn := .writeReg .mlen v) (decide_eq_true hv)).trans
      (hostPerform_writeMlen hidle v),
    fun hidle hv => (hostTxn_of_fits (s := s) (txn := .writeReg .dlen v) (decide_eq_true hv)).trans
      (hostPerform_writeDlen hidle v)⟩
  case refine_4 =>
    have hv : v < 2 ^ 8 := of_decide_eq_true (Bool.and_eq_true_iff.mp hfits).2
    rw [BitVec.toNat_ofNat, Nat.mod_eq_of_lt hv]
  all_goals exact ⟨Memory.read_write_same _ _ _, fun a ha => Memory.read_write_other _ _ ha.symm⟩

/-! ### Reads -/

/-- `t` is `s` with one reply more, and perhaps a draw. -/
theorem reply_or_drawnReply {s t : State} (h : ∃ r, t = s.reply r ∨ t = s.drawnReply r) :
    ∃ v, t = { s with replies := v :: s.replies, hostDraws := t.hostDraws } := by
  obtain ⟨r, rfl | rfl⟩ := h
  · exact ⟨r, rfl⟩
  · exact ⟨r, rfl⟩

/-- Settles O31: a read is a reply, drawn or not. -/
theorem hostReadsHaveNoSideEffect : Obligations.HostReadsHaveNoSideEffect := by
  rintro s txn hfits (⟨x, i, rfl⟩ | ⟨r, rfl⟩)
  · obtain ⟨v, hv⟩ := reply_or_drawnReply (readElement_eq x i s)
    exact ⟨v, _, if_pos hfits, hv⟩
  · obtain ⟨v, hv⟩ := reply_or_drawnReply (readRegister_eq r s)
    exact ⟨v, _, if_pos hfits, hv⟩

section
variable {s : State} {i : Nat}

theorem readElement_ct_written {e : CTEntry} (h : s.ct.read i = some e) : readElement .ct i s = s.reply (.ct i e) := by
  simp only [readElement, h]

theorem readElement_ct_unwritten (h : s.ct.read i = none) : readElement .ct i s = s.drawnReply (.ct i s.drawnCT) := by
  simp only [readElement, h]

theorem readElement_tm_written {e : TMEntry} (h : s.tm.read i = some e) : readElement .tm i s = s.reply (.tm i e) := by
  simp only [readElement, h]

/-- Where the spec specifies a buffer's element, that is what a read returns. -/
theorem readElement_of_bufferValue {b : Buffer} {v : Nat} (h : s.bufferValue b i = some v) :
    readElement (.buf b) i s = s.reply (.elem b i v) := by
  simp only [readElement, h]

/-- Where the spec leaves a buffer's element open, a read returns a free value. -/
theorem readElement_of_no_bufferValue {b : Buffer} (h : s.bufferValue b i = none) :
    readElement (.buf b) i s =
      s.drawnReply (.elem b i (s.hostDraw (bufferDraw b) (bufferWidth s.params b))) := by
  simp only [readElement, h]

theorem bufferValue_din {v : Byte} (h : s.din.read i = some v) : s.bufferValue .din i = some v.toNat := by
  rw [State.bufferValue, h, Option.map_some]

theorem bufferValue_pay {v : Byte} (hdone : s.enc.stat.state = .done) (hi : i < s.enc.plen)
    (h : s.enc.pay.read i = some v) : s.bufferValue .pay i = some v.toNat := by
  rw [State.bufferValue, if_pos ⟨hdone, hi⟩, h, Option.map_some]

theorem bufferValue_sout {v : Sym} (hdone : s.dec.stat.state = .done) (hi : i < s.dec.slen.toNat)
    (h : s.dec.sout.read i = some v) : s.bufferValue .sout i = some v := by
  rw [State.bufferValue, if_pos ⟨hdone, hi⟩, h]

theorem bufferValue_pay_of_not_done (h : s.enc.stat.state ≠ .done) : s.bufferValue .pay i = none :=
  if_neg fun hdone => h hdone.1

theorem bufferValue_sout_of_not_done (h : s.dec.stat.state ≠ .done) : s.bufferValue .sout i = none :=
  if_neg fun hdone => h hdone.1

end

/-- Settles O32: the value of each element and register is the one the spec gives, and an unwritten CT entry is drawn
with `valid = 0`. -/
theorem hostReadsReturnTheCurrentValue : Obligations.HostReadsReturnTheCurrentValue := fun s i =>
  ⟨fun _ => readElement_ct_written, fun h => ⟨s.drawnCT, rfl, by rw [readElement_ct_unwritten h]; rfl⟩,
    fun _ => readElement_tm_written, fun _ h => readElement_of_bufferValue h,
    fun _ h => readElement_of_bufferValue (bufferValue_din h),
    fun _ hdone hi h => readElement_of_bufferValue (bufferValue_pay hdone hi h),
    fun _ hdone hi h => readElement_of_bufferValue (bufferValue_sout hdone hi h),
    rfl, rfl, rfl, rfl, rfl, rfl, rfl, rfl, rfl⟩

/-- Settles O33: the length is 0 by the invariant, and no element is specified, whatever the buffer holds. -/
theorem unfinishedCallsHaveNoResult : Obligations.UnfinishedCallsHaveNoResult := by
  refine fun s j pay sout hinv => ⟨fun hopen => ⟨hinv.enc.noLength hopen, ?_⟩, fun hopen => ⟨hinv.dec.noLength hopen, ?_⟩⟩
  · have hother : State.bufferValue { s with enc := { s.enc with pay := pay } } .pay j = none :=
      bufferValue_pay_of_not_done hopen
    rw [readElement_of_no_bufferValue hother, readElement_of_no_bufferValue (bufferValue_pay_of_not_done hopen)]
    rfl
  · have hother : State.bufferValue { s with dec := { s.dec with sout := sout } } .sout j = none :=
      bufferValue_sout_of_not_done hopen
    rw [readElement_of_no_bufferValue hother, readElement_of_no_bufferValue (bufferValue_sout_of_not_done hopen)]
    rfl

end Sys2Proof.Machine
end
